-- ==== Sys2Proof/Word.lean ====
section
/-! DEFINITION. The 32-bit word (R14) and its plainest pieces. -/

namespace Sys2Proof

/-- A word is 32 bits (R14). -/
abbrev Word := BitVec 32

/-- A cell of the bit-reversal ROM is 16 bits (R27, R60). -/
abbrev Half := BitVec 16

/-- The word `0x3F800000`, the binary32 value 1.0 (R113, R117). -/
def Word.one : Word := 0x3F800000#32

/-- The word `0x3F000000`, the binary32 value 0.5 (R17). -/
def Word.half : Word := 0x3F000000#32

end Sys2Proof
end

