-- ==== Sys2Proof/Config.lean ====
section
/-! DEFINITION. What a build of the block fixes (R9 to R11), and the free values of the spec. -/

namespace Sys2Proof

/-- `BITREV_STRATEGY` (R11): no behavioural difference, visible only in `CONFIG.BREV_TABLED`. -/
inductive Strategy
  | computed
  | tabled
  deriving DecidableEq, Repr

/-- The build constants `LGMAX = log2(MAXN)` (R9) and `BITREV_STRATEGY` (R11). A build outside
`4 <= MAXN <= 16384` does not exist (R9, U3): the two proofs make it impossible to write one. -/
structure Build where
  lgmax : Nat
  strategy : Strategy
  lgmax_ge : 2 ≤ lgmax
  lgmax_le : lgmax ≤ 14
  deriving DecidableEq, Repr

/-- `MAXN`, the largest transform size of the build (R9). -/
def Build.maxn (b : Build) : Nat := 2 ^ b.lgmax

/-- The reference build `MAXN = 16384`, `COMPUTED` (R9, R11; log 8). -/
def Build.reference : Build := ⟨14, .computed, by decide, by decide⟩

/-- Construction of a build from `MAXN`: refused unless `MAXN` is a power of two in `4 .. 16384`
(R9, U3: "build-time failure, not a runtime condition"). -/
def Build.ofMaxn (maxn : Nat) (strategy : Strategy) : Option Build :=
  if h : 2 ^ Nat.log2 maxn = maxn ∧ 2 ≤ Nat.log2 maxn ∧ Nat.log2 maxn ≤ 14 then
    some ⟨Nat.log2 maxn, strategy, h.2.1, h.2.2⟩
  else none

/-- FREE VALUE. The word `BUF[a]` holds after the `era`-th reset, until it is written: one unknown
word per location (R24, R280, U7; log 2). Nothing constrains it. -/
opaque Config.bufAfterReset (era a : Nat) : Word

/-- FREE VALUE. The `n`-th unspecified word the block produces: the NaN word of an arithmetic result
(R16, U9; log 3), a word of an abandoned operand range and the word an offending read returns (R254,
U5; log 10), and the word read from a bus address that is not the block's (R67; log 11). Nothing
constrains it. -/
opaque Config.freeWord (n : Nat) : Word

/-- OPEN parameter `REG_BASE` (R67, U14; log 11). -/
opaque Config.regBase : Nat

/-- OPEN parameter `BUF_BASE` (R67, U14; log 11). -/
opaque Config.bufBase : Nat

end Sys2Proof
end

