-- ==== Sys2Proof/Syntax.lean ====
section
/-! DEFINITION. The 26 commands (R92, R93), one constructor per row of spec/opcode_table.json. A
command has no operand but its size (R92), so the constructors take no arguments. -/

namespace Sys2Proof

/-- The field `KIND` (R90): 0 complex transform, 1 real transform. -/
inductive Kind
  | complex
  | real
  deriving DecidableEq, Repr

/-- The commands of R93. -/
inductive Instr
  | cfft4
  | cfft8
  | cfft16
  | cfft32
  | cfft64
  | cfft128
  | cfft256
  | cfft512
  | cfft1024
  | cfft2048
  | cfft4096
  | cfft8192
  | cfft16384
  | rfft4
  | rfft8
  | rfft16
  | rfft32
  | rfft64
  | rfft128
  | rfft256
  | rfft512
  | rfft1024
  | rfft2048
  | rfft4096
  | rfft8192
  | rfft16384
  deriving DecidableEq, Repr

/-- The kind of a command (R93). -/
def Instr.kind : Instr → Kind
  | .cfft4 => .complex
  | .cfft8 => .complex
  | .cfft16 => .complex
  | .cfft32 => .complex
  | .cfft64 => .complex
  | .cfft128 => .complex
  | .cfft256 => .complex
  | .cfft512 => .complex
  | .cfft1024 => .complex
  | .cfft2048 => .complex
  | .cfft4096 => .complex
  | .cfft8192 => .complex
  | .cfft16384 => .complex
  | .rfft4 => .real
  | .rfft8 => .real
  | .rfft16 => .real
  | .rfft32 => .real
  | .rfft64 => .real
  | .rfft128 => .real
  | .rfft256 => .real
  | .rfft512 => .real
  | .rfft1024 => .real
  | .rfft2048 => .real
  | .rfft4096 => .real
  | .rfft8192 => .real
  | .rfft16384 => .real

/-- `log2` of the size of a command (R93). -/
def Instr.lg : Instr → Nat
  | .cfft4 => 2
  | .cfft8 => 3
  | .cfft16 => 4
  | .cfft32 => 5
  | .cfft64 => 6
  | .cfft128 => 7
  | .cfft256 => 8
  | .cfft512 => 9
  | .cfft1024 => 10
  | .cfft2048 => 11
  | .cfft4096 => 12
  | .cfft8192 => 13
  | .cfft16384 => 14
  | .rfft4 => 2
  | .rfft8 => 3
  | .rfft16 => 4
  | .rfft32 => 5
  | .rfft64 => 6
  | .rfft128 => 7
  | .rfft256 => 8
  | .rfft512 => 9
  | .rfft1024 => 10
  | .rfft2048 => 11
  | .rfft4096 => 12
  | .rfft8192 => 13
  | .rfft16384 => 14

/-- The size `N = 2^LG` of a command (R92). -/
def Instr.size (i : Instr) : Nat := 2 ^ i.lg

end Sys2Proof
end

