-- ==== Sys2Proof/WellFormed.lean ====
section
/-! DEFINITION. Which commands a build has (R10, R92, R94). -/

namespace Sys2Proof

/-- A command is legal on a build when its size is within the build's maximum: `LG <= LGMAX` (R10,
R91, R94). -/
def Instr.legalOn (b : Build) (i : Instr) : Bool := decide (i.lg ≤ b.lgmax)

end Sys2Proof
end

