-- ==== Sys2Proof/Decode.lean ====
section
/-! DEFINITION. The decoder of the command word (R90, R91, R94), total and rejecting by name, and the
encoder written from the opcode map (R93). -/

namespace Sys2Proof

/-- Why a word is no command of any build (R94). A size above the build's `LGMAX` is judged where the
command is written (R91), since it depends on the build. -/
inductive DecodeError
  /-- a 1 in bits 31:5 -/
  | reservedBits
  /-- `LG` in {0, 1}: sizes 1 and 2 -/
  | sizeTooSmall
  /-- `LG = 15`: size 32768, above the ceiling 16384 -/
  | sizeTooLarge
  deriving DecidableEq, Repr

/-- Field `LG`, bits 3:0 (R90). -/
def fieldLg (w : Word) : Nat := w.toNat % 16

/-- Field `KIND`, bit 4 (R90). -/
def fieldKind (w : Word) : Kind := if w.toNat / 16 % 2 = 0 then .complex else .real

/-- Field `ZERO`, bits 31:5 (R90). -/
def fieldZero (w : Word) : Nat := w.toNat / 32

/-- The command of a kind and a size (R93). -/
def instrOf : Kind → Nat → Option Instr
  | .complex, 2 => some .cfft4
  | .complex, 3 => some .cfft8
  | .complex, 4 => some .cfft16
  | .complex, 5 => some .cfft32
  | .complex, 6 => some .cfft64
  | .complex, 7 => some .cfft128
  | .complex, 8 => some .cfft256
  | .complex, 9 => some .cfft512
  | .complex, 10 => some .cfft1024
  | .complex, 11 => some .cfft2048
  | .complex, 12 => some .cfft4096
  | .complex, 13 => some .cfft8192
  | .complex, 14 => some .cfft16384
  | .real, 2 => some .rfft4
  | .real, 3 => some .rfft8
  | .real, 4 => some .rfft16
  | .real, 5 => some .rfft32
  | .real, 6 => some .rfft64
  | .real, 7 => some .rfft128
  | .real, 8 => some .rfft256
  | .real, 9 => some .rfft512
  | .real, 10 => some .rfft1024
  | .real, 11 => some .rfft2048
  | .real, 12 => some .rfft4096
  | .real, 13 => some .rfft8192
  | .real, 14 => some .rfft16384
  | _, _ => none

/-- Decoding of a command word (R90, R93, R94). -/
def decode (w : Word) : Except DecodeError Instr :=
  if fieldZero w ≠ 0 then .error .reservedBits
  else if fieldLg w < 2 then .error .sizeTooSmall
  else match instrOf (fieldKind w) (fieldLg w) with
    | some i => .ok i
    | none => .error .sizeTooLarge

/-- The command words of R93. -/
def encode : Instr → Word
  | .cfft4 => 0x00000002#32
  | .cfft8 => 0x00000003#32
  | .cfft16 => 0x00000004#32
  | .cfft32 => 0x00000005#32
  | .cfft64 => 0x00000006#32
  | .cfft128 => 0x00000007#32
  | .cfft256 => 0x00000008#32
  | .cfft512 => 0x00000009#32
  | .cfft1024 => 0x0000000A#32
  | .cfft2048 => 0x0000000B#32
  | .cfft4096 => 0x0000000C#32
  | .cfft8192 => 0x0000000D#32
  | .cfft16384 => 0x0000000E#32
  | .rfft4 => 0x00000012#32
  | .rfft8 => 0x00000013#32
  | .rfft16 => 0x00000014#32
  | .rfft32 => 0x00000015#32
  | .rfft64 => 0x00000016#32
  | .rfft128 => 0x00000017#32
  | .rfft256 => 0x00000018#32
  | .rfft512 => 0x00000019#32
  | .rfft1024 => 0x0000001A#32
  | .rfft2048 => 0x0000001B#32
  | .rfft4096 => 0x0000001C#32
  | .rfft8192 => 0x0000001D#32
  | .rfft16384 => 0x0000001E#32

/-- The host's view of the decoder: `nbits` bits numbered from bit 0 of the one word of a command; the
bits above `nbits` are 0. A word of more than 32 bits is no command (R90: one length, one format). -/
def decodeTableWord (nbits w : Nat) : Option Instr :=
  if w % 2 ^ nbits < 2 ^ 32 then
    match decode (BitVec.ofNat 32 (w % 2 ^ nbits)) with
    | .ok i => some i
    | .error _ => none
  else none

end Sys2Proof
end

