-- ==== Sys2Proof/Machine/State.lean ====
section
/-! DEFINITION. The state of the block (R39) beside the host accesses still to come, the reasons a step
can stop, and the state after reset (R280). -/

namespace Sys2Proof.Machine

/-- The sequencer's phases (R36). -/
inductive Phase
  | idle
  | permute
  | stages
  | recombine
  | halt
  deriving DecidableEq, Repr

/-- The sequencer position (R36): the micro-operation that runs next. `n` is the size of the running
command and `m` the size of its complex kernel pass; `stage`, `base`, `k`, `i` are the loop indices of
R145, R165 and R203. -/
structure Seq where
  phase : Phase
  n : Nat
  m : Nat
  stage : Nat
  base : Nat
  k : Nat
  i : Nat
  deriving DecidableEq, Repr

/-- The position between commands. The components beside the phase are unspecified and unread there
(R36, U10); the model holds 0 in them (log 7). -/
def Seq.idle : Seq := ⟨.idle, 0, 0, 0, 0, 0, 0⟩

/-- The fields of register `STATUS` (R31). Its reserved bits read 0 and are stored nowhere. -/
structure Status where
  busy : Bool
  done : Bool
  err : Bool
  errcode : BitVec 4
  deriving DecidableEq, Repr

/-- `STATUS` after reset (R31, R280). -/
def Status.reset : Status := ⟨false, false, false, 0#4⟩

/-- The two spaces the host port reaches (R60, R64). -/
inductive Space
  | reg
  | buf
  deriving DecidableEq, Repr

/-- One act of the host at the block's boundary: `MemRead` and `MemWrite` with the width in bytes (R64,
R65), the same through a byte-addressed bus mapping (R67, R69), and the reset input (R280). -/
inductive PortOp
  | read (space : Space) (addr width : Nat)
  | write (space : Space) (addr width : Nat) (v : Word)
  | busRead (byteAddr width : Nat)
  | busWrite (byteAddr width : Nat) (v : Word)
  | reset
  deriving DecidableEq, Repr

/-- A host access still to come. `after = none`: the host waits until `STATUS.BUSY = 0` before it makes
the access (R286). `after = some k`: the access arrives once the engine has taken `k` more
micro-operations, or when it has completed before that (R71, R257; log 5). -/
structure Access where
  op : PortOp
  after : Option Nat
  deriving DecidableEq, Repr

/-- The words of `BUF` that have been written since the last reset, by word index (R20, R285). A listed
index holds its word, an unlisted one has none of its own: it reads as the free value
`Config.bufAfterReset` (R24; log 1, log 2). -/
abbrev Mem := List (Nat × Word)

/-- The canonical form of a memory: indices strictly rising. No entry can equal what an unlisted index
holds, which is no word (log 1). -/
def Mem.wf : Mem → Bool
  | [] => true
  | [_] => true
  | (a, _) :: (b, w) :: m => decide (a < b) && Mem.wf ((b, w) :: m)

/-- The state of the machine. `build` to `seq` are the block's own (R39; the ROMs and `CONFIG` are
functions of `build`); `port` and `replies` are the two directions of the host port (log 5); `draws`
and `era` index the free values (log 4). -/
structure State where
  build : Build
  buf : Mem
  cmd : Word
  status : Status
  seq : Seq
  port : List Access
  replies : List Word
  draws : Nat
  era : Nat
  deriving DecidableEq, Repr

/-- Reasons the machine could stop with a fault. There is none: the block's two faults `ILLEGAL_CMD` and
`BUSY_VIOLATION` are recorded in `STATUS`, after which the block goes on answering its host (R252, R255,
R258), and arithmetic never faults (R256). Safe (log 17). -/
inductive Fault
  deriving DecidableEq, Repr

/-- Reasons a step has no meaning. -/
inductive Refusal
  /-- Raised by `exec` for an instruction without a meaning yet. No arm uses it. Safe. -/
  | notModelled (mnemonic : String)
  /-- Raised by `step` for a host access that is not four bytes wide (R66, R69, U13: a model refuses it).
  Safe. -/
  | accessWidth
  /-- Raised by `step` for a bus access at an address that is no multiple of four (R69, U13). Safe. -/
  | misaligned
  /-- Raised by `step` for a micro-operation whose operands are outside the ranges of R112, R115, R140 and
  R161 (U16, U18: "have no meaning: a model refuses them"; log 14). No state that meets the invariant of the
  block raises it. Safe. -/
  | operandRange
  deriving DecidableEq, Repr

/-- The state right after reset (R280): registers cleared, sequencer idle, `BUF` unspecified, the
reference build, no host access pending (log 4, log 5, log 7, log 8). -/
def State.reset : State where
  build := Build.reference
  buf := []
  cmd := 0#32
  status := Status.reset
  seq := Seq.idle
  port := []
  replies := []
  draws := 0
  era := 0

end Sys2Proof.Machine
end

