-- ==== Sys2Proof/Machine/Flags.lean ====
section
/-! DEFINITION. Register `STATUS` and what sets its fields (R31, R91, R252, R254), and register `CONFIG`
(R33). No arithmetic result sets any flag (R32, R256). -/

namespace Sys2Proof.Machine

/-- The two faults of the block (R258). -/
inductive BlockFault
  | illegalCmd
  | busyViolation
  deriving DecidableEq, Repr

/-- `code(F)` (R252). -/
def faultCode : BlockFault → BitVec 4
  | .illegalCmd => 1#4
  | .busyViolation => 2#4

/-- The word a read of `STATUS` returns (R31): `BUSY` bit 0, `DONE` bit 1, `ERR` bit 2, `ERRCODE` bits
7:4, the rest 0. -/
def Status.word (t : Status) : Word :=
  BitVec.ofNat 32 (t.busy.toNat + 2 * t.done.toNat + 4 * t.err.toNat + 16 * t.errcode.toNat)

/-- Acceptance of a legal command (R91): `DONE <- 0`, `BUSY <- 1`. -/
def Status.accept (t : Status) : Status := { t with busy := true, done := false }

/-- Completion (R91): `BUSY <- 0`, `DONE <- 1`. -/
def Status.complete (t : Status) : Status := { t with busy := false, done := true }

/-- A running command is abandoned (R254): `BUSY <- 0`, `DONE` stays. -/
def Status.abandon (t : Status) : Status := { t with busy := false }

/-- The fault is recorded if it is the first (R252). -/
def Status.record (t : Status) (f : BlockFault) : Status :=
  if t.err then t else { t with err := true, errcode := faultCode f }

/-- Register `CONFIG` of a build (R33): `LGMAX` in bits 3:0, `BREV_TABLED` in bit 4. -/
def configWord (b : Build) : Word :=
  BitVec.ofNat 32 (b.lgmax + match b.strategy with | .computed => 0 | .tabled => 16)

end Sys2Proof.Machine
end

