-- ==== Sys2Proof/Machine/BitRev.lean ====
section
/-! DEFINITION. The bit-reversal index function BITREV in its two forms (R140, R141, R143) and the
bit-reversal ROM (R27). Sizes are powers of two and are given by their logarithm. -/

namespace Sys2Proof.Machine

/-- `for v in 0 .. n-1: s <- body v s` (R14). -/
def forUpTo {σ : Type} (n : Nat) (body : Nat → σ → σ) (s : σ) : σ :=
  match n with
  | 0 => s
  | n + 1 => body n (forUpTo n body s)

/-- The reversed index by the defining sum over the bits of `i` (R140). -/
def bitrevSum (lg i : Nat) : Nat :=
  ((List.range lg).map fun b => i / 2 ^ b % 2 * 2 ^ (lg - 1 - b)).sum

/-- Computed form (R141): the bits of `i` are shifted into an accumulator. -/
def bitrevComputed (lg i : Nat) : Nat :=
  forUpTo lg (fun b r => (r <<< 1) ||| ((i >>> b) &&& 1)) 0

/-- The table of one size: `N` cells of 16 bits (R27). -/
def brevTable (lg : Nat) : List Half :=
  (List.range (2 ^ lg)).map fun i => BitVec.ofNat 16 (bitrevSum lg i)

/-- `BREV_ROM[N][i]` (R27). An index of `N` or above is never read: such a step is refused
(log 14). -/
def brevRom (lg i : Nat) : Half := (brevTable lg)[i]?.getD 0#16

/-- `BITREV(2^lg, i)` under the build's strategy (R141, R143). -/
def bitrev (st : Strategy) (lg i : Nat) : Nat :=
  match st with
  | .computed => bitrevComputed lg i
  | .tabled => (brevRom lg i).toNat

end Sys2Proof.Machine
end

