-- ==== Sys2Proof/Machine/Operands.lean ====
section
/-! DEFINITION. The words of `BUF`: the memory operations, the word a location holds, the complex view
(R20 to R24), and the one loop that writes a range of unspecified words (R254). -/

namespace Sys2Proof.Machine

/-- The word written last to an index, if any since reset. -/
def Mem.lookup : Mem → Nat → Option Word
  | [], _ => none
  | (b, w) :: m, a => if a = b then some w else Mem.lookup m a

/-- Writes one word and keeps the indices rising. -/
def Mem.insert : Mem → Nat → Word → Mem
  | [], a, v => [(a, v)]
  | (b, w) :: m, a, v =>
    if a < b then (a, v) :: (b, w) :: m
    else if a = b then (a, v) :: m
    else (b, w) :: Mem.insert m a v

/-- `BUF[a]`: the word written last, and before any write the unknown word of that location, which stays
the same until it is written (R24, U7; log 2). -/
def bufRead (s : State) (a : Nat) : Word :=
  match s.buf.lookup a with
  | some w => w
  | none => Config.bufAfterReset s.era a

/-- `BUF[a] <- v`. -/
def bufWrite (a : Nat) (v : Word) (s : State) : State := { s with buf := s.buf.insert a v }

/-- `C[j]`: real part at the even word, imaginary part at the next (R22). -/
def sampleRead (s : State) (j : Nat) : Word × Word := (bufRead s (2 * j), bufRead s (2 * j + 1))

/-- `C[j] <- (r, m)` (R22). -/
def sampleWrite (j : Nat) (z : Word × Word) (s : State) : State :=
  bufWrite (2 * j + 1) z.2 (bufWrite (2 * j) z.1 s)

/-- The counter of free values moves past `n` of them (log 4). -/
def draw (n : Nat) (s : State) : State := { s with draws := s.draws + n }

/-- The first `n` words of `BUF` take unspecified words, each its own (R254; log 10). -/
def scramble (n : Nat) (s : State) : State :=
  draw n (forUpTo n (fun a t => bufWrite a (Config.freeWord (s.draws + a)) t) s)

/-- The operand words of the running command: `0 .. 2M-1`, that is `0 .. 2N-1` for `CFFT_N` and
`0 .. N-1` for `RFFT_N`, whose kernel pass has `M = N/2` (R23, R36, R254). -/
def runningWords (s : State) : Nat := 2 * s.seq.m

/-- The byte of a word at byte offset `b` of a byte-addressed mapping: little-endian (R68). -/
def busByte (w : Word) (b : Nat) : BitVec 8 := BitVec.ofNat 8 (w.toNat / 2 ^ (8 * b))

end Sys2Proof.Machine
end

