-- ==== Sys2Proof/Machine/Ops.lean ====
section
/-! DEFINITION. The named operations that instructions and host accesses share: taking a fault (R252 to
R254), reset, the tests of a `CMD` write (R91, R257), acceptance and completion of a command, the host
port's reads and writes (R64, R65) and the bus mapping (R67). -/

namespace Sys2Proof.Machine

/-- `raise F` (R252): the first fault is recorded and the sequencer halts. Nothing else is saved. -/
def raiseFault (f : BlockFault) (s : State) : State :=
  { s with status := s.status.record f, seq := { s.seq with phase := .halt } }

/-- `BUSY_VIOLATION` (R254): the running command is abandoned, its operand words are unspecified from
then on, and the fault is raised. -/
def busyViolation (s : State) : State :=
  let t := scramble (runningWords s) s
  raiseFault .busyViolation { t with status := t.status.abandon }

/-- The reset input (R280, R281): registers cleared, sequencer idle, every word of `BUF` unspecified. The
build does not change; the host's accesses and replies are the host's (log 12). There is no other way
out of the halted state (R255). -/
def resetBlock (s : State) : State :=
  { s with
    buf := [], cmd := 0#32, status := Status.reset, seq := Seq.idle, era := s.era + 1 }

/-- The tests of a write of `v` to `CMD`, in the order halted, busy, legality (R91, R257). `body` is what
a legal command does once `CMD` holds its word. -/
def commandGate (v : Word) (legal : Bool) (body : State → State) (s : State) : State :=
  if s.status.err then s
  else if s.status.busy then busyViolation s
  else if legal then body { s with cmd := v }
  else raiseFault .illegalCmd { s with cmd := v }

/-- Acceptance of a legal command (R91): `DONE <- 0`, `BUSY <- 1`, and the sequencer stands at the start
of `PERMUTE` with `N = 2^LG` and `M = N` for a complex, `N/2` for a real command (R36, R166, R204). The spec
leaves `stage`, `base` and `k` open there; the model puts them at 0 (DESIGN CHOICE, log 7). -/
def accept (k : Kind) (lg : Nat) (s : State) : State :=
  { s with
    status := s.status.accept
    seq :=
      { phase := .permute
        n := 2 ^ lg
        m := match k with | .complex => 2 ^ lg | .real => 2 ^ lg / 2
        stage := 0, base := 0, k := 0, i := 0 } }

/-- Completion (R91, R168, R206): `seq <- IDLE`, `BUSY <- 0`, `DONE <- 1`. -/
def complete (s : State) : State :=
  { s with status := s.status.complete, seq := Seq.idle }

/-- `MemRead(REG, n, 4)` (R29, R64). -/
def regRead (s : State) (n : Nat) : Word :=
  match n with
  | 0 => s.cmd
  | 1 => s.status.word
  | 2 => configWord s.build
  | _ => 0#32

/-- The word goes back to the host. -/
def reply (w : Word) (s : State) : State := { s with replies := w :: s.replies }

/-- `MemRead(BUF, a, 4)` (R64): a violation while busy, with an unspecified word returned (R254; log
10); 0 outside the memory (R61). -/
def bufPortRead (a : Nat) (s : State) : State :=
  if s.status.busy then
    let t := busyViolation s
    reply (Config.freeWord t.draws) (draw 1 t)
  else if a < 2 * s.build.maxn then reply (bufRead s a) s
  else reply 0#32 s

/-- `MemWrite(BUF, a, 4, v)` (R65): a violation while busy, and then not performed (R254); ignored
outside the memory (R61). -/
def bufPortWrite (a : Nat) (v : Word) (s : State) : State :=
  if s.status.busy then busyViolation s
  else if a < 2 * s.build.maxn then bufWrite a v s
  else s

/-- The index whose byte address is `addr` when word 0 stands at `base`: `addr = base + 4 * index` (R67). -/
def busIndex (base addr : Nat) : Option Nat :=
  if base ≤ addr ∧ (addr - base) % 4 = 0 then some ((addr - base) / 4) else none

/-- What a byte-addressed bus access reaches: register `n` at `REG_BASE + 4n`, `BUF[a]` at `BUF_BASE + 4a`,
and nothing of the block at any other address (R67). Only aligned accesses have a meaning (R69). The bases
are not assumed to be multiples of 4. Where an address is both a register's and a word's, an existing
register comes first, then an existing word, then the space with the higher base (DESIGN CHOICE, log 11). -/
def busTarget (regBase bufBase : Nat) (b : Build) (addr : Nat) :
    Except Refusal (Option (Space × Nat)) :=
  if addr % 4 ≠ 0 then .error .misaligned
  else match busIndex regBase addr, busIndex bufBase addr with
    | none, none => .ok none
    | some n, none => .ok (some (.reg, n))
    | none, some a => .ok (some (.buf, a))
    | some n, some a =>
      if n < 3 ∨ (2 * b.maxn ≤ a ∧ bufBase ≤ regBase) then .ok (some (.reg, n))
      else .ok (some (.buf, a))

/-- A read at a bus address that is not the block's: the block is not accessed, and the word comes from
elsewhere on the bus (R67; log 11). -/
def elsewhereRead (s : State) : State := reply (Config.freeWord s.draws) (draw 1 s)

end Sys2Proof.Machine
end

