-- ==== Sys2Proof/Machine/Arith.lean ====
section
/-! DEFINITION. The binary32 arithmetic of the block (R15 to R17): every result is the exact one, computed
on integers, rounded once. -/

namespace Sys2Proof.Machine

/-- The sign `w[31]` (R15). -/
def signOf (w : Word) : Bool := decide (2 ^ 31 ≤ w.toNat)

/-- The biased exponent `w[30:23]` (R15). -/
def expOf (w : Word) : Nat := w.toNat / 2 ^ 23 % 256

/-- The fraction `w[22:0]` (R15). -/
def fracOf (w : Word) : Nat := w.toNat % 2 ^ 23

/-- Exponent 255 and a non-zero fraction (R15). -/
def isNaN (w : Word) : Bool := decide (expOf w = 255) && decide (fracOf w ≠ 0)

/-- Exponent 255 and fraction 0 (R15). -/
def isInf (w : Word) : Bool := decide (expOf w = 255) && decide (fracOf w = 0)

/-- A zero of either sign (R15). -/
def isZero (w : Word) : Bool := decide (expOf w = 0) && decide (fracOf w = 0)

/-- The magnitude of a finite word in units of `2^-149`: `f` when `e = 0`, else `(2^23 + f) * 2^(e-1)`
(R15). -/
def magOf (w : Word) : Nat :=
  if expOf w = 0 then fracOf w else (2 ^ 23 + fracOf w) * 2 ^ (expOf w - 1)

/-- The value of a finite word in units of `2^-149` (R15). -/
def valueOf (w : Word) : Int := if signOf w then -(magOf w : Int) else magOf w

/-- The magnitude bits of infinity. -/
def infBits : Nat := 0x7F800000

/-- The word of a sign and 31 magnitude bits. -/
def pack (sign : Bool) (bits : Nat) : Word :=
  BitVec.ofNat 32 ((if sign then 2 ^ 31 else 0) + bits)

/-- `n / 2^q` rounded to the nearest integer, ties to even (R16). -/
def roundQuot (n q : Nat) : Nat :=
  if 2 * (n % 2 ^ q) < 2 ^ q ∨ (2 * (n % 2 ^ q) = 2 ^ q ∧ n / 2 ^ q % 2 = 0) then n / 2 ^ q
  else n / 2 ^ q + 1

/-- The magnitude bits of `n * 2^-(149 + s)` rounded once (R16). `q` low bits are dropped: as many as
leave 24 significant bits, and at least `s`, the bits below the subnormal grid. A carry out of the
significand raises the exponent by itself; what reaches the exponent 255 is infinity. -/
def roundMag (n s : Nat) : Nat :=
  let q := max s (Nat.log2 n - 23)
  min ((q - s) * 2 ^ 23 + roundQuot n q) infBits

/-- The NaN word a free word stands for: its sign, exponent 255, its fraction, or fraction 1 in place of
0. Every NaN word is the image of itself (R16, U9; log 3). -/
def nanOf (w : Word) : Word :=
  pack (signOf w) (infBits + if fracOf w = 0 then 1 else fracOf w)

/-- The NaN word the `n`-th arithmetic operation would return: unspecified (R16; log 3). -/
def nanAt (n : Nat) : Word := nanOf (Config.freeWord n)

/-- `fneg` (R17): flips the sign bit of any word. -/
def fneg (a : Word) : Word := a ^^^ 0x80000000#32

/-- `fadd` (R16). `nan` is the word returned for a NaN result. -/
def fadd (nan a b : Word) : Word :=
  if isNaN a || isNaN b then nan
  else if isInf a then (if isInf b && (signOf a != signOf b) then nan else a)
  else if isInf b then b
  else if valueOf a + valueOf b = 0 then pack (signOf a && signOf b) 0
  else pack (decide (valueOf a + valueOf b < 0)) (roundMag (valueOf a + valueOf b).natAbs 0)

/-- `fsub` (R16): `fadd(a, fneg(b))` in every case. -/
def fsub (nan a b : Word) : Word := fadd nan a (fneg b)

/-- `fmul` (R16). `nan` is the word returned for a NaN result. -/
def fmul (nan a b : Word) : Word :=
  if isNaN a || isNaN b then nan
  else if isInf a || isInf b then
    (if isZero a || isZero b then nan else pack (signOf a != signOf b) infBits)
  else pack (signOf a != signOf b) (roundMag (magOf a * magOf b) 149)

/-- `fhalf` (R17): multiplication by 0.5. -/
def fhalf (nan a : Word) : Word := fmul nan a Word.half

end Sys2Proof.Machine
end

