-- ==== Sys2Proof/Machine/SineRom.lean ====
section
/-! DEFINITION. The contents of the Sine Table for `MAXN = 16384` (R240, R241): 512 rows of eight words,
each row one number that reads like the line of the spec's listing, its first word most significant.
The rows are grouped in sixteen chunks of 32 rows. -/

namespace Sys2Proof.Machine

/-- Entries 0 to 255 of the Sine Table (R240). -/
def sineChunk0 : List Nat := [
  0x00000000_39C90FDA_3A490FD9_3A96CBE2_3AC90FD5_3AFB53C7_3B16CBDB_3B2FEDD1,
  0x3B490FC6_3B6231B9_3B7B53A9_3B8A3ACB_3B96CBC1_3BA35CB5_3BAFEDA8_3BBC7E99,
  0x3BC90F88_3BD5A075_3BE23160_3BEEC249_3BFB5330_3C03F20A_3C0A3A7B_3C1082EA,
  0x3C16CB58_3C1D13C5_3C235C30_3C29A49A_3C2FED02_3C363568_3C3C7DCC_3C42C62F,
  0x3C490E90_3C4F56EF_3C559F4C_3C5BE7A6_3C622FFF_3C687856_3C6EC0AA_3C7508FC,
  0x3C7B514B_3C80CCCC_3C83F0F2_3C871516_3C8A3938_3C8D5D5A_3C90817A_3C93A599,
  0x3C96C9B6_3C99EDD2_3C9D11EC_3CA03605_3CA35A1C_3CA67E32_3CA9A246_3CACC658,
  0x3CAFEA69_3CB30E78_3CB63286_3CB95691_3CBC7A9B_3CBF9EA3_3CC2C2A9_3CC5E6AD,
  0x3CC90AB0_3CCC2EB0_3CCF52AF_3CD276AB_3CD59AA6_3CD8BE9E_3CDBE294_3CDF0688,
  0x3CE22A7A_3CE54E6A_3CE87258_3CEB9643_3CEEBA2C_3CF1DE13_3CF501F8_3CF825DA,
  0x3CFB49BA_3CFE6D97_3D00C8B9_3D025AA5_3D03EC90_3D057E7A_3D071062_3D08A249,
  0x3D0A342F_3D0BC613_3D0D57F6_3D0EE9D8_3D107BB8_3D120D97_3D139F75_3D153151,
  0x3D16C32C_3D185505_3D19E6DD_3D1B78B3_3D1D0A88_3D1E9C5B_3D202E2D_3D21BFFD,
  0x3D2351CB_3D24E399_3D267564_3D28072E_3D2998F6_3D2B2ABD_3D2CBC82_3D2E4E45,
  0x3D2FE007_3D3171C6_3D330385_3D349541_3D3626FC_3D37B8B5_3D394A6C_3D3ADC22,
  0x3D3C6DD5_3D3DFF87_3D3F9137_3D4122E5_3D42B491_3D44463C_3D45D7E4_3D47698B,
  0x3D48FB30_3D4A8CD2_3D4C1E73_3D4DB012_3D4F41AF_3D50D34A_3D5264E2_3D53F679,
  0x3D55880E_3D5719A1_3D58AB31_3D5A3CC0_3D5BCE4C_3D5D5FD7_3D5EF15F_3D6082E5,
  0x3D621469_3D63A5EA_3D65376A_3D66C8E7_3D685A62_3D69EBDB_3D6B7D51_3D6D0EC6,
  0x3D6EA038_3D7031A8_3D71C315_3D735480_3D74E5E9_3D76774F_3D7808B3_3D799A15,
  0x3D7B2B74_3D7CBCD1_3D7E4E2B_3D7FDF83_3D80B86C_3D818116_3D8249BE_3D831265,
  0x3D83DB0A_3D84A3AF_3D856C52_3D8634F4_3D86FD94_3D87C634_3D888ED2_3D89576E,
  0x3D8A200A_3D8AE8A4_3D8BB13C_3D8C79D4_3D8D426A_3D8E0AFE_3D8ED391_3D8F9C23,
  0x3D9064B4_3D912D43_3D91F5D0_3D92BE5D_3D9386E7_3D944F71_3D9517F9_3D95E07F,
  0x3D96A905_3D977188_3D983A0A_3D99028B_3D99CB0A_3D9A9388_3D9B5C05_3D9C247F,
  0x3D9CECF9_3D9DB570_3D9E7DE7_3D9F465B_3DA00ECF_3DA0D740_3DA19FB0_3DA2681F,
  0x3DA3308C_3DA3F8F7_3DA4C161_3DA589C9_3DA65230_3DA71A95_3DA7E2F8_3DA8AB5A,
  0x3DA973BA_3DAA3C19_3DAB0476_3DABCCD1_3DAC952B_3DAD5D83_3DAE25D9_3DAEEE2D,
  0x3DAFB680_3DB07ED2_3DB14721_3DB20F6F_3DB2D7BB_3DB3A005_3DB4684E_3DB53095,
  0x3DB5F8DA_3DB6C11D_3DB7895F_3DB8519F_3DB919DD_3DB9E219_3DBAAA54_3DBB728C,
  0x3DBC3AC3_3DBD02F8_3DBDCB2C_3DBE935D_3DBF5B8D_3DC023BA_3DC0EBE6_3DC1B410,
  0x3DC27C39_3DC3445F_3DC40C83_3DC4D4A6_3DC59CC6_3DC664E5_3DC72D02_3DC7F51D]

/-- Entries 256 to 511 of the Sine Table (R240). -/
def sineChunk1 : List Nat := [
  0x3DC8BD36_3DC9854D_3DCA4D62_3DCB1575_3DCBDD86_3DCCA596_3DCD6DA3_3DCE35AE,
  0x3DCEFDB7_3DCFC5BF_3DD08DC4_3DD155C7_3DD21DC8_3DD2E5C8_3DD3ADC5_3DD475C0,
  0x3DD53DB9_3DD605B0_3DD6CDA5_3DD79598_3DD85D89_3DD92578_3DD9ED64_3DDAB54F,
  0x3DDB7D37_3DDC451E_3DDD0D02_3DDDD4E4_3DDE9CC4_3DDF64A2_3DE02C7D_3DE0F457,
  0x3DE1BC2E_3DE28403_3DE34BD6_3DE413A7_3DE4DB76_3DE5A342_3DE66B0C_3DE732D4,
  0x3DE7FA9A_3DE8C25D_3DE98A1F_3DEA51DE_3DEB199A_3DEBE155_3DECA90D_3DED70C3,
  0x3DEE3876_3DEF0028_3DEFC7D7_3DF08F83_3DF1572E_3DF21ED6_3DF2E67C_3DF3AE1F,
  0x3DF475C0_3DF53D5F_3DF604FB_3DF6CC95_3DF7942C_3DF85BC2_3DF92354_3DF9EAE5,
  0x3DFAB273_3DFB79FE_3DFC4187_3DFD090E_3DFDD092_3DFE9814_3DFF5F94_3E001388,
  0x3E007745_3E00DB01_3E013EBC_3E01A276_3E02062E_3E0269E5_3E02CD9B_3E03314F,
  0x3E039502_3E03F8B4_3E045C65_3E04C014_3E0523C2_3E05876F_3E05EB1B_3E064EC5,
  0x3E06B26E_3E071616_3E0779BC_3E07DD61_3E084105_3E08A4A7_3E090848_3E096BE8,
  0x3E09CF86_3E0A3324_3E0A96BF_3E0AFA5A_3E0B5DF3_3E0BC18B_3E0C2521_3E0C88B6,
  0x3E0CEC4A_3E0D4FDC_3E0DB36D_3E0E16FD_3E0E7A8B_3E0EDE18_3E0F41A4_3E0FA52E,
  0x3E1008B7_3E106C3E_3E10CFC4_3E113349_3E1196CC_3E11FA4E_3E125DCE_3E12C14D,
  0x3E1324CA_3E138847_3E13EBC1_3E144F3B_3E14B2B2_3E151629_3E15799E_3E15DD11,
  0x3E164083_3E16A3F4_3E170763_3E176AD1_3E17CE3D_3E1831A8_3E189511_3E18F879,
  0x3E195BE0_3E19BF45_3E1A22A8_3E1A860A_3E1AE96B_3E1B4CCA_3E1BB027_3E1C1383,
  0x3E1C76DE_3E1CDA36_3E1D3D8E_3E1DA0E4_3E1E0438_3E1E678B_3E1ECADD_3E1F2E2C,
  0x3E1F917B_3E1FF4C8_3E205813_3E20BB5C_3E211EA5_3E2181EB_3E21E530_3E224874,
  0x3E22ABB6_3E230EF6_3E237235_3E23D572_3E2438AD_3E249BE7_3E24FF20_3E256257,
  0x3E25C58C_3E2628C0_3E268BF2_3E26EF22_3E275251_3E27B57E_3E2818AA_3E287BD4,
  0x3E28DEFC_3E294223_3E29A548_3E2A086B_3E2A6B8D_3E2ACEAE_3E2B31CC_3E2B94E9,
  0x3E2BF804_3E2C5B1E_3E2CBE36_3E2D214C_3E2D8461_3E2DE773_3E2E4A85_3E2EAD94,
  0x3E2F10A2_3E2F73AE_3E2FD6B9_3E3039C2_3E309CC9_3E30FFCE_3E3162D2_3E31C5D4,
  0x3E3228D4_3E328BD3_3E32EECF_3E3351CB_3E33B4C4_3E3417BC_3E347AB2_3E34DDA6,
  0x3E354098_3E35A389_3E360678_3E366965_3E36CC50_3E372F3A_3E379222_3E37F508,
  0x3E3857EC_3E38BACF_3E391DB0_3E39808F_3E39E36C_3E3A4647_3E3AA921_3E3B0BF9,
  0x3E3B6ECF_3E3BD1A3_3E3C3476_3E3C9746_3E3CFA15_3E3D5CE2_3E3DBFAD_3E3E2276,
  0x3E3E853E_3E3EE804_3E3F4AC7_3E3FAD89_3E401049_3E407308_3E40D5C4_3E41387F,
  0x3E419B37_3E41FDEE_3E4260A3_3E42C356_3E432607_3E4388B7_3E43EB64_3E444E10,
  0x3E44B0B9_3E451361_3E457607_3E45D8AB_3E463B4D_3E469DED_3E47008B_3E476328]

/-- Entries 512 to 767 of the Sine Table (R240). -/
def sineChunk2 : List Nat := [
  0x3E47C5C2_3E48285A_3E488AF1_3E48ED85_3E495018_3E49B2A9_3E4A1538_3E4A77C4,
  0x3E4ADA4F_3E4B3CD8_3E4B9F5F_3E4C01E4_3E4C6467_3E4CC6E8_3E4D2967_3E4D8BE4,
  0x3E4DEE60_3E4E50D9_3E4EB350_3E4F15C5_3E4F7838_3E4FDAA9_3E503D19_3E509F86,
  0x3E5101F1_3E51645A_3E51C6C1_3E522926_3E528B89_3E52EDEA_3E535049_3E53B2A6,
  0x3E541501_3E54775A_3E54D9B1_3E553C06_3E559E58_3E5600A9_3E5662F8_3E56C544,
  0x3E57278F_3E5789D7_3E57EC1D_3E584E62_3E58B0A4_3E5912E4_3E597522_3E59D75E,
  0x3E5A3997_3E5A9BCF_3E5AFE05_3E5B6038_3E5BC26A_3E5C2499_3E5C86C6_3E5CE8F1,
  0x3E5D4B1A_3E5DAD40_3E5E0F65_3E5E7187_3E5ED3A8_3E5F35C6_3E5F97E2_3E5FF9FC,
  0x3E605C13_3E60BE29_3E61203C_3E61824D_3E61E45C_3E624669_3E62A874_3E630A7C,
  0x3E636C83_3E63CE87_3E643089_3E649288_3E64F486_3E655681_3E65B87A_3E661A71,
  0x3E667C66_3E66DE58_3E674048_3E67A236_3E680422_3E68660B_3E68C7F3_3E6929D8,
  0x3E698BBA_3E69ED9B_3E6A4F79_3E6AB155_3E6B132F_3E6B7506_3E6BD6DC_3E6C38AF,
  0x3E6C9A7F_3E6CFC4E_3E6D5E1A_3E6DBFE3_3E6E21AB_3E6E8370_3E6EE533_3E6F46F4,
  0x3E6FA8B2_3E700A6E_3E706C28_3E70CDDF_3E712F94_3E719147_3E71F2F7_3E7254A5,
  0x3E72B651_3E7317FA_3E7379A1_3E73DB46_3E743CE8_3E749E88_3E750026_3E7561C1,
  0x3E75C35A_3E7624F1_3E768685_3E76E817_3E7749A6_3E77AB33_3E780CBE_3E786E46,
  0x3E78CFCC_3E79314F_3E7992D0_3E79F44F_3E7A55CB_3E7AB745_3E7B18BC_3E7B7A31,
  0x3E7BDBA4_3E7C3D14_3E7C9E82_3E7CFFED_3E7D6156_3E7DC2BC_3E7E2420_3E7E8582,
  0x3E7EE6E1_3E7F483D_3E7FA998_3E800578_3E803622_3E8066CC_3E809774_3E80C81B,
  0x3E80F8C0_3E812965_3E815A08_3E818AAA_3E81BB4A_3E81EBEA_3E821C88_3E824D25,
  0x3E827DC0_3E82AE5B_3E82DEF4_3E830F8C_3E834022_3E8370B8_3E83A14C_3E83D1DF,
  0x3E840270_3E843300_3E84638F_3E84941D_3E84C4AA_3E84F535_3E8525BF_3E855647,
  0x3E8586CE_3E85B755_3E85E7D9_3E86185D_3E8648DF_3E867960_3E86A9DF_3E86DA5D,
  0x3E870ADA_3E873B56_3E876BD0_3E879C49_3E87CCC1_3E87FD38_3E882DAD_3E885E21,
  0x3E888E93_3E88BF04_3E88EF74_3E891FE3_3E895050_3E8980BC_3E89B126_3E89E190,
  0x3E8A11F7_3E8A425E_3E8A72C3_3E8AA327_3E8AD38A_3E8B03EB_3E8B344B_3E8B64AA,
  0x3E8B9507_3E8BC563_3E8BF5BD_3E8C2616_3E8C566E_3E8C86C5_3E8CB71A_3E8CE76D,
  0x3E8D17C0_3E8D4811_3E8D7861_3E8DA8AF_3E8DD8FC_3E8E0947_3E8E3992_3E8E69DB,
  0x3E8E9A22_3E8ECA68_3E8EFAAD_3E8F2AF0_3E8F5B32_3E8F8B73_3E8FBBB2_3E8FEBF0,
  0x3E901C2C_3E904C67_3E907CA1_3E90ACD9_3E90DD10_3E910D45_3E913D79_3E916DAC,
  0x3E919DDD_3E91CE0D_3E91FE3C_3E922E69_3E925E94_3E928EBF_3E92BEE7_3E92EF0F,
  0x3E931F35_3E934F59_3E937F7D_3E93AF9E_3E93DFBF_3E940FDD_3E943FFB_3E947017]

/-- Entries 768 to 1023 of the Sine Table (R240). -/
def sineChunk3 : List Nat := [
  0x3E94A031_3E94D04B_3E950062_3E953079_3E95608D_3E9590A1_3E95C0B3_3E95F0C3,
  0x3E9620D2_3E9650E0_3E9680EC_3E96B0F7_3E96E100_3E971108_3E97410E_3E977113,
  0x3E97A117_3E97D119_3E980119_3E983118_3E986116_3E989112_3E98C10D_3E98F106,
  0x3E9920FE_3E9950F4_3E9980E9_3E99B0DC_3E99E0CE_3E9A10BE_3E9A40AD_3E9A709A,
  0x3E9AA086_3E9AD070_3E9B0059_3E9B3041_3E9B6027_3E9B900B_3E9BBFEE_3E9BEFCF,
  0x3E9C1FAF_3E9C4F8D_3E9C7F6A_3E9CAF46_3E9CDF20_3E9D0EF8_3E9D3ECF_3E9D6EA4,
  0x3E9D9E78_3E9DCE4A_3E9DFE1B_3E9E2DEA_3E9E5DB8_3E9E8D84_3E9EBD4F_3E9EED18,
  0x3E9F1CDF_3E9F4CA5_3E9F7C6A_3E9FAC2D_3E9FDBEE_3EA00BAE_3EA03B6D_3EA06B29,
  0x3EA09AE5_3EA0CA9E_3EA0FA57_3EA12A0D_3EA159C2_3EA18976_3EA1B928_3EA1E8D8,
  0x3EA21887_3EA24834_3EA277E0_3EA2A78A_3EA2D733_3EA306DA_3EA3367F_3EA36623,
  0x3EA395C5_3EA3C566_3EA3F505_3EA424A3_3EA4543F_3EA483D9_3EA4B372_3EA4E309,
  0x3EA5129F_3EA54233_3EA571C5_3EA5A156_3EA5D0E5_3EA60073_3EA62FFF_3EA65F89,
  0x3EA68F12_3EA6BE99_3EA6EE1F_3EA71DA3_3EA74D25_3EA77CA6_3EA7AC25_3EA7DBA3,
  0x3EA80B1F_3EA83A99_3EA86A12_3EA89989_3EA8C8FE_3EA8F872_3EA927E5_3EA95755,
  0x3EA986C4_3EA9B631_3EA9E59D_3EAA1507_3EAA446F_3EAA73D6_3EAAA33B_3EAAD29F,
  0x3EAB0201_3EAB3161_3EAB60BF_3EAB901C_3EABBF77_3EABEED1_3EAC1E29_3EAC4D7F,
  0x3EAC7CD4_3EACAC27_3EACDB78_3EAD0AC7_3EAD3A15_3EAD6962_3EAD98AC_3EADC7F5,
  0x3EADF73C_3EAE2682_3EAE55C6_3EAE8508_3EAEB449_3EAEE387_3EAF12C5_3EAF4200,
  0x3EAF713A_3EAFA072_3EAFCFA8_3EAFFEDD_3EB02E10_3EB05D41_3EB08C71_3EB0BB9F,
  0x3EB0EACB_3EB119F5_3EB1491E_3EB17845_3EB1A76B_3EB1D68E_3EB205B0_3EB234D0,
  0x3EB263EF_3EB2930C_3EB2C227_3EB2F140_3EB32058_3EB34F6E_3EB37E82_3EB3AD94,
  0x3EB3DCA5_3EB40BB4_3EB43AC1_3EB469CD_3EB498D6_3EB4C7DE_3EB4F6E5_3EB525E9,
  0x3EB554EC_3EB583ED_3EB5B2EC_3EB5E1EA_3EB610E6_3EB63FE0_3EB66ED8_3EB69DCE,
  0x3EB6CCC3_3EB6FBB6_3EB72AA7_3EB75997_3EB78884_3EB7B770_3EB7E65B_3EB81543,
  0x3EB8442A_3EB8730E_3EB8A1F1_3EB8D0D3_3EB8FFB2_3EB92E90_3EB95D6C_3EB98C46,
  0x3EB9BB1E_3EB9E9F5_3EBA18CA_3EBA479D_3EBA766E_3EBAA53D_3EBAD40B_3EBB02D6,
  0x3EBB31A0_3EBB6069_3EBB8F2F_3EBBBDF4_3EBBECB6_3EBC1B77_3EBC4A36_3EBC78F4,
  0x3EBCA7AF_3EBCD669_3EBD0521_3EBD33D7_3EBD628B_3EBD913D_3EBDBFEE_3EBDEE9D,
  0x3EBE1D4A_3EBE4BF5_3EBE7A9E_3EBEA945_3EBED7EB_3EBF068F_3EBF3530_3EBF63D0,
  0x3EBF926F_3EBFC10B_3EBFEFA5_3EC01E3E_3EC04CD5_3EC07B6A_3EC0A9FD_3EC0D88E,
  0x3EC1071E_3EC135AB_3EC16437_3EC192C0_3EC1C148_3EC1EFCE_3EC21E53_3EC24CD5,
  0x3EC27B55_3EC2A9D4_3EC2D851_3EC306CB_3EC33544_3EC363BB_3EC39231_3EC3C0A4]

/-- Entries 1024 to 1279 of the Sine Table (R240). -/
def sineChunk4 : List Nat := [
  0x3EC3EF15_3EC41D85_3EC44BF2_3EC47A5E_3EC4A8C8_3EC4D730_3EC50596_3EC533FA,
  0x3EC5625C_3EC590BD_3EC5BF1B_3EC5ED77_3EC61BD2_3EC64A2B_3EC67882_3EC6A6D6,
  0x3EC6D529_3EC7037B_3EC731CA_3EC76017_3EC78E62_3EC7BCAC_3EC7EAF3_3EC81938,
  0x3EC8477C_3EC875BE_3EC8A3FD_3EC8D23B_3EC90077_3EC92EB1_3EC95CE9_3EC98B1F,
  0x3EC9B953_3EC9E785_3ECA15B5_3ECA43E4_3ECA7210_3ECAA03A_3ECACE63_3ECAFC89,
  0x3ECB2AAE_3ECB58D0_3ECB86F1_3ECBB50F_3ECBE32C_3ECC1147_3ECC3F60_3ECC6D76,
  0x3ECC9B8B_3ECCC99E_3ECCF7AF_3ECD25BE_3ECD53CA_3ECD81D5_3ECDAFDE_3ECDDDE5,
  0x3ECE0BEA_3ECE39ED_3ECE67EE_3ECE95ED_3ECEC3EA_3ECEF1E5_3ECF1FDE_3ECF4DD5,
  0x3ECF7BCA_3ECFA9BD_3ECFD7AE_3ED0059D_3ED0338A_3ED06175_3ED08F5E_3ED0BD45,
  0x3ED0EB2A_3ED1190D_3ED146EE_3ED174CD_3ED1A2AA_3ED1D085_3ED1FE5E_3ED22C34,
  0x3ED25A09_3ED287DC_3ED2B5AD_3ED2E37C_3ED31148_3ED33F13_3ED36CDB_3ED39AA2,
  0x3ED3C867_3ED3F629_3ED423EA_3ED451A8_3ED47F64_3ED4AD1F_3ED4DAD7_3ED5088D,
  0x3ED53641_3ED563F3_3ED591A4_3ED5BF52_3ED5ECFD_3ED61AA7_3ED6484F_3ED675F5,
  0x3ED6A399_3ED6D13A_3ED6FEDA_3ED72C77_3ED75A13_3ED787AC_3ED7B543_3ED7E2D8,
  0x3ED8106B_3ED83DFC_3ED86B8B_3ED89918_3ED8C6A3_3ED8F42C_3ED921B2_3ED94F37,
  0x3ED97CB9_3ED9AA39_3ED9D7B7_3EDA0533_3EDA32AD_3EDA6025_3EDA8D9B_3EDABB0F,
  0x3EDAE880_3EDB15F0_3EDB435D_3EDB70C8_3EDB9E31_3EDBCB98_3EDBF8FD_3EDC2660,
  0x3EDC53C1_3EDC811F_3EDCAE7C_3EDCDBD6_3EDD092E_3EDD3684_3EDD63D8_3EDD912A,
  0x3EDDBE79_3EDDEBC7_3EDE1912_3EDE465B_3EDE73A2_3EDEA0E7_3EDECE2A_3EDEFB6A,
  0x3EDF28A9_3EDF55E5_3EDF831F_3EDFB057_3EDFDD8D_3EE00AC1_3EE037F2_3EE06522,
  0x3EE0924F_3EE0BF7A_3EE0ECA3_3EE119C9_3EE146EE_3EE17410_3EE1A130_3EE1CE4E,
  0x3EE1FB6A_3EE22884_3EE2559B_3EE282B1_3EE2AFC4_3EE2DCD5_3EE309E3_3EE336F0,
  0x3EE363FA_3EE39102_3EE3BE08_3EE3EB0C_3EE4180E_3EE4450D_3EE4720A_3EE49F05,
  0x3EE4CBFE_3EE4F8F5_3EE525E9_3EE552DB_3EE57FCB_3EE5ACB9_3EE5D9A4_3EE6068E,
  0x3EE63375_3EE6605A_3EE68D3C_3EE6BA1D_3EE6E6FB_3EE713D7_3EE740B1_3EE76D88,
  0x3EE79A5D_3EE7C731_3EE7F401_3EE820D0_3EE84D9C_3EE87A66_3EE8A72E_3EE8D3F4,
  0x3EE900B7_3EE92D78_3EE95A37_3EE986F4_3EE9B3AE_3EE9E066_3EEA0D1C_3EEA39D0,
  0x3EEA6681_3EEA9330_3EEABFDD_3EEAEC88_3EEB1930_3EEB45D6_3EEB727A_3EEB9F1C,
  0x3EEBCBBB_3EEBF858_3EEC24F3_3EEC518B_3EEC7E21_3EECAAB5_3EECD747_3EED03D6,
  0x3EED3063_3EED5CEE_3EED8976_3EEDB5FC_3EEDE280_3EEE0F02_3EEE3B81_3EEE67FE,
  0x3EEE9479_3EEEC0F1_3EEEED67_3EEF19DB_3EEF464C_3EEF72BC_3EEF9F28_3EEFCB93,
  0x3EEFF7FB_3EF02461_3EF050C5_3EF07D26_3EF0A985_3EF0D5E2_3EF1023C_3EF12E94]

/-- Entries 1280 to 1535 of the Sine Table (R240). -/
def sineChunk5 : List Nat := [
  0x3EF15AEA_3EF1873D_3EF1B38E_3EF1DFDD_3EF20C29_3EF23873_3EF264BB_3EF29100,
  0x3EF2BD43_3EF2E984_3EF315C2_3EF341FE_3EF36E38_3EF39A6F_3EF3C6A4_3EF3F2D7,
  0x3EF41F07_3EF44B35_3EF47761_3EF4A38A_3EF4CFB1_3EF4FBD5_3EF527F8_3EF55417,
  0x3EF58035_3EF5AC50_3EF5D868_3EF6047F_3EF63093_3EF65CA4_3EF688B3_3EF6B4C0,
  0x3EF6E0CB_3EF70CD3_3EF738D8_3EF764DC_3EF790DC_3EF7BCDB_3EF7E8D7_3EF814D1,
  0x3EF840C8_3EF86CBD_3EF898B0_3EF8C4A0_3EF8F08E_3EF91C79_3EF94862_3EF97449,
  0x3EF9A02D_3EF9CC0E_3EF9F7EE_3EFA23CB_3EFA4FA5_3EFA7B7D_3EFAA753_3EFAD326,
  0x3EFAFEF7_3EFB2AC6_3EFB5692_3EFB825B_3EFBAE22_3EFBD9E7_3EFC05AA_3EFC3169,
  0x3EFC5D27_3EFC88E2_3EFCB49B_3EFCE051_3EFD0C04_3EFD37B6_3EFD6365_3EFD8F11,
  0x3EFDBABB_3EFDE662_3EFE1207_3EFE3DAA_3EFE694A_3EFE94E8_3EFEC083_3EFEEC1C,
  0x3EFF17B2_3EFF4346_3EFF6ED8_3EFF9A67_3EFFC5F3_3EFFF17D_3F000E82_3F002445,
  0x3F003A06_3F004FC6_3F006585_3F007B43_3F0090FF_3F00A6BA_3F00BC74_3F00D22D,
  0x3F00E7E4_3F00FD9A_3F01134F_3F012903_3F013EB5_3F015467_3F016A17_3F017FC5,
  0x3F019573_3F01AB1F_3F01C0CA_3F01D674_3F01EC1C_3F0201C3_3F021769_3F022D0E,
  0x3F0242B1_3F025853_3F026DF4_3F028394_3F029932_3F02AED0_3F02C46B_3F02DA06,
  0x3F02EF9F_3F030537_3F031ACE_3F033064_3F0345F8_3F035B8B_3F03711D_3F0386AE,
  0x3F039C3D_3F03B1CB_3F03C757_3F03DCE3_3F03F26D_3F0407F6_3F041D7E_3F043304,
  0x3F044889_3F045E0D_3F04738F_3F048911_3F049E91_3F04B40F_3F04C98D_3F04DF09,
  0x3F04F484_3F0509FD_3F051F75_3F0534EC_3F054A62_3F055FD7_3F05754A_3F058ABC,
  0x3F05A02C_3F05B59C_3F05CB0A_3F05E076_3F05F5E2_3F060B4C_3F0620B5_3F06361C,
  0x3F064B82_3F0660E7_3F06764B_3F068BAD_3F06A10E_3F06B66E_3F06CBCD_3F06E12A,
  0x3F06F686_3F070BE0_3F07213A_3F073692_3F074BE8_3F07613E_3F077692_3F078BE4,
  0x3F07A136_3F07B686_3F07CBD5_3F07E122_3F07F66F_3F080BB9_3F082103_3F08364B,
  0x3F084B92_3F0860D8_3F08761C_3F088B5F_3F08A0A1_3F08B5E1_3F08CB20_3F08E05E,
  0x3F08F59B_3F090AD6_3F092010_3F093548_3F094A7F_3F095FB5_3F0974E9_3F098A1D,
  0x3F099F4E_3F09B47F_3F09C9AE_3F09DEDC_3F09F409_3F0A0934_3F0A1E5E_3F0A3386,
  0x3F0A48AD_3F0A5DD3_3F0A72F8_3F0A881B_3F0A9D3D_3F0AB25E_3F0AC77D_3F0ADC9B,
  0x3F0AF1B7_3F0B06D2_3F0B1BEC_3F0B3105_3F0B461C_3F0B5B32_3F0B7046_3F0B8559,
  0x3F0B9A6B_3F0BAF7C_3F0BC48B_3F0BD998_3F0BEEA5_3F0C03B0_3F0C18BA_3F0C2DC2,
  0x3F0C42C9_3F0C57CF_3F0C6CD3_3F0C81D6_3F0C96D7_3F0CABD8_3F0CC0D7_3F0CD5D4,
  0x3F0CEAD0_3F0CFFCB_3F0D14C5_3F0D29BD_3F0D3EB3_3F0D53A9_3F0D689D_3F0D7D8F,
  0x3F0D9281_3F0DA771_3F0DBC5F_3F0DD14C_3F0DE638_3F0DFB23_3F0E100C_3F0E24F3]

/-- Entries 1536 to 1791 of the Sine Table (R240). -/
def sineChunk6 : List Nat := [
  0x3F0E39DA_3F0E4EBF_3F0E63A2_3F0E7885_3F0E8D65_3F0EA245_3F0EB723_3F0ECC00,
  0x3F0EE0DB_3F0EF5B5_3F0F0A8E_3F0F1F65_3F0F343B_3F0F490F_3F0F5DE2_3F0F72B4,
  0x3F0F8784_3F0F9C53_3F0FB121_3F0FC5ED_3F0FDAB8_3F0FEF81_3F100449_3F101910,
  0x3F102DD5_3F104299_3F10575B_3F106C1C_3F1080DC_3F10959A_3F10AA57_3F10BF13,
  0x3F10D3CD_3F10E885_3F10FD3D_3F1111F3_3F1126A7_3F113B5A_3F11500C_3F1164BC,
  0x3F11796B_3F118E19_3F11A2C5_3F11B76F_3F11CC19_3F11E0C1_3F11F567_3F120A0C,
  0x3F121EB0_3F123352_3F1247F3_3F125C92_3F127130_3F1285CD_3F129A68_3F12AF02,
  0x3F12C39A_3F12D831_3F12ECC7_3F13015B_3F1315EE_3F132A7F_3F133F0F_3F13539D,
  0x3F13682A_3F137CB6_3F139140_3F13A5C9_3F13BA50_3F13CED6_3F13E35B_3F13F7DE,
  0x3F140C5F_3F1420E0_3F14355E_3F1449DC_3F145E58_3F1472D2_3F14874B_3F149BC3,
  0x3F14B039_3F14C4AE_3F14D921_3F14ED93_3F150204_3F151673_3F152AE0_3F153F4D,
  0x3F1553B7_3F156821_3F157C88_3F1590EF_3F15A554_3F15B9B7_3F15CE19_3F15E27A,
  0x3F15F6D9_3F160B37_3F161F93_3F1633EE_3F164847_3F165C9F_3F1670F6_3F16854B,
  0x3F16999F_3F16ADF1_3F16C241_3F16D691_3F16EADE_3F16FF2B_3F171376_3F1727BF,
  0x3F173C07_3F17504E_3F176493_3F1778D6_3F178D18_3F17A159_3F17B598_3F17C9D6,
  0x3F17DE12_3F17F24D_3F180687_3F181ABE_3F182EF5_3F18432A_3F18575D_3F186B8F,
  0x3F187FC0_3F1893EF_3F18A81D_3F18BC49_3F18D073_3F18E49D_3F18F8C4_3F190CEB,
  0x3F19210F_3F193533_3F194955_3F195D75_3F197194_3F1985B1_3F1999CD_3F19ADE7,
  0x3F19C200_3F19D618_3F19EA2E_3F19FE42_3F1A1255_3F1A2667_3F1A3A77_3F1A4E86,
  0x3F1A6293_3F1A769E_3F1A8AA8_3F1A9EB1_3F1AB2B8_3F1AC6BE_3F1ADAC2_3F1AEEC4,
  0x3F1B02C6_3F1B16C5_3F1B2AC3_3F1B3EC0_3F1B52BB_3F1B66B5_3F1B7AAD_3F1B8EA4,
  0x3F1BA299_3F1BB68D_3F1BCA7F_3F1BDE6F_3F1BF25F_3F1C064C_3F1C1A38_3F1C2E23,
  0x3F1C420C_3F1C55F4_3F1C69DA_3F1C7DBF_3F1C91A2_3F1CA583_3F1CB963_3F1CCD42,
  0x3F1CE11F_3F1CF4FB_3F1D08D5_3F1D1CAD_3F1D3084_3F1D445A_3F1D582E_3F1D6C00,
  0x3F1D7FD1_3F1D93A1_3F1DA76F_3F1DBB3B_3F1DCF06_3F1DE2CF_3F1DF697_3F1E0A5D,
  0x3F1E1E22_3F1E31E6_3F1E45A7_3F1E5968_3F1E6D26_3F1E80E3_3F1E949F_3F1EA859,
  0x3F1EBC12_3F1ECFC9_3F1EE37E_3F1EF732_3F1F0AE5_3F1F1E96_3F1F3245_3F1F45F3,
  0x3F1F599F_3F1F6D4A_3F1F80F3_3F1F949B_3F1FA841_3F1FBBE6_3F1FCF89_3F1FE32B,
  0x3F1FF6CB_3F200A69_3F201E06_3F2031A1_3F20453B_3F2058D4_3F206C6A_3F208000,
  0x3F209393_3F20A725_3F20BAB6_3F20CE45_3F20E1D2_3F20F55E_3F2108E9_3F211C71,
  0x3F212FF9_3F21437E_3F215703_3F216A85_3F217E06_3F219186_3F21A504_3F21B880,
  0x3F21CBFB_3F21DF74_3F21F2EC_3F220662_3F2219D7_3F222D4A_3F2240BB_3F22542B]

/-- Entries 1792 to 2047 of the Sine Table (R240). -/
def sineChunk7 : List Nat := [
  0x3F226799_3F227B06_3F228E71_3F22A1DB_3F22B543_3F22C8A9_3F22DC0E_3F22EF72,
  0x3F2302D3_3F231633_3F232992_3F233CEF_3F23504B_3F2363A5_3F2376FD_3F238A54,
  0x3F239DA9_3F23B0FC_3F23C44F_3F23D79F_3F23EAEE_3F23FE3B_3F241187_3F2424D1,
  0x3F24381A_3F244B60_3F245EA6_3F2471EA_3F24852C_3F24986D_3F24ABAC_3F24BEE9,
  0x3F24D225_3F24E55F_3F24F898_3F250BCF_3F251F04_3F253238_3F25456B_3F25589B,
  0x3F256BCB_3F257EF8_3F259224_3F25A54E_3F25B877_3F25CB9E_3F25DEC4_3F25F1E8,
  0x3F26050A_3F26182B_3F262B4A_3F263E68_3F265184_3F26649E_3F2677B7_3F268ACE,
  0x3F269DE3_3F26B0F7_3F26C40A_3F26D71A_3F26EA2A_3F26FD37_3F271043_3F27234D,
  0x3F273656_3F27495D_3F275C62_3F276F66_3F278268_3F279569_3F27A868_3F27BB65,
  0x3F27CE61_3F27E15B_3F27F454_3F28074B_3F281A40_3F282D34_3F284026_3F285316,
  0x3F286605_3F2878F2_3F288BDE_3F289EC8_3F28B1B0_3F28C497_3F28D77C_3F28EA5F,
  0x3F28FD41_3F291021_3F292300_3F2935DD_3F2948B8_3F295B91_3F296E69_3F298140,
  0x3F299415_3F29A6E8_3F29B9B9_3F29CC89_3F29DF57_3F29F224_3F2A04EF_3F2A17B8,
  0x3F2A2A80_3F2A3D46_3F2A500A_3F2A62CD_3F2A758E_3F2A884D_3F2A9B0B_3F2AADC7,
  0x3F2AC082_3F2AD33B_3F2AE5F2_3F2AF8A7_3F2B0B5B_3F2B1E0E_3F2B30BE_3F2B436D,
  0x3F2B561B_3F2B68C6_3F2B7B70_3F2B8E19_3F2BA0BF_3F2BB364_3F2BC608_3F2BD8AA,
  0x3F2BEB4A_3F2BFDE8_3F2C1085_3F2C2320_3F2C35B9_3F2C4851_3F2C5AE7_3F2C6D7C,
  0x3F2C800F_3F2C92A0_3F2CA52F_3F2CB7BD_3F2CCA49_3F2CDCD4_3F2CEF5D_3F2D01E4,
  0x3F2D1469_3F2D26ED_3F2D396F_3F2D4BF0_3F2D5E6F_3F2D70EC_3F2D8367_3F2D95E1,
  0x3F2DA859_3F2DBAD0_3F2DCD44_3F2DDFB8_3F2DF229_3F2E0499_3F2E1707_3F2E2973,
  0x3F2E3BDE_3F2E4E47_3F2E60AE_3F2E7314_3F2E8578_3F2E97DA_3F2EAA3B_3F2EBC9A,
  0x3F2ECEF7_3F2EE153_3F2EF3AD_3F2F0605_3F2F185B_3F2F2AB0_3F2F3D03_3F2F4F55,
  0x3F2F61A5_3F2F73F3_3F2F863F_3F2F988A_3F2FAAD3_3F2FBD1A_3F2FCF60_3F2FE1A4,
  0x3F2FF3E6_3F300626_3F301865_3F302AA2_3F303CDE_3F304F18_3F306150_3F307386,
  0x3F3085BB_3F3097EE_3F30AA1F_3F30BC4E_3F30CE7C_3F30E0A8_3F30F2D3_3F3104FB,
  0x3F311722_3F312948_3F313B6B_3F314D8D_3F315FAD_3F3171CC_3F3183E9_3F319604,
  0x3F31A81D_3F31BA35_3F31CC4B_3F31DE5F_3F31F071_3F320282_3F321491_3F32269E,
  0x3F3238AA_3F324AB4_3F325CBC_3F326EC3_3F3280C7_3F3292CA_3F32A4CC_3F32B6CB,
  0x3F32C8C9_3F32DAC5_3F32ECC0_3F32FEB8_3F3310AF_3F3322A5_3F333498_3F33468A,
  0x3F33587A_3F336A68_3F337C55_3F338E40_3F33A029_3F33B210_3F33C3F6_3F33D5DA,
  0x3F33E7BC_3F33F99D_3F340B7B_3F341D58_3F342F34_3F34410D_3F3452E5_3F3464BB,
  0x3F34768F_3F348862_3F349A33_3F34AC02_3F34BDCF_3F34CF9B_3F34E165_3F34F32D]

/-- Entries 2048 to 2303 of the Sine Table (R241). -/
def sineChunk8 : List Nat := [
  0x3F3504F3_3F3516B8_3F35287B_3F353A3C_3F354BFB_3F355DB9_3F356F75_3F35812F,
  0x3F3592E7_3F35A49E_3F35B653_3F35C806_3F35D9B8_3F35EB67_3F35FD15_3F360EC1,
  0x3F36206C_3F363214_3F3643BB_3F365560_3F366704_3F3678A5_3F368A45_3F369BE3,
  0x3F36AD7F_3F36BF1A_3F36D0B3_3F36E24A_3F36F3DF_3F370573_3F371704_3F372894,
  0x3F373A23_3F374BAF_3F375D3A_3F376EC3_3F37804A_3F3791CF_3F37A353_3F37B4D5,
  0x3F37C655_3F37D7D3_3F37E950_3F37FACA_3F380C43_3F381DBB_3F382F30_3F3840A4,
  0x3F385216_3F386386_3F3874F4_3F388661_3F3897CB_3F38A934_3F38BA9C_3F38CC01,
  0x3F38DD65_3F38EEC7_3F390027_3F391185_3F3922E1_3F39343C_3F394595_3F3956EC,
  0x3F396842_3F397995_3F398AE7_3F399C37_3F39AD85_3F39BED2_3F39D01D_3F39E165,
  0x3F39F2AC_3F3A03F2_3F3A1535_3F3A2677_3F3A37B7_3F3A48F5_3F3A5A31_3F3A6B6C,
  0x3F3A7CA4_3F3A8DDB_3F3A9F10_3F3AB044_3F3AC175_3F3AD2A5_3F3AE3D3_3F3AF4FF,
  0x3F3B0629_3F3B1752_3F3B2879_3F3B399E_3F3B4AC1_3F3B5BE2_3F3B6D01_3F3B7E1F,
  0x3F3B8F3B_3F3BA055_3F3BB16D_3F3BC284_3F3BD398_3F3BE4AB_3F3BF5BC_3F3C06CB,
  0x3F3C17D9_3F3C28E4_3F3C39EE_3F3C4AF6_3F3C5BFC_3F3C6D01_3F3C7E03_3F3C8F04,
  0x3F3CA003_3F3CB100_3F3CC1FB_3F3CD2F4_3F3CE3EC_3F3CF4E2_3F3D05D6_3F3D16C8,
  0x3F3D27B8_3F3D38A7_3F3D4993_3F3D5A7E_3F3D6B67_3F3D7C4E_3F3D8D34_3F3D9E17,
  0x3F3DAEF9_3F3DBFD9_3F3DD0B7_3F3DE193_3F3DF26E_3F3E0346_3F3E141D_3F3E24F2,
  0x3F3E35C5_3F3E4696_3F3E5766_3F3E6833_3F3E78FF_3F3E89C9_3F3E9A91_3F3EAB57,
  0x3F3EBC1B_3F3ECCDE_3F3EDD9F_3F3EEE5E_3F3EFF1B_3F3F0FD6_3F3F208F_3F3F3147,
  0x3F3F41FC_3F3F52B0_3F3F6362_3F3F7412_3F3F84C0_3F3F956D_3F3FA617_3F3FB6C0,
  0x3F3FC767_3F3FD80C_3F3FE8AF_3F3FF951_3F4009F0_3F401A8E_3F402B2A_3F403BC4,
  0x3F404C5C_3F405CF2_3F406D86_3F407E19_3F408EA9_3F409F38_3F40AFC5_3F40C050,
  0x3F40D0DA_3F40E161_3F40F1E7_3F41026A_3F4112EC_3F41236C_3F4133EA_3F414466,
  0x3F4154E1_3F416559_3F4175D0_3F418645_3F4196B7_3F41A728_3F41B798_3F41C805,
  0x3F41D870_3F41E8DA_3F41F942_3F4209A7_3F421A0B_3F422A6E_3F423ACE_3F424B2C,
  0x3F425B89_3F426BE3_3F427C3C_3F428C93_3F429CE8_3F42AD3B_3F42BD8C_3F42CDDB,
  0x3F42DE29_3F42EE74_3F42FEBE_3F430F06_3F431F4C_3F432F90_3F433FD2_3F435012,
  0x3F436051_3F43708D_3F4380C8_3F439101_3F43A138_3F43B16D_3F43C1A0_3F43D1D1,
  0x3F43E200_3F43F22E_3F44025A_3F441283_3F4422AB_3F4432D1_3F4442F5_3F445317,
  0x3F446337_3F447356_3F448372_3F44938D_3F44A3A5_3F44B3BC_3F44C3D1_3F44D3E4,
  0x3F44E3F5_3F44F404_3F450411_3F45141D_3F452426_3F45342E_3F454433_3F455437,
  0x3F456439_3F457439_3F458437_3F459433_3F45A42D_3F45B426_3F45C41C_3F45D411]

/-- Entries 2304 to 2559 of the Sine Table (R241). -/
def sineChunk9 : List Nat := [
  0x3F45E403_3F45F3F4_3F4603E3_3F4613D0_3F4623BB_3F4633A4_3F46438B_3F465370,
  0x3F466354_3F467335_3F468315_3F4692F2_3F46A2CE_3F46B2A8_3F46C280_3F46D256,
  0x3F46E22A_3F46F1FC_3F4701CC_3F47119A_3F472167_3F473131_3F4740FA_3F4750C0,
  0x3F476085_3F477048_3F478008_3F478FC7_3F479F84_3F47AF3F_3F47BEF9_3F47CEB0,
  0x3F47DE65_3F47EE18_3F47FDCA_3F480D79_3F481D27_3F482CD3_3F483C7C_3F484C24,
  0x3F485BCA_3F486B6E_3F487B10_3F488AB0_3F489A4E_3F48A9EA_3F48B985_3F48C91D,
  0x3F48D8B3_3F48E848_3F48F7DA_3F49076B_3F4916FA_3F492686_3F493611_3F49459A,
  0x3F495521_3F4964A6_3F497429_3F4983AA_3F499329_3F49A2A6_3F49B222_3F49C19B,
  0x3F49D112_3F49E088_3F49EFFB_3F49FF6D_3F4A0EDC_3F4A1E4A_3F4A2DB6_3F4A3D1F,
  0x3F4A4C87_3F4A5BED_3F4A6B51_3F4A7AB3_3F4A8A13_3F4A9971_3F4AA8CD_3F4AB827,
  0x3F4AC77F_3F4AD6D5_3F4AE62A_3F4AF57C_3F4B04CC_3F4B141B_3F4B2367_3F4B32B2,
  0x3F4B41FA_3F4B5141_3F4B6085_3F4B6FC8_3F4B7F09_3F4B8E47_3F4B9D84_3F4BACBF,
  0x3F4BBBF8_3F4BCB2F_3F4BDA63_3F4BE996_3F4BF8C7_3F4C07F6_3F4C1723_3F4C264E,
  0x3F4C3578_3F4C449F_3F4C53C4_3F4C62E7_3F4C7208_3F4C8128_3F4C9045_3F4C9F60,
  0x3F4CAE79_3F4CBD91_3F4CCCA6_3F4CDBBA_3F4CEACB_3F4CF9DB_3F4D08E8_3F4D17F4,
  0x3F4D26FD_3F4D3605_3F4D450A_3F4D540E_3F4D6310_3F4D720F_3F4D810D_3F4D9009,
  0x3F4D9F02_3F4DADFA_3F4DBCF0_3F4DCBE3_3F4DDAD5_3F4DE9C5_3F4DF8B3_3F4E079F,
  0x3F4E1689_3F4E2570_3F4E3456_3F4E433A_3F4E521C_3F4E60FC_3F4E6FDA_3F4E7EB6,
  0x3F4E8D90_3F4E9C68_3F4EAB3E_3F4EBA12_3F4EC8E4_3F4ED7B3_3F4EE681_3F4EF54D,
  0x3F4F0417_3F4F12DF_3F4F21A5_3F4F3069_3F4F3F2B_3F4F4DEB_3F4F5CA9_3F4F6B65,
  0x3F4F7A1F_3F4F88D7_3F4F978D_3F4FA642_3F4FB4F4_3F4FC3A4_3F4FD252_3F4FE0FE,
  0x3F4FEFA8_3F4FFE50_3F500CF6_3F501B9A_3F502A3B_3F5038DB_3F504779_3F505615,
  0x3F5064AF_3F507347_3F5081DD_3F509071_3F509F03_3F50AD93_3F50BC21_3F50CAAD,
  0x3F50D937_3F50E7BE_3F50F644_3F5104C8_3F51134A_3F5121CA_3F513047_3F513EC3,
  0x3F514D3D_3F515BB5_3F516A2A_3F51789E_3F518710_3F51957F_3F51A3ED_3F51B259,
  0x3F51C0C2_3F51CF2A_3F51DD8F_3F51EBF3_3F51FA54_3F5208B4_3F521711_3F52256D,
  0x3F5233C6_3F52421E_3F525073_3F525EC6_3F526D18_3F527B67_3F5289B4_3F5297FF,
  0x3F52A649_3F52B490_3F52C2D5_3F52D118_3F52DF59_3F52ED98_3F52FBD5_3F530A10,
  0x3F531849_3F532680_3F5334B5_3F5342E7_3F535118_3F535F47_3F536D74_3F537B9E,
  0x3F5389C7_3F5397EE_3F53A612_3F53B435_3F53C255_3F53D074_3F53DE90_3F53ECAA,
  0x3F53FAC3_3F5408D9_3F5416ED_3F5424FF_3F54330F_3F54411D_3F544F2A_3F545D33,
  0x3F546B3B_3F547941_3F548745_3F549547_3F54A347_3F54B144_3F54BF40_3F54CD3A]

/-- Entries 2560 to 2815 of the Sine Table (R241). -/
def sineChunk10 : List Nat := [
  0x3F54DB31_3F54E927_3F54F71A_3F55050C_3F5512FB_3F5520E8_3F552ED4_3F553CBD,
  0x3F554AA4_3F555889_3F55666C_3F55744D_3F55822C_3F559009_3F559DE3_3F55ABBC,
  0x3F55B993_3F55C767_3F55D53A_3F55E30A_3F55F0D9_3F55FEA5_3F560C70_3F561A38,
  0x3F5627FE_3F5635C2_3F564384_3F565144_3F565F02_3F566CBE_3F567A78_3F56882F,
  0x3F5695E5_3F56A399_3F56B14A_3F56BEF9_3F56CCA7_3F56DA52_3F56E7FB_3F56F5A3,
  0x3F570348_3F5710EB_3F571E8C_3F572C2A_3F5739C7_3F574762_3F5754FB_3F576291,
  0x3F577026_3F577DB8_3F578B48_3F5798D7_3F57A663_3F57B3ED_3F57C175_3F57CEFB,
  0x3F57DC7F_3F57EA01_3F57F780_3F5804FE_3F581279_3F581FF3_3F582D6A_3F583AE0,
  0x3F584853_3F5855C4_3F586333_3F5870A0_3F587E0B_3F588B74_3F5898DA_3F58A63F,
  0x3F58B3A1_3F58C102_3F58CE60_3F58DBBC_3F58E916_3F58F66F_3F5903C5_3F591118,
  0x3F591E6A_3F592BBA_3F593908_3F594653_3F59539C_3F5960E4_3F596E29_3F597B6C,
  0x3F5988AD_3F5995EC_3F59A329_3F59B064_3F59BD9C_3F59CAD3_3F59D807_3F59E53A,
  0x3F59F26A_3F59FF98_3F5A0CC4_3F5A19EE_3F5A2716_3F5A343C_3F5A415F_3F5A4E81,
  0x3F5A5BA0_3F5A68BE_3F5A75D9_3F5A82F2_3F5A9009_3F5A9D1E_3F5AAA31_3F5AB741,
  0x3F5AC450_3F5AD15C_3F5ADE67_3F5AEB6F_3F5AF875_3F5B0579_3F5B127B_3F5B1F7B,
  0x3F5B2C79_3F5B3974_3F5B466E_3F5B5365_3F5B605A_3F5B6D4D_3F5B7A3E_3F5B872D,
  0x3F5B941A_3F5BA105_3F5BADED_3F5BBAD4_3F5BC7B8_3F5BD49A_3F5BE17A_3F5BEE58,
  0x3F5BFB34_3F5C080E_3F5C14E6_3F5C21BB_3F5C2E8E_3F5C3B60_3F5C482F_3F5C54FC,
  0x3F5C61C7_3F5C6E8F_3F5C7B56_3F5C881A_3F5C94DD_3F5CA19D_3F5CAE5B_3F5CBB17,
  0x3F5CC7D1_3F5CD489_3F5CE13E_3F5CEDF2_3F5CFAA3_3F5D0752_3F5D13FF_3F5D20AA,
  0x3F5D2D53_3F5D39FA_3F5D469E_3F5D5341_3F5D5FE1_3F5D6C7F_3F5D791B_3F5D85B5,
  0x3F5D924D_3F5D9EE3_3F5DAB76_3F5DB807_3F5DC497_3F5DD124_3F5DDDAF_3F5DEA37,
  0x3F5DF6BE_3F5E0343_3F5E0FC5_3F5E1C45_3F5E28C3_3F5E353F_3F5E41B9_3F5E4E31,
  0x3F5E5AA6_3F5E671A_3F5E738B_3F5E7FFA_3F5E8C67_3F5E98D2_3F5EA53A_3F5EB1A1,
  0x3F5EBE05_3F5ECA68_3F5ED6C8_3F5EE326_3F5EEF81_3F5EFBDB_3F5F0833_3F5F1488,
  0x3F5F20DB_3F5F2D2C_3F5F397B_3F5F45C8_3F5F5212_3F5F5E5B_3F5F6AA1_3F5F76E5,
  0x3F5F8327_3F5F8F67_3F5F9BA5_3F5FA7E0_3F5FB419_3F5FC051_3F5FCC86_3F5FD8B8,
  0x3F5FE4E9_3F5FF118_3F5FFD44_3F60096E_3F601596_3F6021BC_3F602DE0_3F603A02,
  0x3F604621_3F60523E_3F605E5A_3F606A73_3F607689_3F60829E_3F608EB0_3F609AC1,
  0x3F60A6CF_3F60B2DB_3F60BEE5_3F60CAEC_3F60D6F2_3F60E2F5_3F60EEF6_3F60FAF5,
  0x3F6106F2_3F6112ED_3F611EE5_3F612ADB_3F6136D0_3F6142C1_3F614EB1_3F615A9F,
  0x3F61668A_3F617274_3F617E5B_3F618A40_3F619622_3F61A203_3F61ADE1_3F61B9BE]

/-- Entries 2816 to 3071 of the Sine Table (R241). -/
def sineChunk11 : List Nat := [
  0x3F61C598_3F61D16F_3F61DD45_3F61E919_3F61F4EA_3F6200B9_3F620C86_3F621851,
  0x3F62241A_3F622FE0_3F623BA4_3F624766_3F625326_3F625EE4_3F626AA0_3F627659,
  0x3F628210_3F628DC5_3F629978_3F62A528_3F62B0D7_3F62BC83_3F62C82D_3F62D3D5,
  0x3F62DF7B_3F62EB1E_3F62F6C0_3F63025F_3F630DFC_3F631996_3F63252F_3F6330C5,
  0x3F633C5A_3F6347EC_3F63537B_3F635F09_3F636A95_3F63761E_3F6381A5_3F638D2A,
  0x3F6398AC_3F63A42D_3F63AFAB_3F63BB27_3F63C6A1_3F63D219_3F63DD8E_3F63E901,
  0x3F63F473_3F63FFE1_3F640B4E_3F6416B9_3F642221_3F642D87_3F6438EB_3F64444D,
  0x3F644FAC_3F645B0A_3F646665_3F6471BE_3F647D14_3F648869_3F6493BB_3F649F0B,
  0x3F64AA59_3F64B5A5_3F64C0EE_3F64CC35_3F64D77B_3F64E2BD_3F64EDFE_3F64F93D,
  0x3F650479_3F650FB3_3F651AEB_3F652620_3F653154_3F653C85_3F6547B4_3F6552E1,
  0x3F655E0B_3F656934_3F65745A_3F657F7E_3F658AA0_3F6595BF_3F65A0DC_3F65ABF7,
  0x3F65B710_3F65C227_3F65CD3B_3F65D84E_3F65E35E_3F65EE6C_3F65F977_3F660480,
  0x3F660F88_3F661A8D_3F66258F_3F663090_3F663B8E_3F66468A_3F665184_3F665C7C,
  0x3F666771_3F667264_3F667D55_3F668844_3F669330_3F669E1B_3F66A903_3F66B3E9,
  0x3F66BECC_3F66C9AE_3F66D48D_3F66DF6A_3F66EA45_3F66F51D_3F66FFF3_3F670AC7,
  0x3F671599_3F672069_3F672B36_3F673601_3F6740CA_3F674B91_3F675655_3F676118,
  0x3F676BD8_3F677695_3F678151_3F678C0A_3F6796C1_3F67A176_3F67AC29_3F67B6D9,
  0x3F67C187_3F67CC33_3F67D6DD_3F67E184_3F67EC29_3F67F6CC_3F68016D_3F680C0C,
  0x3F6816A8_3F682142_3F682BDA_3F68366F_3F684103_3F684B94_3F685623_3F6860AF,
  0x3F686B39_3F6875C2_3F688047_3F688ACB_3F68954C_3F689FCC_3F68AA49_3F68B4C3,
  0x3F68BF3C_3F68C9B2_3F68D426_3F68DE97_3F68E907_3F68F374_3F68FDDF_3F690848,
  0x3F6912AE_3F691D12_3F692774_3F6931D4_3F693C32_3F69468D_3F6950E6_3F695B3D,
  0x3F696591_3F696FE3_3F697A33_3F698481_3F698ECC_3F699916_3F69A35D_3F69ADA1,
  0x3F69B7E4_3F69C224_3F69CC62_3F69D69E_3F69E0D7_3F69EB0E_3F69F543_3F69FF76,
  0x3F6A09A7_3F6A13D5_3F6A1E01_3F6A282A_3F6A3252_3F6A3C77_3F6A469A_3F6A50BA,
  0x3F6A5AD9_3F6A64F5_3F6A6F0F_3F6A7926_3F6A833C_3F6A8D4F_3F6A9760_3F6AA16E,
  0x3F6AAB7B_3F6AB585_3F6ABF8C_3F6AC992_3F6AD395_3F6ADD96_3F6AE795_3F6AF191,
  0x3F6AFB8C_3F6B0584_3F6B0F79_3F6B196D_3F6B235E_3F6B2D4D_3F6B3739_3F6B4124,
  0x3F6B4B0C_3F6B54F1_3F6B5ED5_3F6B68B6_3F6B7295_3F6B7C72_3F6B864C_3F6B9025,
  0x3F6B99FB_3F6BA3CE_3F6BADA0_3F6BB76F_3F6BC13B_3F6BCB06_3F6BD4CE_3F6BDE94,
  0x3F6BE858_3F6BF21A_3F6BFBD9_3F6C0596_3F6C0F50_3F6C1909_3F6C22BF_3F6C2C73,
  0x3F6C3624_3F6C3FD3_3F6C4980_3F6C532B_3F6C5CD4_3F6C667A_3F6C701E_3F6C79BF]

/-- Entries 3072 to 3327 of the Sine Table (R241). -/
def sineChunk12 : List Nat := [
  0x3F6C835E_3F6C8CFC_3F6C9696_3F6CA02F_3F6CA9C5_3F6CB359_3F6CBCEA_3F6CC67A,
  0x3F6CD007_3F6CD992_3F6CE31A_3F6CECA0_3F6CF624_3F6CFFA6_3F6D0925_3F6D12A2,
  0x3F6D1C1D_3F6D2596_3F6D2F0C_3F6D3880_3F6D41F2_3F6D4B61_3F6D54CE_3F6D5E39,
  0x3F6D67A1_3F6D7108_3F6D7A6C_3F6D83CD_3F6D8D2D_3F6D968A_3F6D9FE4_3F6DA93D,
  0x3F6DB293_3F6DBBE7_3F6DC539_3F6DCE88_3F6DD7D5_3F6DE120_3F6DEA68_3F6DF3AE,
  0x3F6DFCF2_3F6E0634_3F6E0F73_3F6E18B0_3F6E21EB_3F6E2B23_3F6E3459_3F6E3D8D,
  0x3F6E46BE_3F6E4FEE_3F6E591A_3F6E6245_3F6E6B6D_3F6E7493_3F6E7DB7_3F6E86D8,
  0x3F6E8FF8_3F6E9914_3F6EA22F_3F6EAB47_3F6EB45D_3F6EBD71_3F6EC682_3F6ECF91,
  0x3F6ED89E_3F6EE1A8_3F6EEAB0_3F6EF3B6_3F6EFCBA_3F6F05BB_3F6F0EBA_3F6F17B6,
  0x3F6F20B0_3F6F29A8_3F6F329E_3F6F3B92_3F6F4483_3F6F4D71_3F6F565E_3F6F5F48,
  0x3F6F6830_3F6F7115_3F6F79F8_3F6F82D9_3F6F8BB8_3F6F9494_3F6F9D6E_3F6FA646,
  0x3F6FAF1B_3F6FB7EE_3F6FC0BF_3F6FC98E_3F6FD25A_3F6FDB24_3F6FE3EB_3F6FECB0,
  0x3F6FF573_3F6FFE34_3F7006F2_3F700FAE_3F701867_3F70211F_3F7029D4_3F703286,
  0x3F703B37_3F7043E5_3F704C91_3F70553A_3F705DE1_3F706686_3F706F28_3F7077C8,
  0x3F708066_3F708902_3F70919B_3F709A32_3F70A2C6_3F70AB59_3F70B3E9_3F70BC76,
  0x3F70C501_3F70CD8A_3F70D611_3F70DE95_3F70E717_3F70EF97_3F70F814_3F71008F,
  0x3F710908_3F71117F_3F7119F3_3F712264_3F712AD4_3F713341_3F713BAC_3F714414,
  0x3F714C7A_3F7154DE_3F715D3F_3F71659F_3F716DFB_3F717656_3F717EAE_3F718704,
  0x3F718F57_3F7197A8_3F719FF7_3F71A844_3F71B08E_3F71B8D6_3F71C11B_3F71C95F,
  0x3F71D19F_3F71D9DE_3F71E21A_3F71EA54_3F71F28C_3F71FAC1_3F7202F4_3F720B24,
  0x3F721352_3F721B7E_3F7223A8_3F722BCF_3F7233F4_3F723C16_3F724437_3F724C54,
  0x3F725470_3F725C89_3F7264A0_3F726CB5_3F7274C7_3F727CD7_3F7284E4_3F728CEF,
  0x3F7294F8_3F729CFF_3F72A503_3F72AD05_3F72B504_3F72BD01_3F72C4FC_3F72CCF5,
  0x3F72D4EB_3F72DCDE_3F72E4D0_3F72ECBF_3F72F4AC_3F72FC96_3F73047E_3F730C64,
  0x3F731447_3F731C28_3F732407_3F732BE4_3F7333BE_3F733B95_3F73436B_3F734B3E,
  0x3F73530E_3F735ADC_3F7362A8_3F736A72_3F737239_3F7379FE_3F7381C1_3F738981,
  0x3F73913F_3F7398FA_3F73A0B4_3F73A86A_3F73B01F_3F73B7D1_3F73BF81_3F73C72E,
  0x3F73CED9_3F73D682_3F73DE28_3F73E5CC_3F73ED6E_3F73F50D_3F73FCAA_3F740445,
  0x3F740BDD_3F741373_3F741B07_3F742298_3F742A27_3F7431B3_3F74393E_3F7440C5,
  0x3F74484B_3F744FCE_3F74574F_3F745ECD_3F746649_3F746DC3_3F74753A_3F747CAF,
  0x3F748422_3F748B92_3F749300_3F749A6B_3F74A1D5_3F74A93B_3F74B0A0_3F74B802,
  0x3F74BF62_3F74C6BF_3F74CE1A_3F74D573_3F74DCC9_3F74E41D_3F74EB6F_3F74F2BE]

/-- Entries 3328 to 3583 of the Sine Table (R241). -/
def sineChunk13 : List Nat := [
  0x3F74FA0B_3F750155_3F75089D_3F750FE3_3F751727_3F751E68_3F7525A6_3F752CE3,
  0x3F75341D_3F753B54_3F754289_3F7549BC_3F7550ED_3F75581B_3F755F47_3F756670,
  0x3F756D97_3F7574BC_3F757BDE_3F7582FE_3F758A1C_3F759137_3F759850_3F759F66,
  0x3F75A67B_3F75AD8C_3F75B49C_3F75BBA9_3F75C2B3_3F75C9BC_3F75D0C2_3F75D7C5,
  0x3F75DEC6_3F75E5C5_3F75ECC2_3F75F3BC_3F75FAB3_3F7601A9_3F76089C_3F760F8C,
  0x3F76167A_3F761D66_3F762450_3F762B37_3F76321B_3F7638FE_3F763FDE_3F7646BB,
  0x3F764D97_3F76546F_3F765B46_3F76621A_3F7668EC_3F766FBB_3F767688_3F767D53,
  0x3F76841B_3F768AE1_3F7691A4_3F769865_3F769F24_3F76A5E0_3F76AC9A_3F76B352,
  0x3F76BA07_3F76C0BA_3F76C76B_3F76CE19_3F76D4C4_3F76DB6E_3F76E215_3F76E8B9,
  0x3F76EF5B_3F76F5FB_3F76FC99_3F770334_3F7709CC_3F771063_3F7716F6_3F771D88,
  0x3F772417_3F772AA4_3F77312E_3F7737B6_3F773E3C_3F7744BF_3F774B40_3F7751BE,
  0x3F77583A_3F775EB4_3F77652B_3F776BA0_3F777213_3F777883_3F777EF1_3F77855C,
  0x3F778BC5_3F77922C_3F779890_3F779EF2_3F77A551_3F77ABAE_3F77B209_3F77B861,
  0x3F77BEB7_3F77C50B_3F77CB5C_3F77D1AB_3F77D7F7_3F77DE41_3F77E488_3F77EACE,
  0x3F77F110_3F77F751_3F77FD8F_3F7803CA_3F780A04_3F78103A_3F78166F_3F781CA1,
  0x3F7822D1_3F7828FE_3F782F29_3F783551_3F783B77_3F78419B_3F7847BC_3F784DDB,
  0x3F7853F8_3F785A12_3F78602A_3F78663F_3F786C52_3F787263_3F787871_3F787E7D,
  0x3F788486_3F788A8D_3F789091_3F789694_3F789C93_3F78A291_3F78A88C_3F78AE84,
  0x3F78B47B_3F78BA6E_3F78C060_3F78C64F_3F78CC3B_3F78D226_3F78D80E_3F78DDF3,
  0x3F78E3D6_3F78E9B7_3F78EF95_3F78F571_3F78FB4A_3F790121_3F7906F6_3F790CC8,
  0x3F791298_3F791865_3F791E30_3F7923F9_3F7929BF_3F792F83_3F793544_3F793B03,
  0x3F7940C0_3F79467A_3F794C32_3F7951E7_3F79579A_3F795D4B_3F7962F9_3F7968A5,
  0x3F796E4E_3F7973F5_3F79799A_3F797F3C_3F7984DC_3F798A79_3F799014_3F7995AD,
  0x3F799B43_3F79A0D7_3F79A668_3F79ABF7_3F79B183_3F79B70D_3F79BC95_3F79C21A,
  0x3F79C79D_3F79CD1E_3F79D29C_3F79D818_3F79DD91_3F79E308_3F79E87C_3F79EDEE,
  0x3F79F35E_3F79F8CB_3F79FE36_3F7A039E_3F7A0904_3F7A0E68_3F7A13C9_3F7A1928,
  0x3F7A1E84_3F7A23DE_3F7A2936_3F7A2E8B_3F7A33DD_3F7A392E_3F7A3E7C_3F7A43C7,
  0x3F7A4910_3F7A4E57_3F7A539B_3F7A58DD_3F7A5E1C_3F7A6359_3F7A6894_3F7A6DCC,
  0x3F7A7302_3F7A7835_3F7A7D66_3F7A8295_3F7A87C1_3F7A8CEA_3F7A9212_3F7A9737,
  0x3F7A9C59_3F7AA179_3F7AA697_3F7AABB2_3F7AB0CB_3F7AB5E1_3F7ABAF5_3F7AC006,
  0x3F7AC516_3F7ACA22_3F7ACF2D_3F7AD434_3F7AD93A_3F7ADE3D_3F7AE33D_3F7AE83C,
  0x3F7AED37_3F7AF231_3F7AF728_3F7AFC1C_3F7B010E_3F7B05FE_3F7B0AEB_3F7B0FD6]

/-- Entries 3584 to 3839 of the Sine Table (R241). -/
def sineChunk14 : List Nat := [
  0x3F7B14BE_3F7B19A4_3F7B1E88_3F7B2369_3F7B2848_3F7B2D24_3F7B31FE_3F7B36D6,
  0x3F7B3BAB_3F7B407D_3F7B454E_3F7B4A1B_3F7B4EE7_3F7B53B0_3F7B5876_3F7B5D3A,
  0x3F7B61FC_3F7B66BB_3F7B6B78_3F7B7032_3F7B74EA_3F7B79A0_3F7B7E53_3F7B8304,
  0x3F7B87B2_3F7B8C5E_3F7B9107_3F7B95AE_3F7B9A53_3F7B9EF5_3F7BA395_3F7BA832,
  0x3F7BACCD_3F7BB166_3F7BB5FC_3F7BBA8F_3F7BBF20_3F7BC3AF_3F7BC83B_3F7BCCC5,
  0x3F7BD14D_3F7BD5D2_3F7BDA55_3F7BDED5_3F7BE353_3F7BE7CE_3F7BEC47_3F7BF0BD,
  0x3F7BF531_3F7BF9A3_3F7BFE12_3F7C027F_3F7C06E9_3F7C0B51_3F7C0FB7_3F7C141A,
  0x3F7C187A_3F7C1CD9_3F7C2134_3F7C258E_3F7C29E5_3F7C2E39_3F7C328B_3F7C36DB,
  0x3F7C3B28_3F7C3F73_3F7C43BB_3F7C4801_3F7C4C44_3F7C5085_3F7C54C4_3F7C5900,
  0x3F7C5D3A_3F7C6171_3F7C65A6_3F7C69D8_3F7C6E08_3F7C7236_3F7C7661_3F7C7A8A,
  0x3F7C7EB0_3F7C82D4_3F7C86F5_3F7C8B14_3F7C8F31_3F7C934B_3F7C9762_3F7C9B78,
  0x3F7C9F8A_3F7CA39B_3F7CA7A9_3F7CABB4_3F7CAFBD_3F7CB3C4_3F7CB7C8_3F7CBBCA,
  0x3F7CBFC9_3F7CC3C6_3F7CC7C0_3F7CCBB8_3F7CCFAE_3F7CD3A1_3F7CD792_3F7CDB80,
  0x3F7CDF6C_3F7CE355_3F7CE73C_3F7CEB21_3F7CEF03_3F7CF2E2_3F7CF6C0_3F7CFA9A,
  0x3F7CFE73_3F7D0249_3F7D061C_3F7D09ED_3F7D0DBC_3F7D1188_3F7D1551_3F7D1919,
  0x3F7D1CDD_3F7D20A0_3F7D2460_3F7D281D_3F7D2BD8_3F7D2F91_3F7D3347_3F7D36FB,
  0x3F7D3AAC_3F7D3E5B_3F7D4207_3F7D45B1_3F7D4959_3F7D4CFE_3F7D50A0_3F7D5441,
  0x3F7D57DE_3F7D5B7A_3F7D5F13_3F7D62A9_3F7D663D_3F7D69CE_3F7D6D5E_3F7D70EA,
  0x3F7D7474_3F7D77FC_3F7D7B82_3F7D7F04_3F7D8285_3F7D8603_3F7D897E_3F7D8CF8,
  0x3F7D906E_3F7D93E2_3F7D9754_3F7D9AC4_3F7D9E30_3F7DA19B_3F7DA503_3F7DA868,
  0x3F7DABCC_3F7DAF2C_3F7DB28A_3F7DB5E6_3F7DB940_3F7DBC96_3F7DBFEB_3F7DC33D,
  0x3F7DC68C_3F7DC9DA_3F7DCD24_3F7DD06C_3F7DD3B2_3F7DD6F5_3F7DDA36_3F7DDD75,
  0x3F7DE0B1_3F7DE3EA_3F7DE721_3F7DEA56_3F7DED88_3F7DF0B8_3F7DF3E5_3F7DF710,
  0x3F7DFA38_3F7DFD5E_3F7E0082_3F7E03A3_3F7E06C2_3F7E09DE_3F7E0CF7_3F7E100F,
  0x3F7E1324_3F7E1636_3F7E1946_3F7E1C53_3F7E1F5E_3F7E2267_3F7E256D_3F7E2871,
  0x3F7E2B72_3F7E2E71_3F7E316D_3F7E3467_3F7E375E_3F7E3A53_3F7E3D46_3F7E4036,
  0x3F7E4323_3F7E460F_3F7E48F7_3F7E4BDE_3F7E4EC1_3F7E51A3_3F7E5482_3F7E575E,
  0x3F7E5A38_3F7E5D10_3F7E5FE5_3F7E62B7_3F7E6588_3F7E6855_3F7E6B21_3F7E6DEA,
  0x3F7E70B0_3F7E7374_3F7E7635_3F7E78F4_3F7E7BB1_3F7E7E6B_3F7E8123_3F7E83D8,
  0x3F7E868B_3F7E893B_3F7E8BE9_3F7E8E94_3F7E913D_3F7E93E4_3F7E9688_3F7E9929,
  0x3F7E9BC9_3F7E9E65_3F7EA100_3F7EA397_3F7EA62D_3F7EA8C0_3F7EAB50_3F7EADDE,
  0x3F7EB069_3F7EB2F2_3F7EB579_3F7EB7FD_3F7EBA7F_3F7EBCFE_3F7EBF7B_3F7EC1F5]

/-- Entries 3840 to 4095 of the Sine Table (R241). -/
def sineChunk15 : List Nat := [
  0x3F7EC46D_3F7EC6E3_3F7EC955_3F7ECBC6_3F7ECE34_3F7ED0A0_3F7ED309_3F7ED56F,
  0x3F7ED7D4_3F7EDA35_3F7EDC95_3F7EDEF2_3F7EE14C_3F7EE3A4_3F7EE5F9_3F7EE84C,
  0x3F7EEA9D_3F7EECEB_3F7EEF37_3F7EF180_3F7EF3C7_3F7EF60B_3F7EF84D_3F7EFA8C,
  0x3F7EFCC9_3F7EFF04_3F7F013C_3F7F0371_3F7F05A4_3F7F07D5_3F7F0A03_3F7F0C2F,
  0x3F7F0E58_3F7F107F_3F7F12A3_3F7F14C5_3F7F16E4_3F7F1901_3F7F1B1C_3F7F1D34,
  0x3F7F1F49_3F7F215C_3F7F236D_3F7F257B_3F7F2787_3F7F2990_3F7F2B97_3F7F2D9C,
  0x3F7F2F9D_3F7F319D_3F7F339A_3F7F3594_3F7F378C_3F7F3982_3F7F3B75_3F7F3D66,
  0x3F7F3F54_3F7F4140_3F7F4329_3F7F4510_3F7F46F4_3F7F48D6_3F7F4AB6_3F7F4C93,
  0x3F7F4E6D_3F7F5045_3F7F521B_3F7F53EE_3F7F55BF_3F7F578D_3F7F5959_3F7F5B22,
  0x3F7F5CE9_3F7F5EAE_3F7F606F_3F7F622F_3F7F63EC_3F7F65A7_3F7F675F_3F7F6914,
  0x3F7F6AC7_3F7F6C78_3F7F6E26_3F7F6FD2_3F7F717B_3F7F7322_3F7F74C7_3F7F7669,
  0x3F7F7808_3F7F79A5_3F7F7B40_3F7F7CD8_3F7F7E6D_3F7F8000_3F7F8191_3F7F831F,
  0x3F7F84AB_3F7F8634_3F7F87BB_3F7F8940_3F7F8AC2_3F7F8C41_3F7F8DBE_3F7F8F39,
  0x3F7F90B1_3F7F9226_3F7F9399_3F7F950A_3F7F9678_3F7F97E4_3F7F994D_3F7F9AB4,
  0x3F7F9C18_3F7F9D7A_3F7F9EDA_3F7FA037_3F7FA191_3F7FA2E9_3F7FA43F_3F7FA592,
  0x3F7FA6E3_3F7FA831_3F7FA97D_3F7FAAC6_3F7FAC0D_3F7FAD51_3F7FAE93_3F7FAFD2,
  0x3F7FB10F_3F7FB24A_3F7FB382_3F7FB4B7_3F7FB5EA_3F7FB71B_3F7FB849_3F7FB975,
  0x3F7FBA9E_3F7FBBC5_3F7FBCE9_3F7FBE0B_3F7FBF2A_3F7FC047_3F7FC161_3F7FC279,
  0x3F7FC38F_3F7FC4A2_3F7FC5B2_3F7FC6C1_3F7FC7CC_3F7FC8D5_3F7FC9DC_3F7FCAE0,
  0x3F7FCBE2_3F7FCCE1_3F7FCDDE_3F7FCED9_3F7FCFD1_3F7FD0C6_3F7FD1B9_3F7FD2A9,
  0x3F7FD397_3F7FD483_3F7FD56C_3F7FD653_3F7FD737_3F7FD819_3F7FD8F8_3F7FD9D5,
  0x3F7FDAAF_3F7FDB87_3F7FDC5C_3F7FDD2F_3F7FDE00_3F7FDECE_3F7FDF99_3F7FE062,
  0x3F7FE129_3F7FE1ED_3F7FE2AF_3F7FE36E_3F7FE42B_3F7FE4E5_3F7FE59D_3F7FE652,
  0x3F7FE705_3F7FE7B5_3F7FE863_3F7FE90F_3F7FE9B8_3F7FEA5E_3F7FEB02_3F7FEBA4,
  0x3F7FEC43_3F7FECE0_3F7FED7A_3F7FEE12_3F7FEEA7_3F7FEF3A_3F7FEFCA_3F7FF058,
  0x3F7FF0E3_3F7FF16C_3F7FF1F3_3F7FF277_3F7FF2F8_3F7FF377_3F7FF3F4_3F7FF46E,
  0x3F7FF4E6_3F7FF55B_3F7FF5CE_3F7FF63E_3F7FF6AC_3F7FF717_3F7FF780_3F7FF7E6,
  0x3F7FF84A_3F7FF8AC_3F7FF90B_3F7FF967_3F7FF9C1_3F7FFA19_3F7FFA6E_3F7FFAC1,
  0x3F7FFB11_3F7FFB5E_3F7FFBAA_3F7FFBF2_3F7FFC39_3F7FFC7D_3F7FFCBE_3F7FFCFD,
  0x3F7FFD39_3F7FFD73_3F7FFDAB_3F7FFDE0_3F7FFE13_3F7FFE43_3F7FFE70_3F7FFE9B,
  0x3F7FFEC4_3F7FFEEA_3F7FFF0E_3F7FFF30_3F7FFF4E_3F7FFF6B_3F7FFF85_3F7FFF9C,
  0x3F7FFFB1_3F7FFFC4_3F7FFFD4_3F7FFFE1_3F7FFFEC_3F7FFFF5_3F7FFFFB_3F7FFFFF]

/-- The chunks in index order. -/
def sineChunks : List (List Nat) := [
  sineChunk0, sineChunk1, sineChunk2, sineChunk3, sineChunk4, sineChunk5, sineChunk6, sineChunk7,
  sineChunk8, sineChunk9, sineChunk10, sineChunk11, sineChunk12, sineChunk13, sineChunk14, sineChunk15]

/-- Entry `i` of the table of the build `MAXN = 16384` (R240, R241). Indices of 4096 and above do not
exist and are never read (R77; log 14). -/
def sineTable (i : Nat) : Word :=
  let row := ((sineChunks[i / 256]?).getD [])[i / 8 % 32]?.getD 0
  BitVec.ofNat 32 (row >>> (32 * (7 - i % 8)))

end Sys2Proof.Machine
end

