-- ==== Sys2Proof/Machine/Twiddle.lean ====
section
/-! DEFINITION. The Sine Table of a build and the twiddle lookup unit: micro-operations SIN and TWIDDLE
(R110 to R119). -/

namespace Sys2Proof.Machine

/-- `n` is a transform size of the build, and at least `lo`: a power of two in `lo .. MAXN` (R9). -/
def isSize (b : Build) (lo n : Nat) : Bool :=
  decide (2 ^ Nat.log2 n = n ∧ lo ≤ n ∧ n ≤ b.maxn)

/-- The operands of `SIN` (R112): `4 <= N <= MAXN`, a power of two, and `0 <= j <= N/4`. -/
def sinInRange (b : Build) (j n : Nat) : Bool := isSize b 4 n && decide (j ≤ n / 4)

/-- The operands of `TWIDDLE` (R115): `2 <= N <= MAXN`, a power of two, and `0 <= k < N`, for `N = 2` only
`k = 0`. -/
def twiddleInRange (b : Build) (k n : Nat) : Bool :=
  isSize b 2 n && decide (k < n ∧ (n = 2 → k = 0))

/-- `SINE_ROM[i]` of a build: the table of `MAXN = 16384` read with stride `16384 div MAXN` (R111, R114,
R240; log 9). -/
def sineRom (b : Build) (i : Nat) : Word := sineTable (i * (16384 / b.maxn))

/-- `SIN(j, N)` (R112, R113). A step that would ask for operands
outside `sinInRange` is refused (U16; log 14). -/
def sin (b : Build) (j n : Nat) : Word :=
  let stride := b.maxn / n
  if j = n / 4 then Word.one else sineRom b (j * stride)

/-- `TWIDDLE(k, N)`: the pair `(c, s)` of the positive angle (R115, R117). -/
def twiddle (b : Build) (k n : Nat) : Word × Word :=
  if n = 2 then (Word.one, 0#32)
  else
    let quarter := n / 4
    let quad := k / quarter
    let q := k % quarter
    let cosine := sin b (quarter - q) n
    let sine := sin b q n
    match quad with
    | 0 => (cosine, sine)
    | 1 => (fneg sine, cosine)
    | 2 => (fneg cosine, fneg sine)
    | _ => (sine, fneg cosine)

end Sys2Proof.Machine
end

