-- ==== Sys2Proof/Machine/Engine.lean ====
section
/-! DEFINITION. The engine: the micro-operations BUTTERFLY (R161), PERMUTE (R145), STAGE (R165),
CFFT_CORE (R166), RECOMBINE (R203), RFFT_CORE (R204), and the sequencer that takes them one at a time
(R36, R187). The loops are written once, over any kind of store, and used with the block's own store. -/

namespace Sys2Proof.Machine

/-- A Complex Sample: (re, im) (R22). -/
abbrev Sample := Word × Word

/-- The rotated value `b * (c - i s)` (R161, R203): four products, one sum, one difference. `d` is the
free-value index of its first operation (log 3). -/
def rotate (d : Nat) (b : Sample) (cs : Word × Word) : Sample :=
  (fadd (nanAt (d + 2)) (fmul (nanAt d) b.1 cs.1) (fmul (nanAt (d + 1)) b.2 cs.2),
   fsub (nanAt (d + 5)) (fmul (nanAt (d + 3)) b.2 cs.1) (fmul (nanAt (d + 4)) b.1 cs.2))

/-- The two samples a butterfly writes: `a + t` and `a - t` (R161). Ten operations. -/
def butterflyPair (d : Nat) (a b : Sample) (cs : Word × Word) : Sample × Sample :=
  let t := rotate d b cs
  ((fadd (nanAt (d + 6)) a.1 t.1, fadd (nanAt (d + 7)) a.2 t.2),
   (fsub (nanAt (d + 8)) a.1 t.1, fsub (nanAt (d + 9)) a.2 t.2))

/-- `BUTTERFLY(ia, ib, c, s)` (R161): both samples are read before either is written. -/
def butterfly (ia ib : Nat) (cs : Word × Word) (s : State) : State :=
  let p := butterflyPair s.draws (sampleRead s ia) (sampleRead s ib) cs
  draw 10 (sampleWrite ib p.2 (sampleWrite ia p.1 s))

/-- One swap of `PERMUTE` (R145): bit patterns move unchanged. -/
def swapSamples (i j : Nat) (s : State) : State :=
  sampleWrite j (sampleRead s i) (sampleWrite i (sampleRead s j) s)

/-- The step of `PERMUTE` at index `i` (R145), over any store. -/
def permuteAt {σ : Type} (rev : Nat → Nat) (swap : Nat → Nat → σ → σ) (i : Nat) (s : σ) : σ :=
  if rev i > i then swap i (rev i) s else s

/-- `PERMUTE(M)` (R145), over any store. -/
def permuteWith {σ : Type} (rev : Nat → Nat) (swap : Nat → Nat → σ → σ) (m : Nat) (s : σ) : σ :=
  forUpTo m (permuteAt rev swap) s

/-- The butterfly of `STAGE` at `base` and `k` (R164, R165): indices `base + k` and `base + k + half`,
twiddle of `k` and `span`. `bfly ia ib k span` is the butterfly of the store. -/
def stageAt {σ : Type} (bfly : Nat → Nat → Nat → Nat → σ → σ) (stage base k : Nat) (s : σ) : σ :=
  bfly (base + k) (base + k + 2 ^ stage / 2) k (2 ^ stage) s

/-- `STAGE(M, stage)` (R165), over any store: groups ascending, `k` ascending inside a group. -/
def stageWith {σ : Type} (bfly : Nat → Nat → Nat → Nat → σ → σ) (m stage : Nat) (s : σ) : σ :=
  forUpTo (m / 2 ^ stage)
    (fun g t => forUpTo (2 ^ stage / 2) (fun k u => stageAt bfly stage (g * 2 ^ stage) k u) t) s

/-- `CFFT_CORE(2^lg)` (R166), over any store. -/
def cfftCoreWith {σ : Type} (rev : Nat → Nat) (swap : Nat → Nat → σ → σ)
    (bfly : Nat → Nat → Nat → Nat → σ → σ) (lg : Nat) (s : σ) : σ :=
  forUpTo lg (fun j t => stageWith bfly (2 ^ lg) (j + 1) t) (permuteWith rev swap (2 ^ lg) s)

/-- `RECOMBINE(N)` (R203), over any store: bin 0 with the Nyquist bin, the pairs `k`, `M - k` for
`k = 1 .. N/4 - 1`, the self-mirrored bin `N/4`. -/
def recombineWith {σ : Type} (bin0 : σ → σ) (pair : Nat → σ → σ) (mid : σ → σ) (n : Nat) (s : σ) : σ :=
  mid (forUpTo (n / 4 - 1) (fun j t => pair (j + 1) t) (bin0 s))

/-- The butterfly of the block's store: the twiddle comes from the lookup unit (R165). -/
def stageButterfly (ia ib k span : Nat) (s : State) : State :=
  butterfly ia ib (twiddle s.build k span) s

/-- `PERMUTE(2^lg)` on `BUF` (R145). -/
def permute (lg : Nat) (s : State) : State :=
  permuteWith (bitrev s.build.strategy lg) swapSamples (2 ^ lg) s

/-- `STAGE(2^lg, stage)` on `BUF` (R165). -/
def stagePass (lg stage : Nat) (s : State) : State := stageWith stageButterfly (2 ^ lg) stage s

/-- `CFFT_CORE(2^lg)` on `BUF` (R166). -/
def cfftCore (lg : Nat) (s : State) : State :=
  cfftCoreWith (bitrev s.build.strategy lg) swapSamples stageButterfly lg s

/-- Bin 0 and the Nyquist bin (R203): `C[0] <- (zr + zi, zr - zi)`. Two operations. -/
def recombineBin0 (s : State) : State :=
  let z := sampleRead s 0
  draw 2 (sampleWrite 0 (fadd (nanAt s.draws) z.1 z.2, fsub (nanAt (s.draws + 1)) z.1 z.2) s)

/-- The bins `k` and `M - k` from `Z[k]` and `Z[M - k]` (R203). Eighteen operations. -/
def recombinePairOf (d : Nat) (a b : Sample) (cs : Word × Word) : Sample × Sample :=
  let er := fhalf (nanAt (d + 1)) (fadd (nanAt d) a.1 b.1)
  let ei := fhalf (nanAt (d + 3)) (fsub (nanAt (d + 2)) a.2 b.2)
  let xr := fhalf (nanAt (d + 5)) (fadd (nanAt (d + 4)) a.2 b.2)
  let xi := fhalf (nanAt (d + 7)) (fsub (nanAt (d + 6)) b.1 a.1)
  let t := rotate (d + 8) (xr, xi) cs
  ((fadd (nanAt (d + 14)) er t.1, fadd (nanAt (d + 15)) ei t.2),
   (fsub (nanAt (d + 16)) er t.1, fsub (nanAt (d + 17)) t.2 ei))

/-- The loop step of `RECOMBINE(N)` at `k` (R203): both samples are read before either is written. -/
def recombinePair (n k : Nat) (s : State) : State :=
  let p := recombinePairOf s.draws (sampleRead s k) (sampleRead s (n / 2 - k)) (twiddle s.build k n)
  draw 18 (sampleWrite (n / 2 - k) p.2 (sampleWrite k p.1 s))

/-- The self-mirrored bin (R203): `C[N/4] <- (qr, fneg(qi))`, exact. -/
def recombineMid (n : Nat) (s : State) : State :=
  let z := sampleRead s (n / 4)
  sampleWrite (n / 4) (z.1, fneg z.2) s

/-- `RECOMBINE(N)` on `BUF` (R203). -/
def recombine (n : Nat) (s : State) : State :=
  recombineWith recombineBin0 (recombinePair n) (recombineMid n) n s

/-- `RFFT_CORE(2^lg)` (R204): `PACK` does nothing (R202), the kernel at half the size, the
recombination. -/
def rfftCore (lg : Nat) (s : State) : State := recombine (2 ^ lg) (cfftCore (lg - 1) s)

/-- The position after the index `i` of `PERMUTE` (R166, R187). The spec leaves `i` open while `STAGES` runs;
the model puts it at 0 (DESIGN CHOICE, log 7). -/
def seqAfterPermute (q : Seq) : Seq :=
  if q.i + 1 < q.m then { q with i := q.i + 1 }
  else { q with phase := .stages, stage := 1, base := 0, k := 0, i := 0 }

/-- The position after the butterfly at `stage`, `base`, `k`, and `none` when it was the last of the
kernel pass (R165, R166, R187). -/
def seqAfterButterfly (q : Seq) : Option Seq :=
  if q.k + 1 < 2 ^ q.stage / 2 then some { q with k := q.k + 1 }
  else if q.base + 2 ^ q.stage < q.m then some { q with base := q.base + 2 ^ q.stage, k := 0 }
  else if q.stage < Nat.log2 q.m then some { q with stage := q.stage + 1, base := 0, k := 0 }
  else none

/-- The micro-operation of phase `PERMUTE`: the index `seq.i` (R145). -/
def permuteStep (s : State) : State :=
  { permuteAt (bitrev s.build.strategy (Nat.log2 s.seq.m)) swapSamples s.seq.i s with
    seq := seqAfterPermute s.seq }

/-- What follows the last butterfly of the kernel pass: a complex command (`M = N`) completes, a real one
goes on to `RECOMBINE` (R168, R204). The spec leaves `stage` and `base` open there; the model puts them at 0
(DESIGN CHOICE, log 7). -/
def afterKernel (q : Seq) (t : State) : State :=
  if q.m = q.n then complete t
  else { t with seq := { q with phase := .recombine, stage := 0, base := 0, k := 0 } }

/-- The micro-operation of phase `STAGES`: one butterfly (R165). -/
def butterflyStep (s : State) : State :=
  let t := stageAt stageButterfly s.seq.stage s.seq.base s.seq.k s
  match seqAfterButterfly s.seq with
  | some q => { t with seq := q }
  | none => afterKernel s.seq t

/-- The micro-operation of phase `RECOMBINE` (R203): bin 0 at `k = 0`, the pair `k`, `M - k` below `N/4`,
the self-mirrored bin at `N/4`, with which the command completes. That `k` is 0 and `N/4` at the two bins
outside the loop of R203 is the model's choice (log 7). -/
def recombineStep (s : State) : State :=
  if s.seq.k = 0 then { recombineBin0 s with seq := { s.seq with k := 1 } }
  else if s.seq.k < s.seq.n / 4 then
    { recombinePair s.seq.n s.seq.k s with seq := { s.seq with k := s.seq.k + 1 } }
  else complete (recombineMid s.seq.n s)

/-- One micro-operation of the running command, and the advance of the sequencer (R36, R187). The last
one completes the command (log 6). Idle and halted, the engine does nothing. -/
def engineStep (s : State) : State :=
  match s.seq.phase with
  | .idle => s
  | .halt => s
  | .permute => permuteStep s
  | .stages => butterflyStep s
  | .recombine => recombineStep s

/-- The operands of the micro-operation at `q` are those the spec gives it a meaning for: of `BITREV` and
`PERMUTE` (R140, R145), of `BUTTERFLY` and its twiddle (R161, R165, R115), of `RECOMBINE` (R203). The table
reads inside them are then in the ranges of R112. -/
def operandsInRange (b : Build) (q : Seq) : Bool :=
  match q.phase with
  | .idle => true
  | .halt => true
  | .permute => isSize b 1 q.m && decide (q.i < q.m)
  | .stages =>
    let ia := q.base + q.k
    let ib := q.base + q.k + 2 ^ q.stage / 2
    isSize b 1 q.m && decide (ia < ib ∧ ib < q.m) && twiddleInRange b q.k (2 ^ q.stage)
  | .recombine => isSize b 4 q.n && decide (q.k ≤ q.n / 4)

/-- The engine's turn: one micro-operation, refused when its operands have no meaning (R112, U16, U18;
log 14). -/
def engineTurn (s : State) : Host.Outcome State Fault Refusal :=
  if operandsInRange s.build s.seq then .next (engineStep s) else .refused .operandRange

/-- `n` micro-operations. -/
def engineRun (n : Nat) (s : State) : State := forUpTo n (fun _ t => engineStep t) s

end Sys2Proof.Machine
end

