-- ==== Sys2Proof/Machine/Cfft.lean ====
section
/-! DEFINITION. The complex transform commands (R168, R169 to R181): one meaning a size, each over the
shared rule R168. -/

namespace Sys2Proof.Machine

/-- `CFFT(N)` (R168) for `N = 2^lg`: the effect of a legal command, from acceptance to completion. -/
def cfftBody (lg : Nat) (s : State) : State := complete (cfftCore lg (accept .complex lg s))

/-- The command of word `v` and size `2^lg` as one atomic step at the `CMD` write (R71, R91): the tests
of R257, then `CFFT(N)`. -/
def cfftCommand (v : Word) (lg : Nat) (s : State) : Host.Outcome State Fault Refusal :=
  .next (commandGate v (decide (2 ≤ lg ∧ lg ≤ s.build.lgmax)) (cfftBody lg) s)

/-- `CFFT_4` (R169). -/
def execCfft4 (s : State) : Host.Outcome State Fault Refusal :=
  cfftCommand 0x00000002#32 2 s

/-- `CFFT_8` (R170). -/
def execCfft8 (s : State) : Host.Outcome State Fault Refusal :=
  cfftCommand 0x00000003#32 3 s

/-- `CFFT_16` (R171). -/
def execCfft16 (s : State) : Host.Outcome State Fault Refusal :=
  cfftCommand 0x00000004#32 4 s

/-- `CFFT_32` (R172). -/
def execCfft32 (s : State) : Host.Outcome State Fault Refusal :=
  cfftCommand 0x00000005#32 5 s

/-- `CFFT_64` (R173). -/
def execCfft64 (s : State) : Host.Outcome State Fault Refusal :=
  cfftCommand 0x00000006#32 6 s

/-- `CFFT_128` (R174). -/
def execCfft128 (s : State) : Host.Outcome State Fault Refusal :=
  cfftCommand 0x00000007#32 7 s

/-- `CFFT_256` (R175). -/
def execCfft256 (s : State) : Host.Outcome State Fault Refusal :=
  cfftCommand 0x00000008#32 8 s

/-- `CFFT_512` (R176). -/
def execCfft512 (s : State) : Host.Outcome State Fault Refusal :=
  cfftCommand 0x00000009#32 9 s

/-- `CFFT_1024` (R177). -/
def execCfft1024 (s : State) : Host.Outcome State Fault Refusal :=
  cfftCommand 0x0000000A#32 10 s

/-- `CFFT_2048` (R178). -/
def execCfft2048 (s : State) : Host.Outcome State Fault Refusal :=
  cfftCommand 0x0000000B#32 11 s

/-- `CFFT_4096` (R179). -/
def execCfft4096 (s : State) : Host.Outcome State Fault Refusal :=
  cfftCommand 0x0000000C#32 12 s

/-- `CFFT_8192` (R180). -/
def execCfft8192 (s : State) : Host.Outcome State Fault Refusal :=
  cfftCommand 0x0000000D#32 13 s

/-- `CFFT_16384` (R181). -/
def execCfft16384 (s : State) : Host.Outcome State Fault Refusal :=
  cfftCommand 0x0000000E#32 14 s

end Sys2Proof.Machine
end

