-- ==== Sys2Proof/Machine/Rfft.lean ====
section
/-! DEFINITION. The real transform commands (R206, R207 to R219): one meaning a size, each over the
shared rule R206. -/

namespace Sys2Proof.Machine

/-- `RFFT(N)` (R206) for `N = 2^lg`: the effect of a legal command, from acceptance to completion. -/
def rfftBody (lg : Nat) (s : State) : State := complete (rfftCore lg (accept .real lg s))

/-- The command of word `v` and size `2^lg` as one atomic step at the `CMD` write (R71, R91): the tests
of R257, then `RFFT(N)`. -/
def rfftCommand (v : Word) (lg : Nat) (s : State) : Host.Outcome State Fault Refusal :=
  .next (commandGate v (decide (2 ≤ lg ∧ lg ≤ s.build.lgmax)) (rfftBody lg) s)

/-- `RFFT_4` (R207). -/
def execRfft4 (s : State) : Host.Outcome State Fault Refusal :=
  rfftCommand 0x00000012#32 2 s

/-- `RFFT_8` (R208). -/
def execRfft8 (s : State) : Host.Outcome State Fault Refusal :=
  rfftCommand 0x00000013#32 3 s

/-- `RFFT_16` (R209). -/
def execRfft16 (s : State) : Host.Outcome State Fault Refusal :=
  rfftCommand 0x00000014#32 4 s

/-- `RFFT_32` (R210). -/
def execRfft32 (s : State) : Host.Outcome State Fault Refusal :=
  rfftCommand 0x00000015#32 5 s

/-- `RFFT_64` (R211). -/
def execRfft64 (s : State) : Host.Outcome State Fault Refusal :=
  rfftCommand 0x00000016#32 6 s

/-- `RFFT_128` (R212). -/
def execRfft128 (s : State) : Host.Outcome State Fault Refusal :=
  rfftCommand 0x00000017#32 7 s

/-- `RFFT_256` (R213). -/
def execRfft256 (s : State) : Host.Outcome State Fault Refusal :=
  rfftCommand 0x00000018#32 8 s

/-- `RFFT_512` (R214). -/
def execRfft512 (s : State) : Host.Outcome State Fault Refusal :=
  rfftCommand 0x00000019#32 9 s

/-- `RFFT_1024` (R215). -/
def execRfft1024 (s : State) : Host.Outcome State Fault Refusal :=
  rfftCommand 0x0000001A#32 10 s

/-- `RFFT_2048` (R216). -/
def execRfft2048 (s : State) : Host.Outcome State Fault Refusal :=
  rfftCommand 0x0000001B#32 11 s

/-- `RFFT_4096` (R217). -/
def execRfft4096 (s : State) : Host.Outcome State Fault Refusal :=
  rfftCommand 0x0000001C#32 12 s

/-- `RFFT_8192` (R218). -/
def execRfft8192 (s : State) : Host.Outcome State Fault Refusal :=
  rfftCommand 0x0000001D#32 13 s

/-- `RFFT_16384` (R219). -/
def execRfft16384 (s : State) : Host.Outcome State Fault Refusal :=
  rfftCommand 0x0000001E#32 14 s

end Sys2Proof.Machine
end

