-- ==== Sys2Proof/Machine/Dispatch.lean ====
section
/-! DEFINITION. The dispatch: one arm per command. -/

namespace Sys2Proof.Machine

def exec (i : Instr) (s : State) : Host.Outcome State Fault Refusal :=
  match i with
  | .cfft4 => Sys2Proof.Machine.execCfft4 s
  | .cfft8 => Sys2Proof.Machine.execCfft8 s
  | .cfft16 => Sys2Proof.Machine.execCfft16 s
  | .cfft32 => Sys2Proof.Machine.execCfft32 s
  | .cfft64 => Sys2Proof.Machine.execCfft64 s
  | .cfft128 => Sys2Proof.Machine.execCfft128 s
  | .cfft256 => Sys2Proof.Machine.execCfft256 s
  | .cfft512 => Sys2Proof.Machine.execCfft512 s
  | .cfft1024 => Sys2Proof.Machine.execCfft1024 s
  | .cfft2048 => Sys2Proof.Machine.execCfft2048 s
  | .cfft4096 => Sys2Proof.Machine.execCfft4096 s
  | .cfft8192 => Sys2Proof.Machine.execCfft8192 s
  | .cfft16384 => Sys2Proof.Machine.execCfft16384 s
  | .rfft4 => Sys2Proof.Machine.execRfft4 s
  | .rfft8 => Sys2Proof.Machine.execRfft8 s
  | .rfft16 => Sys2Proof.Machine.execRfft16 s
  | .rfft32 => Sys2Proof.Machine.execRfft32 s
  | .rfft64 => Sys2Proof.Machine.execRfft64 s
  | .rfft128 => Sys2Proof.Machine.execRfft128 s
  | .rfft256 => Sys2Proof.Machine.execRfft256 s
  | .rfft512 => Sys2Proof.Machine.execRfft512 s
  | .rfft1024 => Sys2Proof.Machine.execRfft1024 s
  | .rfft2048 => Sys2Proof.Machine.execRfft2048 s
  | .rfft4096 => Sys2Proof.Machine.execRfft4096 s
  | .rfft8192 => Sys2Proof.Machine.execRfft8192 s
  | .rfft16384 => Sys2Proof.Machine.execRfft16384 s

end Sys2Proof.Machine
end

