-- ==== Sys2Proof/Machine/Port.lean ====
section
/-! DEFINITION. A host access at the port (R64, R65, R67 to R69, R91): which instruction a `CMD` write
runs, and what the other accesses do. -/

namespace Sys2Proof.Machine

/-- A command is accepted and no more: the engine performs it in the steps that follow, among which the
host places its next access (the `start` step of R71; log 6). -/
def startCommand (i : Instr) (s : State) : State :=
  commandGate (encode i) (i.legalOn s.build) (accept i.kind i.lg) s

/-- The host's next access does not wait for completion: it may fall inside the busy interval (R71;
log 5). -/
def contended (s : State) : Bool :=
  match s.port with
  | [] => false
  | a :: _ => a.after.isSome

/-- A host write of `v` to `CMD` (R91). A word that is no command of any build is illegal (R94). A command
runs as one atomic step, unless the host's next access may fall inside it (R71). -/
def cmdWrite (v : Word) (s : State) : Host.Outcome State Fault Refusal :=
  match decode v with
  | .error _ => .next (commandGate v false id s)
  | .ok i => if contended s then .next (startCommand i s) else exec i s

/-- `MemRead(space, addr, width)` (R64). -/
def portRead (space : Space) (addr width : Nat) (s : State) : Host.Outcome State Fault Refusal :=
  if width ≠ 4 then .refused .accessWidth
  else match space with
    | .reg => .next (reply (regRead s addr) s)
    | .buf => .next (bufPortRead addr s)

/-- `MemWrite(space, addr, width, v)` (R65): `STATUS`, `CONFIG` and absent registers ignore the write. -/
def portWrite (space : Space) (addr width : Nat) (v : Word) (s : State) :
    Host.Outcome State Fault Refusal :=
  if width ≠ 4 then .refused .accessWidth
  else match space with
    | .reg => if addr = 0 then cmdWrite v s else .next s
    | .buf => .next (bufPortWrite addr v s)

/-- One act of the host. -/
def hostAccess (op : PortOp) (s : State) : Host.Outcome State Fault Refusal :=
  match op with
  | .read space addr width => portRead space addr width s
  | .write space addr width v => portWrite space addr width v s
  | .busRead byteAddr width =>
    match busTarget Config.regBase Config.bufBase s.build byteAddr with
    | .ok (some (space, addr)) => portRead space addr width s
    | .ok none => if width ≠ 4 then .refused .accessWidth else .next (elsewhereRead s)
    | .error r => .refused r
  | .busWrite byteAddr width v =>
    match busTarget Config.regBase Config.bufBase s.build byteAddr with
    | .ok (some (space, addr)) => portWrite space addr width v s
    | .ok none => if width ≠ 4 then .refused .accessWidth else .next s
    | .error r => .refused r
  | .reset => .next (resetBlock s)

/-- While the block is busy, the access is not presented yet: its host waits for completion, or it
arrives after more micro-operations. -/
def Access.waits (a : Access) (busy : Bool) : Bool := busy && decide (a.after ≠ some 0)

/-- One micro-operation less to wait for. -/
def Access.tick (a : Access) : Access := { a with after := a.after.map (· - 1) }

end Sys2Proof.Machine
end

