-- ==== Sys2Proof/Machine/Step.lean ====
section
/-! DEFINITION. One step of the machine: the host's next access when it is its turn, otherwise one
micro-operation of the engine (R70 to R72). -/

namespace Sys2Proof.Machine

/-- One step. With no access pending the engine goes on; idle or halted it holds its state (R264). -/
def step (s : State) : Host.Outcome State Fault Refusal :=
  match s.port with
  | [] => engineTurn s
  | a :: rest =>
    if a.waits s.status.busy then engineTurn { s with port := a.tick :: rest }
    else hostAccess a.op { s with port := rest }

/-- The state in which the very next step runs the command whose word is `w`: the host's next access is
the write of that word to `CMD`, and none follows (R37, R91; log 13). -/
def State.withFetchWord (s : State) (nbits w : Nat) : State :=
  { s with port := [⟨.write .reg 0 4 (BitVec.ofNat 32 (w % 2 ^ nbits)), some 0⟩] }

end Sys2Proof.Machine
end

