-- ==== Sys2Proof/Safety.lean ====
section
/-! DEFINITION. The invariant of the block: what a state of a run looks like (R32, R36, R70, R255), and when
a command can run. -/

namespace Sys2Proof.Machine

/-- The number of complex samples of the kernel pass of a command: `M = N`, or `N/2` for a real command
(R36, R200). -/
def kernelSize (i : Instr) : Nat :=
  match i.kind with
  | .complex => i.size
  | .real => i.size / 2

/-- The number of words of the operand of a command: `2N` or `N` (R23, R92). -/
def operandWords (i : Instr) : Nat := 2 * kernelSize i

/-- Every word written lies in `BUF` and the memory has its canonical form (R20; log 1). -/
abbrev BufOk (s : State) : Prop := s.buf.wf = true ∧ ∀ p ∈ s.buf, p.1 < 2 * s.build.maxn

/-- The fields of `STATUS` fit together (R31, R32, R254, R255). -/
abbrev StatusOk (t : Status) : Prop :=
  (t.busy = true → t.done = false) ∧ (t.err = true ↔ t.errcode ≠ 0#4) ∧ t.errcode.toNat ≤ 2 ∧
    (t.errcode = 2#4 → t.done = false) ∧ (t.err = true → t.busy = false)

/-- The loop indices of a running command are inside the loops of R145, R165 and R203. -/
abbrev IndicesOk (i : Instr) (q : Seq) : Prop :=
  (q.phase = .permute ∧ q.i < q.m) ∨
  (q.phase = .stages ∧ 1 ≤ q.stage ∧ q.stage ≤ Nat.log2 q.m ∧ q.base % 2 ^ q.stage = 0 ∧
    q.base + 2 ^ q.stage ≤ q.m ∧ q.k < 2 ^ q.stage / 2) ∨
  (q.phase = .recombine ∧ i.kind = .real ∧ q.k ≤ q.n / 4)

/-- While the block is busy, `CMD` holds the running command, which is legal on the build, and the
sequencer stands at one of its micro-operations (R30, R36, R254). -/
abbrev RunningOk (s : State) : Prop :=
  ∃ i ∈ (decode s.cmd).toOption,
    i.legalOn s.build = true ∧ s.seq.n = i.size ∧ s.seq.m = kernelSize i ∧ IndicesOk i s.seq

/-- The phase tells idle, running and halted apart as `STATUS` does (R36, R255). -/
abbrev PhaseOk (s : State) : Prop :=
  (s.seq.phase = .halt ↔ s.status.err = true) ∧
    (s.seq.phase = .idle ↔ s.status.err = false ∧ s.status.busy = false)

/-- The invariant of the machine. -/
abbrev BlockInv (s : State) : Prop :=
  BufOk s ∧ StatusOk s.status ∧ PhaseOk s ∧ (s.status.busy = true → RunningOk s)

/-- The block can take a command: idle and not halted (R91). -/
abbrev Ready (s : State) : Prop := s.status.err = false ∧ s.status.busy = false

/-- The command `i` executes normally in `s`: the block is ready and the size is within the build's
maximum (R91, R94). Nothing is asked of `BUF` (R285). -/
abbrev CanRun (i : Instr) (s : State) : Prop := Ready s ∧ i.lg ≤ s.build.lgmax

/-- The accesses a host may make while a command runs: reads of registers, writes to registers other than
`CMD`, bus accesses that reach no other, and reset (R64, R254, R280). -/
def PortOp.allowedWhileBusy (b : Build) : PortOp → Bool
  | .read .reg _ _ => true
  | .read .buf _ _ => false
  | .write .reg n _ _ => decide (n ≠ 0)
  | .write .buf _ _ _ => false
  | .busRead addr _ =>
    match busTarget Config.regBase Config.bufBase b addr with
    | .ok (some (.buf, _)) => false
    | _ => true
  | .busWrite addr _ _ =>
    match busTarget Config.regBase Config.bufBase b addr with
    | .ok (some (.buf, _)) => false
    | .ok (some (.reg, n)) => decide (n ≠ 0)
    | _ => true
  | .reset => true

/-- A host that keeps to the busy discipline: every access it may not make while a command runs waits for
completion (R286, R287). It may poll `STATUS` meanwhile (R64). -/
abbrev Patient (s : State) : Prop :=
  ∀ a ∈ s.port, a.after = none ∨ a.op.allowedWhileBusy s.build = true

end Sys2Proof.Machine
end

