-- ==== Sys2Proof/Certificates/Slice0/Obligations.lean ====
section
/-! DEFINITION. The statements for the provers. Where one speaks of free values (log 2, log 3, log 10), it
holds for every value of them. -/

/-! ### Vocabulary of the statements -/

namespace Sys2Proof.Slice0

open Sys2Proof.Machine

/-- The opcode map, row by row as R93 prints it. -/
def opcodeMap : List (Word × Instr) :=
  [(0x00000002#32, .cfft4), (0x00000003#32, .cfft8), (0x00000004#32, .cfft16),
    (0x00000005#32, .cfft32), (0x00000006#32, .cfft64), (0x00000007#32, .cfft128),
    (0x00000008#32, .cfft256), (0x00000009#32, .cfft512), (0x0000000A#32, .cfft1024),
    (0x0000000B#32, .cfft2048), (0x0000000C#32, .cfft4096), (0x0000000D#32, .cfft8192),
    (0x0000000E#32, .cfft16384)] ++
  [(0x00000012#32, .rfft4), (0x00000013#32, .rfft8), (0x00000014#32, .rfft16),
    (0x00000015#32, .rfft32), (0x00000016#32, .rfft64), (0x00000017#32, .rfft128),
    (0x00000018#32, .rfft256), (0x00000019#32, .rfft512), (0x0000001A#32, .rfft1024),
    (0x0000001B#32, .rfft2048), (0x0000001C#32, .rfft4096), (0x0000001D#32, .rfft8192),
    (0x0000001E#32, .rfft16384)]

/-- A word of a finite value (R15). -/
def finite (w : Word) : Prop := isNaN w = false ∧ isInf w = false

/-- `r` is the exact non-zero value `v * 2^-(149 + s)` rounded once, as R16 says: infinity of its sign from
`2^128 - 2^103` on. Below that, `r` is finite, has the sign of `v`, no finite word is nearer, and at a tie
`r[0]` is 0. -/
def roundsTo (v : Int) (s : Nat) (r : Word) : Prop :=
  signOf r = decide (v < 0) ∧
  if (2 ^ 128 - 2 ^ 103) * 2 ^ (149 + s) ≤ v.natAbs then isInf r = true
  else finite r ∧ ∀ w, finite w →
    (v - valueOf r * 2 ^ s).natAbs ≤ (v - valueOf w * 2 ^ s).natAbs ∧
      ((v - valueOf r * 2 ^ s).natAbs = (v - valueOf w * 2 ^ s).natAbs →
        valueOf w = valueOf r ∨ r.toNat % 2 = 0)

/-- The next access of the host is `op`, and it is presented at once: the block is not busy, or the host
does not wait. -/
def presented (s : State) (op : PortOp) (rest : List Access) : Prop :=
  ∃ after, s.port = ⟨op, after⟩ :: rest ∧ (s.status.busy = false ∨ after = some 0)

/-- No access of `port` comes while a command runs: the first one, if any, waits for completion. -/
def headWaits (port : List Access) : Prop := ∀ a ∈ port.head?, a.after = none

/-- The number of micro-operations of a command: the `M` indices of `PERMUTE`, `M/2` butterflies for each of
the `log2 M` stages, and for a real command `N/4 - 1` pairs and two special bins (R145, R166, R203). -/
def microOps (i : Instr) : Nat :=
  kernelSize i + kernelSize i / 2 * Nat.log2 (kernelSize i) +
    match i.kind with
    | .complex => 0
    | .real => i.size / 4 + 1

/-- The binary32 word of the value `2^lg`. -/
def powerWord (lg : Nat) : Word := BitVec.ofNat 32 ((127 + lg) * 2 ^ 23)

end Sys2Proof.Slice0

/-! ### The transforms in exact arithmetic: the same loops over sequences of complex numbers -/

namespace Sys2Proof.Exact

open Sys2Proof.Machine

/-- `e^(-2*pi*i*k/n)`. -/
noncomputable def rot (k n : Nat) : ℂ := Complex.exp (-(2 * Real.pi * k / n) * Complex.I)

/-- The swap of two samples. -/
def swap (a b : Nat) (x : Nat → ℂ) : Nat → ℂ :=
  fun j => if j = a then x b else if j = b then x a else x j

/-- The butterfly of R160: `t = b*w`, new `a` is `a + t`, new `b` is `a - t`. -/
noncomputable def bfly (ia ib k span : Nat) (x : Nat → ℂ) : Nat → ℂ :=
  fun j =>
    if j = ia then x ia + x ib * rot k span else if j = ib then x ia - x ib * rot k span else x j

/-- `CFFT_CORE(2^lg)` in exact arithmetic: the loops of the engine (`cfftCoreWith`) with the exact
butterfly. -/
noncomputable def kernel (lg : Nat) (x : Nat → ℂ) : Nat → ℂ :=
  cfftCoreWith (bitrevComputed lg) swap bfly lg x

/-- Bin `k` of the `n`-point unnormalised forward DFT (R19, R167). -/
noncomputable def dft (n : Nat) (x : Nat → ℂ) (k : Nat) : ℂ :=
  ∑ j ∈ Finset.range n, x j * rot (k * j) n

/-- Bin 0 and the Nyquist bin of `RECOMBINE` (R203). -/
def bin0 (x : Nat → ℂ) : Nat → ℂ :=
  fun j => if j = 0 then ⟨(x 0).re + (x 0).im, (x 0).re - (x 0).im⟩ else x j

/-- The loop step of `RECOMBINE(n)` at `k` (R203). -/
noncomputable def pair (n k : Nat) (x : Nat → ℂ) : Nat → ℂ :=
  let a := x k
  let b := x (n / 2 - k)
  let er := (a.re + b.re) / 2
  let ei := (a.im - b.im) / 2
  let t : ℂ := ⟨(a.im + b.im) / 2, (b.re - a.re) / 2⟩ * rot k n
  fun j => if j = k then ⟨er + t.re, ei + t.im⟩ else if j = n / 2 - k then ⟨er - t.re, t.im - ei⟩ else x j

/-- The self-mirrored bin of `RECOMBINE(n)` (R203). -/
def mid (n : Nat) (x : Nat → ℂ) : Nat → ℂ :=
  fun j => if j = n / 4 then ⟨(x j).re, -(x j).im⟩ else x j

/-- `RFFT_CORE(2^lg)` in exact arithmetic on the real samples `x`, packed two to a complex sample
(R202, R204). -/
noncomputable def realTransform (lg : Nat) (x : Nat → ℝ) : Nat → ℂ :=
  recombineWith bin0 (pair (2 ^ lg)) (mid (2 ^ lg)) (2 ^ lg)
    (kernel (lg - 1) fun j => ⟨x (2 * j), x (2 * j + 1)⟩)

end Sys2Proof.Exact

open Sys2Proof Sys2Proof.Machine Sys2Proof.Slice0

/-! ### Encoding -/

/-- A word of each family decodes as R93 says. -/
def Obligations.SampleWordsDecode : Prop :=
  decode 0x00000002#32 = .ok .cfft4 ∧ decode 0x0000000E#32 = .ok .cfft16384 ∧
    decode 0x00000012#32 = .ok .rfft4 ∧ decode 0x0000001E#32 = .ok .rfft16384

/-- R93: the map is complete, and every row is the whole word. -/
def Obligations.OpcodeMapIsComplete : Prop :=
  ∀ w i, decode w = .ok i ↔ (w, i) ∈ opcodeMap

/-- Decoding the encoding of a command gives the command. -/
def Obligations.DecodeInvertsEncode : Prop :=
  ∀ i, decode (encode i) = .ok i

/-- R94: which words are no command of any build, and under which name each is rejected. -/
def Obligations.ReservedWordsRejectedByName : Prop :=
  ∀ w : Word,
    (decode w = .error .reservedBits ↔ 32 ≤ w.toNat) ∧
    (decode w = .error .sizeTooSmall ↔ w.toNat < 32 ∧ w.toNat % 16 < 2) ∧
    (decode w = .error .sizeTooLarge ↔ w.toNat < 32 ∧ w.toNat % 16 = 15)

/-! ### Reset and invariant -/

/-- R280: what reset leaves. The words of `BUF` are free values; that the model's first reset has the
index 0 among them is its own choice (log 4). -/
def Obligations.ResetLeavesRegistersCleared : Prop :=
  regRead State.reset 0 = 0#32 ∧ regRead State.reset 1 = 0#32 ∧
    regRead State.reset 2 = 0x0000000E#32 ∧ State.reset.seq.phase = .idle ∧
    ∀ a, State.reset.buf.lookup a = none

/-- The state after reset meets the invariant. -/
def Obligations.ResetMeetsInvariant : Prop := BlockInv State.reset

/-- Every step keeps the invariant: the memory's canonical form and range, the fields of `STATUS`, the
phase, and the loop indices of a running command (R32, R36, R166). -/
def Obligations.StepKeepsInvariant : Prop :=
  ∀ s t, BlockInv s → step s = .next t → BlockInv t

/-- R31, R32: the values that `STATUS` can be read with. -/
def Obligations.StatusTakesSixValues : Prop :=
  ∀ s, BlockInv s → s.status.word ∈
    [0x00000000#32, 0x00000001#32, 0x00000002#32, 0x00000014#32, 0x00000016#32, 0x00000024#32]

/-! ### Faults and the halted state -/

/-- R252: the first fault is recorded, a later one is not, and the sequencer halts. -/
def Obligations.RaiseRecordsFirstFault : Prop :=
  ∀ s : State, ∀ f : BlockFault,
    (s.status.err = false → raiseFault f s =
      { s with
        status := { s.status with
          err := true, errcode := match f with | .illegalCmd => 1#4 | .busyViolation => 2#4 }
        seq := { s.seq with phase := .halt } }) ∧
    (s.status.err = true → raiseFault f s = { s with seq := { s.seq with phase := .halt } })

/-- R253: a write to `CMD`, while idle and not halted, of a word that is no legal command of the build
(a 1 in bits 31:5, or `LG < 2`, or `LG > LGMAX`) does this and nothing else. -/
def Obligations.IllegalWordFaultsPrecisely : Prop :=
  ∀ s v rest, Ready s → presented s (.write .reg 0 4 v) rest →
    (v.toNat / 32 ≠ 0 ∨ v.toNat % 16 < 2 ∨ s.build.lgmax < v.toNat % 16) →
    step s = .next { s with
      port := rest
      cmd := v
      status := { s.status with err := true, errcode := 1#4 }
      seq := { s.seq with phase := .halt } }

/-- R94, R255, R257: as each instruction's own meaning, a command whose size is above the build's maximum
faults, and every command is ignored while the block is halted. -/
def Obligations.CommandsTurnedAway : Prop :=
  ∀ i s,
    (Ready s → s.build.lgmax < i.lg → exec i s = .next { s with
      cmd := encode i
      status := { s.status with err := true, errcode := 1#4 }
      seq := { s.seq with phase := .halt } }) ∧
    (s.status.err = true → exec i s = .next s)

/-- R254, R257: each of the three violations, a `CMD` write of any word, a `BUF` read and a `BUF` write,
abandons the running command. The words of its operand range are free values from then on, and so is the
word a read returns; every other word and `CMD` stay. -/
def Obligations.BusyViolationAbandonsCommand : Prop :=
  ∀ s op rest i, BlockInv s → s.status.busy = true → decode s.cmd = .ok i → presented s op rest →
    ((∃ v, op = .write .reg 0 4 v) ∨ (∃ a, op = .read .buf a 4) ∨ (∃ a v, op = .write .buf a 4 v)) →
    ∃ t, step s = .next t ∧ t.status = ⟨false, false, true, 2#4⟩ ∧ t.cmd = s.cmd ∧
      t.seq.phase = .halt ∧ t.port = rest ∧ t.build = s.build ∧ t.era = s.era ∧
      (∃ d, ∀ a, a < operandWords i → bufRead t a = Config.freeWord (d + a)) ∧
      (∀ a, operandWords i ≤ a → bufRead t a = bufRead s a) ∧
      ((∃ a, op = .read .buf a 4) → ∃ n, t.replies = Config.freeWord n :: s.replies) ∧
      ((∀ a, op ≠ .read .buf a 4) → t.replies = s.replies)

/-- R254: reads of registers and writes to registers other than `CMD` are no violation: the running command
goes on. -/
def Obligations.RegisterAccessWhileBusyIsHarmless : Prop :=
  ∀ s rest n, presented s (.read .reg n 4) rest ∨ (∃ v, n ≠ 0 ∧ presented s (.write .reg n 4 v) rest) →
    ∃ t, step s = .next t ∧ t.status = s.status ∧ t.seq = s.seq ∧ t.cmd = s.cmd ∧ t.buf = s.buf

/-- R255: the halted state. No access but reset changes `STATUS`, `CMD`, the build or the sequencer; `BUF`
can be read and written as when idle; the registers can be read. -/
def Obligations.OnlyResetLeavesHaltedState : Prop :=
  ∀ s, BlockInv s → s.status.err = true →
    (∀ t, step s = .next t → (∀ rest, ¬ presented s .reset rest) →
      t.status = s.status ∧ t.cmd = s.cmd ∧ t.seq = s.seq ∧ t.build = s.build) ∧
    (∀ v rest, presented s (.write .reg 0 4 v) rest → step s = .next { s with port := rest }) ∧
    (∀ a v rest, presented s (.write .buf a 4 v) rest →
      step s = .next (if a < 2 * s.build.maxn then bufWrite a v { s with port := rest }
        else { s with port := rest })) ∧
    (∀ a rest, presented s (.read .buf a 4) rest →
      step s = .next { s with
        port := rest
        replies := (if a < 2 * s.build.maxn then bufRead s a else 0#32) :: s.replies }) ∧
    (∀ n rest, presented s (.read .reg n 4) rest →
      step s = .next { s with port := rest, replies := regRead s n :: s.replies })

/-- R64, R254, R286, R287: a host that, while a command runs, makes no access but register reads, writes to
registers other than `CMD` and reset (a polling host), and lets every other access wait for completion, never
causes `BUSY_VIOLATION`, and it stays such a host. -/
def Obligations.PatientHostNeverViolates : Prop :=
  ∀ s t, BlockInv s → Patient s → step s = .next t →
    Patient t ∧ (t.status.errcode = 2#4 → s.status.errcode = 2#4)

/-- R280, R281: reset from any state, also while a command runs. Every word of `BUF` is unspecified
afterwards: a free value of the next reset (log 2, log 4). -/
def Obligations.ResetClearsEveryState : Prop :=
  ∀ s rest, presented s .reset rest →
    ∃ t, step s = .next t ∧ t.cmd = 0#32 ∧ t.status.word = 0#32 ∧ t.seq.phase = .idle ∧
      t.build = s.build ∧ t.port = rest ∧ t.replies = s.replies ∧
      ∀ a, bufRead t a = Config.bufAfterReset (s.era + 1) a

/-! ### The host port -/

/-- R29, R31, R33, R64: what a read of a register returns, in every state. -/
def Obligations.RegisterReadsReturnRegisters : Prop :=
  ∀ s n rest, presented s (.read .reg n 4) rest →
    step s = .next { s with
      port := rest
      replies :=
        (if n = 0 then s.cmd
          else if n = 1 then
            BitVec.ofNat 32 ((if s.status.busy then 1 else 0) + (if s.status.done then 2 else 0) +
              (if s.status.err then 4 else 0) + 16 * s.status.errcode.toNat)
          else if n = 2 then
            BitVec.ofNat 32 (s.build.lgmax + if s.build.strategy = .tabled then 16 else 0)
          else 0#32) :: s.replies }

/-- R29, R31, R33, R65: a write to `STATUS`, `CONFIG` or an absent register is ignored. -/
def Obligations.OtherRegisterWritesIgnored : Prop :=
  ∀ s n v rest, n ≠ 0 → presented s (.write .reg n 4 v) rest → step s = .next { s with port := rest }

/-- R61, R64, R65: `BUF` at the port of a block that is not busy. A write changes the word it names and no
other, a read returns it and changes nothing, and an index outside the memory reads 0 and ignores writes. -/
def Obligations.BufferPortReadsAndWrites : Prop :=
  ∀ s a rest, s.status.busy = false →
    (presented s (.read .buf a 4) rest → step s = .next { s with
      port := rest
      replies := (if a < 2 * s.build.maxn then bufRead s a else 0#32) :: s.replies }) ∧
    (∀ v, presented s (.write .buf a 4 v) rest → ∃ t, step s = .next t ∧
      t = { s with port := rest, buf := t.buf } ∧
      ∀ c, bufRead t c = if c = a ∧ a < 2 * s.build.maxn then v else bufRead s c)

/-- R66, R69: an access of another width than one word has no meaning, at the port and through the bus
mapping, wherever the bus address leads. -/
def Obligations.OtherWidthsRefused : Prop :=
  ∀ s width v rest, width ≠ 4 →
    (∀ space a,
      (presented s (.read space a width) rest → step s = .refused .accessWidth) ∧
      (presented s (.write space a width v) rest → step s = .refused .accessWidth)) ∧
    (∀ addr, addr % 4 = 0 →
      (presented s (.busRead addr width) rest → step s = .refused .accessWidth) ∧
      (presented s (.busWrite addr width v) rest → step s = .refused .accessWidth))

/-- R67, R69: the bus mapping. Existing register `n` is at `REG_BASE + 4n` and existing `BUF[a]` at
`BUF_BASE + 4a`, for aligned bases of windows that do not overlap; for any bases nothing else is reached, and
other alignments are refused. A bus access is the port access of what it reaches. At an address that is not
the block's, the block is not accessed and a read returns a free word (the model's choice, log 11). -/
def Obligations.BusMappingReachesEveryWord : Prop :=
  (∀ regBase bufBase b, regBase % 4 = 0 → bufBase % 4 = 0 →
    (regBase + 12 ≤ bufBase ∨ bufBase + 8 * Build.maxn b ≤ regBase) →
    (∀ n, n < 3 → busTarget regBase bufBase b (regBase + 4 * n) = .ok (some (.reg, n))) ∧
    (∀ a, a < 2 * b.maxn → busTarget regBase bufBase b (bufBase + 4 * a) = .ok (some (.buf, a)))) ∧
  (∀ regBase bufBase b addr,
    match busTarget regBase bufBase b addr with
    | .ok (some (.reg, n)) => addr % 4 = 0 ∧ addr = regBase + 4 * n
    | .ok (some (.buf, a)) => addr % 4 = 0 ∧ addr = bufBase + 4 * a
    | .ok none => addr % 4 = 0 ∧ ∀ n, addr ≠ regBase + 4 * n ∧ addr ≠ bufBase + 4 * n
    | .error r => addr % 4 ≠ 0 ∧ r = .misaligned) ∧
  (∀ s addr width v rest,
    (presented s (.busRead addr width) rest → step s =
      match busTarget Config.regBase Config.bufBase s.build addr with
      | .ok (some (space, a)) => step { s with port := ⟨.read space a width, some 0⟩ :: rest }
      | .ok none =>
        if width = 4 then .next { s with
          port := rest, draws := s.draws + 1, replies := Config.freeWord s.draws :: s.replies }
        else .refused .accessWidth
      | .error r => .refused r) ∧
    (presented s (.busWrite addr width v) rest → step s =
      match busTarget Config.regBase Config.bufBase s.build addr with
      | .ok (some (space, a)) => step { s with port := ⟨.write space a width v, some 0⟩ :: rest }
      | .ok none => if width = 4 then .next { s with port := rest } else .refused .accessWidth
      | .error r => .refused r) ∧
    (addr % 4 ≠ 0 →
      (presented s (.busRead addr width) rest → step s = .refused .misaligned) ∧
      (presented s (.busWrite addr width v) rest → step s = .refused .misaligned)))

/-! ### Arithmetic -/

/-- R16: a non-zero sum of finite words is the exact sum rounded once. -/
def Obligations.SumRoundsToNearestEven : Prop :=
  ∀ nan a b, finite a → finite b → valueOf a + valueOf b ≠ 0 →
    roundsTo (valueOf a + valueOf b) 0 (fadd nan a b)

/-- R16: a non-zero product of finite words is the exact product rounded once. -/
def Obligations.ProductRoundsToNearestEven : Prop :=
  ∀ nan a b, finite a → finite b → valueOf a * valueOf b ≠ 0 →
    roundsTo (valueOf a * valueOf b) 149 (fmul nan a b)

/-- R16: signs of zero results, infinities and NaNs; a difference is the sum with the negated operand. -/
def Obligations.ZerosInfinitiesAndNaNs : Prop :=
  ∀ nan a b,
    (finite a → finite b → valueOf a + valueOf b = 0 →
      fadd nan a b = if signOf a = true ∧ signOf b = true then 0x80000000#32 else 0#32) ∧
    (finite a → finite b → valueOf a * valueOf b = 0 →
      fmul nan a b = if signOf a = signOf b then 0#32 else 0x80000000#32) ∧
    (isInf a = true → isInf b = true →
      fadd nan a b = (if signOf a = signOf b then a else nan)) ∧
    (isInf a = true → finite b → fadd nan a b = a ∧ fadd nan b a = a) ∧
    (isInf a = true → isZero b = true → fmul nan a b = nan ∧ fmul nan b a = nan) ∧
    (isInf a = true → isNaN b = false → isZero b = false →
      fmul nan a b = (if signOf a = signOf b then 0x7F800000#32 else 0xFF800000#32) ∧
      fmul nan b a = fmul nan a b) ∧
    (isNaN a = true ∨ isNaN b = true → fadd nan a b = nan ∧ fmul nan a b = nan) ∧
    fsub nan a b = fadd nan a (fneg b)

/-- R17: `fneg` flips the sign bit of any word; `fhalf` multiplies by 0.5, exact unless the result is
subnormal, where it rounds. -/
def Obligations.NegationAndHalving : Prop :=
  ∀ nan a,
    (signOf (fneg a) = !signOf a ∧ expOf (fneg a) = expOf a ∧ fracOf (fneg a) = fracOf a) ∧
    fhalf nan a = fmul nan a 0x3F000000#32 ∧
    (finite a → 2 ≤ expOf a → 2 * valueOf (fhalf nan a) = valueOf a) ∧
    (finite a → valueOf a ≠ 0 → roundsTo (valueOf a) 1 (fhalf nan a))

/-- R16, U9: the word returned for a NaN result is a NaN word, and any NaN word is possible. -/
def Obligations.NaNResultsAreAnyNaN : Prop :=
  (∀ n, isNaN (nanAt n) = true) ∧ ∀ w, isNaN w = true → nanOf w = w

/-! ### Tables and lookups -/

/-- R111: the first entry is zero, the table is strictly increasing, and every other entry is a positive
normal number below 1.0. -/
def Obligations.SineTableIncreases : Prop :=
  sineTable 0 = 0#32 ∧ (∀ i, i < 4095 → (sineTable i).toNat < (sineTable (i + 1)).toNat) ∧
    ∀ i, 1 ≤ i → i < 4096 → 0x00800000 ≤ (sineTable i).toNat ∧ (sineTable i).toNat < 0x3F800000

/-- R112, R113: the scaled table read. The index read is inside the ROM, and the entry one past it is the
constant 1.0. -/
def Obligations.SineReadsInsideTable : Prop :=
  ∀ (b : Build) lg j, 2 ≤ lg → lg ≤ b.lgmax → j ≤ 2 ^ lg / 4 →
    (j = 2 ^ lg / 4 → sin b j (2 ^ lg) = 0x3F800000#32) ∧
    (j < 2 ^ lg / 4 → sin b j (2 ^ lg) = sineRom b (j * (b.maxn / 2 ^ lg)) ∧
      j * (b.maxn / 2 ^ lg) < b.maxn / 4)

/-- R114: the lookup does not depend on `MAXN`. -/
def Obligations.SineIndependentOfMaxn : Prop :=
  ∀ (b c : Build) lg j, 2 ≤ lg → lg ≤ b.lgmax → lg ≤ c.lgmax → j ≤ 2 ^ lg / 4 →
    sin b j (2 ^ lg) = sin c j (2 ^ lg)

/-- R115, R117: the twiddle of size 2, and the four quadrants of every larger size. -/
def Obligations.TwiddleFollowsQuadrants : Prop :=
  ∀ b : Build, twiddle b 0 2 = (0x3F800000#32, 0x00000000#32) ∧
    ∀ lg q, 2 ≤ lg → lg ≤ b.lgmax → q < 2 ^ lg / 4 →
      let n := 2 ^ lg
      let x := sin b (n / 4 - q) n
      let y := sin b q n
      twiddle b q n = (x, y) ∧ twiddle b (n / 4 + q) n = (fneg y, x) ∧
        twiddle b (n / 2 + q) n = (fneg x, fneg y) ∧ twiddle b (3 * n / 4 + q) n = (y, fneg x)

/-- R119: the exact words at the axes and at `N/8`, and the symmetry of a quadrant. -/
def Obligations.TwiddleAxesAreExact : Prop :=
  ∀ (b : Build) lg, 2 ≤ lg → lg ≤ b.lgmax →
    let n := 2 ^ lg
    twiddle b 0 n = (0x3F800000#32, 0x00000000#32) ∧
      twiddle b (n / 4) n = (0x80000000#32, 0x3F800000#32) ∧
      twiddle b (n / 2) n = (0xBF800000#32, 0x80000000#32) ∧
      twiddle b (3 * n / 4) n = (0x00000000#32, 0xBF800000#32) ∧
      (3 ≤ lg → twiddle b (n / 8) n = (0x3F3504F3#32, 0x3F3504F3#32)) ∧
      ∀ k, k < n / 4 → (twiddle b k n).1 = (twiddle b (n / 4 - k) n).2

/-- R140, R141: the computed form and the table give the defining sum, which is an index again. -/
def Obligations.BitReversalFormsAgree : Prop :=
  ∀ lg i, lg ≤ 14 → i < 2 ^ lg →
    bitrev .computed lg i = bitrevSum lg i ∧ bitrev .tabled lg i = bitrevSum lg i ∧
      bitrevSum lg i < 2 ^ lg

/-- R142 (a), (c), (e): involution, the fixed ends, and the halving law. -/
def Obligations.BitReversalLaws : Prop :=
  ∀ (st : Strategy) lg, lg ≤ 14 →
    (∀ i, i < 2 ^ lg → bitrev st lg (bitrev st lg i) = i) ∧
    bitrev st lg 0 = 0 ∧ bitrev st lg (2 ^ lg - 1) = 2 ^ lg - 1 ∧
    (1 ≤ lg → bitrev st lg 1 = 2 ^ lg / 2 ∧ bitrev st lg (2 ^ lg / 2) = 1 ∧
      ∀ i, i < 2 ^ lg / 2 → bitrev st lg (2 * i) = bitrev st (lg - 1) i ∧
        bitrev st lg (2 * i + 1) = bitrev st (lg - 1) i + 2 ^ lg / 2)

/-! ### The passes of the engine -/

/-- R145: after the pass the new `C[i]` is the old `C[BITREV(M, i)]`; no other word changes, and bit patterns
move unchanged. -/
def Obligations.PermuteReordersSamples : Prop :=
  ∀ s lg, lg ≤ s.build.lgmax →
    (∀ i, i < 2 ^ lg →
      sampleRead (permute lg s) i = sampleRead s (bitrev s.build.strategy lg i)) ∧
    (∀ a, 2 * 2 ^ lg ≤ a → bufRead (permute lg s) a = bufRead s a) ∧
    permute lg s = { s with buf := (permute lg s).buf }

/-- R146 (d): the pass applied twice restores every word. -/
def Obligations.PermuteTwiceRestores : Prop :=
  ∀ s lg a, lg ≤ s.build.lgmax → bufRead (permute lg (permute lg s)) a = bufRead s a

/-- R161: the ten operations of the butterfly, each with its own NaN word for a NaN result, both samples read
before either is written, and every other sample unchanged. -/
def Obligations.ButterflyIsSimultaneous : Prop :=
  ∀ s ia ib c x, ia ≠ ib →
    let a := sampleRead s ia
    let b := sampleRead s ib
    let t := butterfly ia ib (c, x) s
    (∃ n : Nat → Word, (∀ j, isNaN (n j) = true) ∧
      let tr := fadd (n 2) (fmul (n 0) b.1 c) (fmul (n 1) b.2 x)
      let ti := fsub (n 5) (fmul (n 3) b.2 c) (fmul (n 4) b.1 x)
      sampleRead t ia = (fadd (n 6) a.1 tr, fadd (n 7) a.2 ti) ∧
      sampleRead t ib = (fsub (n 8) a.1 tr, fsub (n 9) a.2 ti)) ∧
    (∀ j, j ≠ ia → j ≠ ib → sampleRead t j = sampleRead s j) ∧
    t = { s with buf := t.buf, draws := t.draws }

/-- R73, R165: a stage is `M/2` butterflies on pairwise disjoint pairs, each on the samples before the stage,
with the twiddle of `k` and `span`; no word outside the pass changes. -/
def Obligations.StageActsPairwise : Prop :=
  ∀ s lg stage, 1 ≤ stage → stage ≤ lg →
    (∀ g k, g < 2 ^ lg / 2 ^ stage → k < 2 ^ stage / 2 →
      let ia := g * 2 ^ stage + k
      let ib := ia + 2 ^ stage / 2
      (sampleRead (stagePass lg stage s) ia, sampleRead (stagePass lg stage s) ib) =
        butterflyPair (s.draws + 10 * (g * (2 ^ stage / 2) + k)) (sampleRead s ia) (sampleRead s ib)
          (twiddle s.build k (2 ^ stage))) ∧
    ∀ a, 2 * 2 ^ lg ≤ a → bufRead (stagePass lg stage s) a = bufRead s a

/-- R203: the recombination, bin by bin, from the samples before it: the two operations of bin 0, the eighteen
of each pair `k`, `N/2 - k`, each with its own NaN word for a NaN result, and the sign flip of the
self-mirrored bin; no word outside the operand changes. The free-value indices of `recombinePairOf` are the
model's (log 3). -/
def Obligations.RecombineActsPairwise : Prop :=
  ∀ s lg, 2 ≤ lg →
    let n := 2 ^ lg
    let t := recombine n s
    let z := sampleRead s 0
    sampleRead t 0 = (fadd (nanAt s.draws) z.1 z.2, fsub (nanAt (s.draws + 1)) z.1 z.2) ∧
    (∀ k, 1 ≤ k → k < n / 4 →
      (sampleRead t k, sampleRead t (n / 2 - k)) =
        recombinePairOf (s.draws + 2 + 18 * (k - 1)) (sampleRead s k) (sampleRead s (n / 2 - k))
          (twiddle s.build k n)) ∧
    (∀ k, 1 ≤ k → k < n / 4 → ∃ w : Nat → Word, (∀ j, isNaN (w j) = true) ∧
      let a := sampleRead s k
      let b := sampleRead s (n / 2 - k)
      let c := (twiddle s.build k n).1
      let x := (twiddle s.build k n).2
      let er := fhalf (w 1) (fadd (w 0) a.1 b.1)
      let ei := fhalf (w 3) (fsub (w 2) a.2 b.2)
      let xr := fhalf (w 5) (fadd (w 4) a.2 b.2)
      let xi := fhalf (w 7) (fsub (w 6) b.1 a.1)
      let tr := fadd (w 10) (fmul (w 8) xr c) (fmul (w 9) xi x)
      let ti := fsub (w 13) (fmul (w 11) xi c) (fmul (w 12) xr x)
      sampleRead t k = (fadd (w 14) er tr, fadd (w 15) ei ti) ∧
        sampleRead t (n / 2 - k) = (fsub (w 16) er tr, fsub (w 17) ti ei)) ∧
    sampleRead t (n / 4) = ((sampleRead s (n / 4)).1, fneg (sampleRead s (n / 4)).2) ∧
    ∀ a, n ≤ a → bufRead t a = bufRead s a

/-! ### The commands -/

/-- R91, R168, R169 to R181: each of the thirteen `CFFT_N` completes in every ready state of a build that has
it. `CMD` holds its word, `STATUS` shows completion, the operand words hold what `CFFT_CORE(N)` makes of
them, and every other word and every other part of the state is as before. That the idle sequencer holds 0
beside its phase is the model's choice (R36, U10; log 7). -/
def Obligations.ComplexCommandsComplete : Prop :=
  ∀ i s, i.kind = .complex → CanRun i s →
    ∃ d, exec i s = .next { s with
        cmd := encode i
        status := { s.status with busy := false, done := true }
        seq := Seq.idle
        buf := (cfftCore i.lg s).buf
        draws := d } ∧
      ∀ a, 2 * i.size ≤ a → bufRead (cfftCore i.lg s) a = bufRead s a

/-- R91, R206, R207 to R219: the same for each of the thirteen `RFFT_N`, whose operand is `N` words. The
zeros of the idle sequencer are the model's choice (log 7). -/
def Obligations.RealCommandsComplete : Prop :=
  ∀ i s, i.kind = .real → CanRun i s →
    ∃ d, exec i s = .next { s with
        cmd := encode i
        status := { s.status with busy := false, done := true }
        seq := Seq.idle
        buf := (recombine i.size (cfftCore (i.lg - 1) s)).buf
        draws := d } ∧
      ∀ a, i.size ≤ a → bufRead (recombine i.size (cfftCore (i.lg - 1) s)) a = bufRead s a

/-- The frame of all 26 commands, whatever becomes of the write: never the build, the port, the replies or
the resets, and no word of `BUF` outside the command's operand range, or outside the abandoned command's
(R23, R168, R206, R253, R254, R255). -/
def Obligations.CommandsKeepTheirFrame : Prop :=
  ∀ i s t, exec i s = .next t →
    t.build = s.build ∧ t.port = s.port ∧ t.replies = s.replies ∧ t.era = s.era ∧
    (CanRun i s → ∀ a, operandWords i ≤ a → bufRead t a = bufRead s a) ∧
    (Ready s → s.build.lgmax < i.lg → ∀ a, bufRead t a = bufRead s a) ∧
    (s.status.err = false → s.status.busy = true → t.cmd = s.cmd ∧
      ∀ a, runningWords s ≤ a → bufRead t a = bufRead s a) ∧
    (s.status.err = true → t = s)

/-- R11, R114, R186: the result is a function of the operand words alone. Two ready states that agree on
them (and draw the same free NaN words) get the same result words, whatever their builds, the rest of `BUF`
and their registers. -/
def Obligations.ResultDependsOnOperandAlone : Prop :=
  ∀ i s t, CanRun i s → CanRun i t → s.draws = t.draws →
    (∀ a, a < operandWords i → bufRead s a = bufRead t a) →
    ∃ s' t', exec i s = .next s' ∧ exec i t = .next t' ∧
      ∀ a, a < operandWords i → bufRead s' a = bufRead t' a

/-- R169: the four bins of `CFFT_4` by its four butterflies. -/
def Obligations.Cfft4IsFourButterflies : Prop :=
  ∀ s, Ready s → ∃ t, exec .cfft4 s = .next t ∧
    let one := (0x3F800000#32, 0x00000000#32)
    let p := butterflyPair s.draws (sampleRead s 0) (sampleRead s 2) one
    let q := butterflyPair (s.draws + 10) (sampleRead s 1) (sampleRead s 3) one
    let u := butterflyPair (s.draws + 20) p.1 q.1 one
    let v := butterflyPair (s.draws + 30) p.2 q.2 (0x80000000#32, 0x3F800000#32)
    sampleRead t 0 = u.1 ∧ sampleRead t 1 = v.1 ∧ sampleRead t 2 = u.2 ∧ sampleRead t 3 = v.2

/-- R206, R207: the output of `RFFT_4`: one butterfly, then DC and Nyquist, and the conjugated bin. -/
def Obligations.Rfft4IsOneButterfly : Prop :=
  ∀ s, Ready s → ∃ t, exec .rfft4 s = .next t ∧
    let z := butterflyPair s.draws (sampleRead s 0) (sampleRead s 1) (0x3F800000#32, 0x00000000#32)
    sampleRead t 0 =
        (fadd (nanAt (s.draws + 10)) z.1.1 z.1.2, fsub (nanAt (s.draws + 11)) z.1.1 z.1.2) ∧
      sampleRead t 1 = (z.2.1, fneg z.2.2)

/-- R168: an input of all +0 words gives all +0 words, at every size. -/
def Obligations.ZeroInputGivesZero : Prop :=
  ∀ i s, i.kind = .complex → CanRun i s → (∀ a, a < operandWords i → bufRead s a = 0#32) →
    ∃ t, exec i s = .next t ∧ ∀ a, a < operandWords i → bufRead t a = 0#32

/-- R184: the constant input (1.0, +0.0) gives exactly `C[0] = (N, +0.0)` and exactly +0.0 in every other
word, for every size. -/
def Obligations.ConstantInputSpectrum : Prop :=
  ∀ i s, i.kind = .complex → CanRun i s →
    (∀ j, j < i.size → sampleRead s j = (0x3F800000#32, 0x00000000#32)) →
    ∃ t, exec i s = .next t ∧ sampleRead t 0 = (powerWord i.lg, 0x00000000#32) ∧
      ∀ j, 1 ≤ j → j < i.size → sampleRead t j = (0x00000000#32, 0x00000000#32)

/-- R184: a unit impulse at sample 0 gives (1.0, +0.0) in every bin, exactly. -/
def Obligations.ImpulseInputSpectrum : Prop :=
  ∀ i s, i.kind = .complex → CanRun i s →
    sampleRead s 0 = (0x3F800000#32, 0x00000000#32) →
    (∀ j, 1 ≤ j → j < i.size → sampleRead s j = (0x00000000#32, 0x00000000#32)) →
    ∃ t, exec i s = .next t ∧ ∀ j, j < i.size → sampleRead t j = (0x3F800000#32, 0x00000000#32)

/-- R207 to R219, input A: every real sample 1.0 gives `BUF[0] = N`, `BUF[N/2 + 1] = -0.0` and +0.0 in every
other word, at every size. -/
def Obligations.RealConstantInputSpectrum : Prop :=
  ∀ i s, i.kind = .real → CanRun i s → (∀ a, a < i.size → bufRead s a = 0x3F800000#32) →
    ∃ t, exec i s = .next t ∧ bufRead t 0 = powerWord i.lg ∧
      bufRead t (i.size / 2 + 1) = 0x80000000#32 ∧
      ∀ a, 1 ≤ a → a < i.size → a ≠ i.size / 2 + 1 → bufRead t a = 0x00000000#32

/-! ### Start, micro-operations and completion -/

/-- R71: `start` and the micro-operations taken one at a time end in the very state of the atomic step, and
the block is busy until the last of them. -/
def Obligations.AtomicStepIsExact : Prop :=
  ∀ i s, CanRun i s →
    exec i s = .next (engineRun (microOps i) (startCommand i s)) ∧
    ∀ n, n < microOps i → (engineRun n (startCommand i s)).status.busy = true

/-- R71, R251: a running command never hangs. From every state of the busy interval it completes, without a
fault, in at most the 131072 micro-operations of `CFFT_16384`. What one micro-operation is, and so the
bound, is the model's choice (log 6). -/
def Obligations.BusyIntervalEnds : Prop :=
  ∀ s, BlockInv s → s.status.busy = true →
    ∃ n, n ≤ 131072 ∧ (engineRun n s).status = { s.status with busy := false, done := true } ∧
      (engineRun n s).seq.phase = .idle

/-! ### The step -/

/-- A `CMD` write whose word decodes runs that command, when the host's next access waits for completion: the
step is `exec` on the state with that access taken from the port (R91, R71). -/
def Obligations.StepRunsDecodedCommand : Prop :=
  ∀ s v i rest, presented s (.write .reg 0 4 v) rest → decode v = .ok i → headWaits rest →
    step s = exec i { s with port := rest }

/-- The state `withFetchWord` gives runs the command of its word in the very next step. -/
def Obligations.FetchedWordRunsNext : Prop :=
  ∀ (s : State) i, step (s.withFetchWord 32 (encode i).toNat) = exec i { s with port := [] }

/-- R71: when the host's next access may fall inside the busy interval, the command is accepted and no more:
`BUSY` is 1, `DONE` is 0, `CMD` holds the word, `BUF` is as before. -/
def Obligations.ContendedCommandStarts : Prop :=
  ∀ s i rest a more, presented s (.write .reg 0 4 (encode i)) rest → rest = a :: more →
    a.after ≠ none → CanRun i s →
    ∃ t, step s = .next t ∧ t.status = { s.status with busy := true, done := false } ∧
      t.cmd = encode i ∧ t.buf = s.buf ∧ t.port = rest ∧ t.seq.phase = .permute ∧
      t.seq.n = i.size ∧ t.seq.m = kernelSize i

/-- While the block is busy and its host waits, for completion or for `k + 1` more micro-operations, the step is
one micro-operation, and in the second case `k` are left to wait for. That a step of the busy block is one
micro-operation is the model's choice (log 6; R71 has only `start` and `complete`), and so is the count of an
access still to come (log 5). Operands outside the ranges of R112, R115, R140, R161 and R203, which no state
of the invariant has, are refused (U16, U18; log 14). -/
def Obligations.EngineRunsWhileHostWaits : Prop :=
  ∀ s, s.status.busy = true →
    (headWaits s.port →
      (BlockInv s → step s = .next (engineStep s)) ∧
      (operandsInRange s.build s.seq = false → step s = .refused .operandRange)) ∧
    (∀ op k rest, s.port = ⟨op, some (k + 1)⟩ :: rest →
      (BlockInv s → step s = .next (engineStep { s with port := ⟨op, some k⟩ :: rest })) ∧
      (operandsInRange s.build s.seq = false → step s = .refused .operandRange))

/-- R264: with no host access pending and no command running, the block holds its state. -/
def Obligations.IdleBlockHoldsState : Prop :=
  ∀ s, BlockInv s → s.status.busy = false → s.port = [] → step s = .next s

/-! ### The mathematics (exact arithmetic) -/

/-- R167: in exact arithmetic the kernel computes the unnormalised forward DFT, in natural order. -/
def Obligations.KernelComputesDft : Prop :=
  ∀ lg x k, k < 2 ^ lg → Exact.kernel lg x k = Exact.dft (2 ^ lg) x k

/-- R200, R201, R205: in exact arithmetic the real transform gives bins `1 .. N/2 - 1` of the N-point DFT of
the real input, with the DC and the Nyquist coefficient in the two parts of bin 0. -/
def Obligations.RealTransformLayout : Prop :=
  ∀ lg (x : Nat → ℝ), 2 ≤ lg →
    let X := Exact.dft (2 ^ lg) fun j => (x j : ℂ)
    Exact.realTransform lg x 0 = ⟨(X 0).re, (X (2 ^ lg / 2)).re⟩ ∧
      ∀ k, 1 ≤ k → k < 2 ^ lg / 2 → Exact.realTransform lg x k = X k

/-- R182: linearity, in exact arithmetic. -/
def Obligations.KernelIsLinear : Prop :=
  ∀ lg x y (c : ℂ) k, Exact.kernel lg (fun j => x j + c * y j) k =
    Exact.kernel lg x k + c * Exact.kernel lg y k

/-- R183, route (b): two forward transforms give `N * x[(N - n) mod N]` at sample `n`, in exact arithmetic. -/
def Obligations.KernelTwiceReverses : Prop :=
  ∀ lg x n, n < 2 ^ lg →
    Exact.kernel lg (Exact.kernel lg x) n = 2 ^ lg * x ((2 ^ lg - n) % 2 ^ lg)

/-- R185: the energy law, in exact arithmetic. -/
def Obligations.KernelScalesEnergy : Prop :=
  ∀ lg x, ∑ k ∈ Finset.range (2 ^ lg), Complex.normSq (Exact.kernel lg x k) =
    2 ^ lg * ∑ j ∈ Finset.range (2 ^ lg), Complex.normSq (x j)
end

