-- ==== Sys2Proof/Laws/State.lean ====
section
/-! SUPPORT. One lemma per field per update of the state, each true by unfolding. -/

namespace Sys2Proof.Machine

@[simp] theorem bufWrite_build (a : Nat) (v : Word) (s : State) : (bufWrite a v s).build = s.build := rfl
@[simp] theorem bufWrite_buf (a : Nat) (v : Word) (s : State) : (bufWrite a v s).buf = s.buf.insert a v := rfl
@[simp] theorem bufWrite_cmd (a : Nat) (v : Word) (s : State) : (bufWrite a v s).cmd = s.cmd := rfl
@[simp] theorem bufWrite_status (a : Nat) (v : Word) (s : State) : (bufWrite a v s).status = s.status := rfl
@[simp] theorem bufWrite_seq (a : Nat) (v : Word) (s : State) : (bufWrite a v s).seq = s.seq := rfl
@[simp] theorem bufWrite_port (a : Nat) (v : Word) (s : State) : (bufWrite a v s).port = s.port := rfl
@[simp] theorem bufWrite_replies (a : Nat) (v : Word) (s : State) : (bufWrite a v s).replies = s.replies := rfl
@[simp] theorem bufWrite_draws (a : Nat) (v : Word) (s : State) : (bufWrite a v s).draws = s.draws := rfl
@[simp] theorem bufWrite_era (a : Nat) (v : Word) (s : State) : (bufWrite a v s).era = s.era := rfl

@[simp] theorem sampleWrite_build (j : Nat) (z : Word × Word) (s : State) : (sampleWrite j z s).build = s.build := rfl
@[simp] theorem sampleWrite_buf (j : Nat) (z : Word × Word) (s : State) : (sampleWrite j z s).buf = (s.buf.insert (2 * j) z.1).insert (2 * j + 1) z.2 := rfl
@[simp] theorem sampleWrite_cmd (j : Nat) (z : Word × Word) (s : State) : (sampleWrite j z s).cmd = s.cmd := rfl
@[simp] theorem sampleWrite_status (j : Nat) (z : Word × Word) (s : State) : (sampleWrite j z s).status = s.status := rfl
@[simp] theorem sampleWrite_seq (j : Nat) (z : Word × Word) (s : State) : (sampleWrite j z s).seq = s.seq := rfl
@[simp] theorem sampleWrite_port (j : Nat) (z : Word × Word) (s : State) : (sampleWrite j z s).port = s.port := rfl
@[simp] theorem sampleWrite_replies (j : Nat) (z : Word × Word) (s : State) : (sampleWrite j z s).replies = s.replies := rfl
@[simp] theorem sampleWrite_draws (j : Nat) (z : Word × Word) (s : State) : (sampleWrite j z s).draws = s.draws := rfl
@[simp] theorem sampleWrite_era (j : Nat) (z : Word × Word) (s : State) : (sampleWrite j z s).era = s.era := rfl

@[simp] theorem draw_build (n : Nat) (s : State) : (draw n s).build = s.build := rfl
@[simp] theorem draw_buf (n : Nat) (s : State) : (draw n s).buf = s.buf := rfl
@[simp] theorem draw_cmd (n : Nat) (s : State) : (draw n s).cmd = s.cmd := rfl
@[simp] theorem draw_status (n : Nat) (s : State) : (draw n s).status = s.status := rfl
@[simp] theorem draw_seq (n : Nat) (s : State) : (draw n s).seq = s.seq := rfl
@[simp] theorem draw_port (n : Nat) (s : State) : (draw n s).port = s.port := rfl
@[simp] theorem draw_replies (n : Nat) (s : State) : (draw n s).replies = s.replies := rfl
@[simp] theorem draw_draws (n : Nat) (s : State) : (draw n s).draws = s.draws + n := rfl
@[simp] theorem draw_era (n : Nat) (s : State) : (draw n s).era = s.era := rfl

@[simp] theorem reply_build (w : Word) (s : State) : (reply w s).build = s.build := rfl
@[simp] theorem reply_buf (w : Word) (s : State) : (reply w s).buf = s.buf := rfl
@[simp] theorem reply_cmd (w : Word) (s : State) : (reply w s).cmd = s.cmd := rfl
@[simp] theorem reply_status (w : Word) (s : State) : (reply w s).status = s.status := rfl
@[simp] theorem reply_seq (w : Word) (s : State) : (reply w s).seq = s.seq := rfl
@[simp] theorem reply_port (w : Word) (s : State) : (reply w s).port = s.port := rfl
@[simp] theorem reply_replies (w : Word) (s : State) : (reply w s).replies = w :: s.replies := rfl
@[simp] theorem reply_draws (w : Word) (s : State) : (reply w s).draws = s.draws := rfl
@[simp] theorem reply_era (w : Word) (s : State) : (reply w s).era = s.era := rfl

@[simp] theorem raiseFault_build (f : BlockFault) (s : State) : (raiseFault f s).build = s.build := rfl
@[simp] theorem raiseFault_buf (f : BlockFault) (s : State) : (raiseFault f s).buf = s.buf := rfl
@[simp] theorem raiseFault_cmd (f : BlockFault) (s : State) : (raiseFault f s).cmd = s.cmd := rfl
@[simp] theorem raiseFault_status (f : BlockFault) (s : State) : (raiseFault f s).status = s.status.record f := rfl
@[simp] theorem raiseFault_seq (f : BlockFault) (s : State) : (raiseFault f s).seq = { s.seq with phase := .halt } := rfl
@[simp] theorem raiseFault_port (f : BlockFault) (s : State) : (raiseFault f s).port = s.port := rfl
@[simp] theorem raiseFault_replies (f : BlockFault) (s : State) : (raiseFault f s).replies = s.replies := rfl
@[simp] theorem raiseFault_draws (f : BlockFault) (s : State) : (raiseFault f s).draws = s.draws := rfl
@[simp] theorem raiseFault_era (f : BlockFault) (s : State) : (raiseFault f s).era = s.era := rfl

@[simp] theorem complete_build (s : State) : (complete s).build = s.build := rfl
@[simp] theorem complete_buf (s : State) : (complete s).buf = s.buf := rfl
@[simp] theorem complete_cmd (s : State) : (complete s).cmd = s.cmd := rfl
@[simp] theorem complete_status (s : State) : (complete s).status = s.status.complete := rfl
@[simp] theorem complete_seq (s : State) : (complete s).seq = Seq.idle := rfl
@[simp] theorem complete_port (s : State) : (complete s).port = s.port := rfl
@[simp] theorem complete_replies (s : State) : (complete s).replies = s.replies := rfl
@[simp] theorem complete_draws (s : State) : (complete s).draws = s.draws := rfl
@[simp] theorem complete_era (s : State) : (complete s).era = s.era := rfl

@[simp] theorem resetBlock_build (s : State) : (resetBlock s).build = s.build := rfl
@[simp] theorem resetBlock_buf (s : State) : (resetBlock s).buf = [] := rfl
@[simp] theorem resetBlock_cmd (s : State) : (resetBlock s).cmd = 0#32 := rfl
@[simp] theorem resetBlock_status (s : State) : (resetBlock s).status = Status.reset := rfl
@[simp] theorem resetBlock_seq (s : State) : (resetBlock s).seq = Seq.idle := rfl
@[simp] theorem resetBlock_port (s : State) : (resetBlock s).port = s.port := rfl
@[simp] theorem resetBlock_replies (s : State) : (resetBlock s).replies = s.replies := rfl
@[simp] theorem resetBlock_draws (s : State) : (resetBlock s).draws = s.draws := rfl
@[simp] theorem resetBlock_era (s : State) : (resetBlock s).era = s.era + 1 := rfl

@[simp] theorem accept_build (k : Kind) (lg : Nat) (s : State) : (accept k lg s).build = s.build := rfl
@[simp] theorem accept_buf (k : Kind) (lg : Nat) (s : State) : (accept k lg s).buf = s.buf := rfl
@[simp] theorem accept_cmd (k : Kind) (lg : Nat) (s : State) : (accept k lg s).cmd = s.cmd := rfl
@[simp] theorem accept_status (k : Kind) (lg : Nat) (s : State) : (accept k lg s).status = s.status.accept := rfl
@[simp] theorem accept_seq_phase (k : Kind) (lg : Nat) (s : State) : (accept k lg s).seq.phase = .permute := rfl
@[simp] theorem accept_port (k : Kind) (lg : Nat) (s : State) : (accept k lg s).port = s.port := rfl
@[simp] theorem accept_replies (k : Kind) (lg : Nat) (s : State) : (accept k lg s).replies = s.replies := rfl
@[simp] theorem accept_draws (k : Kind) (lg : Nat) (s : State) : (accept k lg s).draws = s.draws := rfl
@[simp] theorem accept_era (k : Kind) (lg : Nat) (s : State) : (accept k lg s).era = s.era := rfl

@[simp] theorem status_accept_busy (t : Status) : t.accept.busy = true := rfl
@[simp] theorem status_accept_done (t : Status) : t.accept.done = false := rfl
@[simp] theorem status_accept_err (t : Status) : t.accept.err = t.err := rfl
@[simp] theorem status_accept_errcode (t : Status) : t.accept.errcode = t.errcode := rfl
@[simp] theorem status_complete_busy (t : Status) : t.complete.busy = false := rfl
@[simp] theorem status_complete_done (t : Status) : t.complete.done = true := rfl
@[simp] theorem status_complete_err (t : Status) : t.complete.err = t.err := rfl
@[simp] theorem status_complete_errcode (t : Status) : t.complete.errcode = t.errcode := rfl
@[simp] theorem status_abandon_busy (t : Status) : t.abandon.busy = false := rfl
@[simp] theorem status_abandon_done (t : Status) : t.abandon.done = t.done := rfl
@[simp] theorem status_abandon_err (t : Status) : t.abandon.err = t.err := rfl
@[simp] theorem status_abandon_errcode (t : Status) : t.abandon.errcode = t.errcode := rfl

/-- The first fault is recorded (R252). -/
theorem status_record_of_no_err (t : Status) (f : BlockFault) (h : t.err = false) :
    t.record f = { t with err := true, errcode := faultCode f } := by
  simp [Status.record, h]

/-- A later fault changes nothing (R252). -/
theorem status_record_of_err (t : Status) (f : BlockFault) (h : t.err = true) : t.record f = t := by
  simp [Status.record, h]

end Sys2Proof.Machine
end

