-- ==== Sys2Proof/Laws/Memory.lean ====
section
/-! SUPPORT. The laws of the memory, of the words and samples read through it, and of the loop. -/

namespace Sys2Proof.Machine

/-! ### The loop -/

@[simp] theorem forUpTo_zero {σ : Type} (body : Nat → σ → σ) (s : σ) : forUpTo 0 body s = s := rfl

@[simp] theorem forUpTo_succ {σ : Type} (n : Nat) (body : Nat → σ → σ) (s : σ) :
    forUpTo (n + 1) body s = body n (forUpTo n body s) := rfl

/-- A property that the body keeps at every index holds after the loop. -/
theorem forUpTo_induct {σ : Type} {P : Nat → σ → Prop} {n : Nat} {body : Nat → σ → σ} {s : σ}
    (h0 : P 0 s) (hstep : ∀ v t, v < n → P v t → P (v + 1) (body v t)) : P n (forUpTo n body s) := by
  suffices ∀ m, m ≤ n → P m (forUpTo m body s) from this n le_rfl
  intro m
  induction m with
  | zero => intro _; exact h0
  | succ m ih => intro hm; exact hstep m _ hm (ih (Nat.le_of_succ_le hm))

/-- Bodies that agree below the bound give the same loop. -/
theorem forUpTo_congr {σ : Type} {n : Nat} {f g : Nat → σ → σ} {s : σ}
    (h : ∀ v t, v < n → f v t = g v t) : forUpTo n f s = forUpTo n g s := by
  induction n with
  | zero => rfl
  | succ n ih =>
    rw [forUpTo_succ, forUpTo_succ, ih fun v t hv => h v t (Nat.lt_succ_of_lt hv),
      h n _ (Nat.lt_succ_self n)]

/-- A loop of `m + n` rounds is a loop of `m` and then one of `n`. -/
theorem forUpTo_add {σ : Type} (m n : Nat) (f : Nat → σ → σ) (s : σ) :
    forUpTo (m + n) f s = forUpTo n (fun v => f (m + v)) (forUpTo m f s) := by
  induction n with
  | zero => rfl
  | succ n ih => rw [← Nat.add_assoc, forUpTo_succ, ih, forUpTo_succ]

/-! ### The memory -/

@[simp] theorem lookup_nil (a : Nat) : Mem.lookup [] a = none := rfl

/-- A word reads as it was written last. -/
theorem lookup_insert_same (m : Mem) (a : Nat) (v : Word) : (m.insert a v).lookup a = some v := by
  induction m with
  | nil => simp [Mem.insert, Mem.lookup]
  | cons p m ih =>
    obtain ⟨b, w⟩ := p
    unfold Mem.insert
    split
    · simp [Mem.lookup]
    · split
      · simp [Mem.lookup]
      · rename_i _ hne; simp [Mem.lookup, hne, ih]

/-- A write leaves every other index as it was. -/
theorem lookup_insert_of_ne (m : Mem) {a c : Nat} (v : Word) (h : c ≠ a) :
    (m.insert a v).lookup c = m.lookup c := by
  induction m with
  | nil => simp [Mem.insert, Mem.lookup, h]
  | cons p m ih =>
    obtain ⟨b, w⟩ := p
    unfold Mem.insert
    split
    · simp [Mem.lookup, h]
    · split
      · rename_i _ hab; subst hab; simp [Mem.lookup, h]
      · simp [Mem.lookup, ih]

/-- What is listed after a write was listed before, or is the word written. -/
theorem mem_insert {m : Mem} {a : Nat} {v : Word} {p : Nat × Word} (h : p ∈ m.insert a v) :
    p = (a, v) ∨ p ∈ m := by
  induction m with
  | nil => simpa [Mem.insert] using h
  | cons q m ih =>
    obtain ⟨b, w⟩ := q
    unfold Mem.insert at h
    split at h
    · simpa using h
    · split at h
      · simp only [List.mem_cons] at h ⊢
        tauto
      · simp only [List.mem_cons] at h ⊢
        obtain h | h := h
        · exact .inr (.inl h)
        · have := ih h; tauto

/-- The canonical form, head by head. -/
theorem wf_cons (a : Nat) (v : Word) (m : Mem) :
    Mem.wf ((a, v) :: m) = true ↔ (∀ p ∈ m.head?, a < p.1) ∧ Mem.wf m = true := by
  cases m with
  | nil => simp [Mem.wf]
  | cons q m => obtain ⟨b, w⟩ := q; simp [Mem.wf]

/-- A write keeps the canonical form. -/
theorem insert_wf (m : Mem) (a : Nat) (v : Word) (h : m.wf = true) : (m.insert a v).wf = true := by
  induction m with
  | nil => rfl
  | cons q m ih =>
    obtain ⟨b, w⟩ := q
    obtain ⟨hhead, htail⟩ := (wf_cons b w m).1 h
    unfold Mem.insert
    split
    · rename_i hab
      exact (wf_cons _ _ _).2 ⟨by simpa using hab, h⟩
    · split
      · rename_i _ hab; subst hab
        exact (wf_cons _ _ _).2 ⟨hhead, htail⟩
      · rename_i hlt hne
        refine (wf_cons _ _ _).2 ⟨?_, ih htail⟩
        cases m with
        | nil => simp [Mem.insert]; omega
        | cons r m =>
          obtain ⟨c, x⟩ := r
          have hbc : b < c := by simpa using hhead
          unfold Mem.insert
          split
          · simp; omega
          · split
            · simp; omega
            · simpa using hbc

/-- A write below a bound keeps all indices below it. -/
theorem insert_bounded {m : Mem} {a n : Nat} (v : Word) (h : ∀ p ∈ m, p.1 < n) (ha : a < n) :
    ∀ p ∈ m.insert a v, p.1 < n := by
  intro p hp
  obtain rfl | hp := mem_insert hp
  · exact ha
  · exact h p hp

/-! ### Words and samples -/

/-- A written word reads back. -/
theorem bufRead_bufWrite_same (a : Nat) (v : Word) (s : State) : bufRead (bufWrite a v s) a = v := by
  simp [bufRead, lookup_insert_same]

/-- A write leaves every other word as it was. -/
theorem bufRead_bufWrite_of_ne {a c : Nat} (v : Word) (s : State) (h : c ≠ a) :
    bufRead (bufWrite a v s) c = bufRead s c := by
  simp [bufRead, lookup_insert_of_ne _ _ h]

/-- Reading a word after a write, in one equation. -/
theorem bufRead_bufWrite (a c : Nat) (v : Word) (s : State) :
    bufRead (bufWrite a v s) c = if c = a then v else bufRead s c := by
  split
  · rename_i h; rw [h, bufRead_bufWrite_same]
  · rename_i h; exact bufRead_bufWrite_of_ne v s h

/-- `bufRead` looks at the memory and the reset count only. -/
theorem bufRead_congr {s t : State} (hb : t.buf = s.buf) (he : t.era = s.era) (a : Nat) :
    bufRead t a = bufRead s a := by
  simp [bufRead, hb, he]

/-- `sampleRead` looks at the memory and the reset count only. -/
theorem sampleRead_congr {s t : State} (hb : t.buf = s.buf) (he : t.era = s.era) (j : Nat) :
    sampleRead t j = sampleRead s j := by
  simp [sampleRead, bufRead_congr hb he]

/-- A written sample reads back. -/
theorem sampleRead_sampleWrite_same (j : Nat) (z : Word × Word) (s : State) :
    sampleRead (sampleWrite j z s) j = z := by
  simp [sampleRead, sampleWrite, bufRead_bufWrite]

/-- A write of a sample leaves every other sample as it was. -/
theorem sampleRead_sampleWrite_of_ne {j c : Nat} (z : Word × Word) (s : State) (h : c ≠ j) :
    sampleRead (sampleWrite j z s) c = sampleRead s c := by
  have h1 : 2 * c ≠ 2 * j := by omega
  have h2 : 2 * c ≠ 2 * j + 1 := by omega
  have h3 : 2 * c + 1 ≠ 2 * j := by omega
  simp [sampleRead, sampleWrite, bufRead_bufWrite, h1, h2, h3]

/-- Reading a sample after a write, in one equation. -/
theorem sampleRead_sampleWrite (j c : Nat) (z : Word × Word) (s : State) :
    sampleRead (sampleWrite j z s) c = if c = j then z else sampleRead s c := by
  split
  · rename_i h; rw [h, sampleRead_sampleWrite_same]
  · rename_i h; exact sampleRead_sampleWrite_of_ne z s h

/-- A write of a sample leaves every word outside it as it was. -/
theorem bufRead_sampleWrite_of_ne {j a : Nat} (z : Word × Word) (s : State) (h0 : a ≠ 2 * j)
    (h1 : a ≠ 2 * j + 1) : bufRead (sampleWrite j z s) a = bufRead s a := by
  simp [sampleWrite, bufRead_bufWrite, h0, h1]

/-- The word of four little-endian bytes is the word (R68). -/
theorem word_of_busBytes (w : Word) :
    w.toNat = (busByte w 0).toNat + 2 ^ 8 * (busByte w 1).toNat + 2 ^ 16 * (busByte w 2).toNat +
      2 ^ 24 * (busByte w 3).toNat := by
  have := w.isLt
  simp only [busByte, BitVec.toNat_ofNat]
  omega

end Sys2Proof.Machine
end

