-- ==== Sys2Proof/Laws/Ops.lean ====
section
/-! SUPPORT. What each shared operation can do, said once. -/

namespace Sys2Proof.Machine

/-! ### Taking a fault -/

/-- Writing a list of unspecified words: a frame, and the words. -/
theorem scramble_loop (d n : Nat) (s : State) :
    let t := forUpTo n (fun a t => bufWrite a (Config.freeWord (d + a)) t) s
    t = { s with buf := t.buf } ∧
      ∀ a, bufRead t a = if a < n then Config.freeWord (d + a) else bufRead s a := by
  refine forUpTo_induct (P := fun m t => t = { s with buf := t.buf } ∧
      ∀ a, bufRead t a = if a < m then Config.freeWord (d + a) else bufRead s a)
    ⟨rfl, fun a => by rw [if_neg (Nat.not_lt_zero a)]⟩ ?_
  rintro v t - ⟨ht, hr⟩
  refine ⟨by rw [ht]; rfl, fun a => ?_⟩
  rw [bufRead_bufWrite, hr]
  by_cases hav : a = v
  · subst hav; simp
  · simp only [hav, if_false]
    by_cases h : a < v
    · simp [h, Nat.lt_succ_of_lt h]
    · have : ¬ a < v + 1 := by omega
      simp [h, this]

/-- `scramble` changes the memory and the counter of free values only (R254). -/
theorem scramble_rest (n : Nat) (s : State) :
    scramble n s = { s with buf := (scramble n s).buf, draws := s.draws + n } := by
  have h := (scramble_loop s.draws n s).1
  unfold scramble draw
  rw [h]

/-- `scramble`, word by word (R254). -/
theorem bufRead_scramble (n a : Nat) (s : State) :
    bufRead (scramble n s) a =
      if a < n then Config.freeWord (s.draws + a) else bufRead s a := by
  have h := (scramble_loop s.draws n s).2 a
  rw [← h]
  exact bufRead_congr rfl rfl a

/-- `scramble` keeps the canonical form. -/
theorem scramble_wf (n : Nat) (s : State) (h : s.buf.wf = true) : (scramble n s).buf.wf = true :=
  forUpTo_induct (P := fun _ (t : State) => t.buf.wf = true) h fun _ t _ ht => insert_wf t.buf _ _ ht

/-- `scramble` writes below its bound only. -/
theorem scramble_bounded (n : Nat) {m : Nat} (s : State) (hn : n ≤ m) (h : ∀ p ∈ s.buf, p.1 < m) :
    ∀ p ∈ (scramble n s).buf, p.1 < m :=
  forUpTo_induct (P := fun _ (t : State) => ∀ p ∈ t.buf, p.1 < m) h
    fun _ _ hv ht => insert_bounded _ ht (Nat.lt_of_lt_of_le hv hn)

/-- `BUSY_VIOLATION`, field by field (R254). -/
theorem busyViolation_eq (s : State) :
    busyViolation s =
      { s with
        buf := (scramble (runningWords s) s).buf
        draws := s.draws + runningWords s
        status := s.status.abandon.record .busyViolation
        seq := { s.seq with phase := .halt } } := by
  unfold busyViolation raiseFault
  rw [scramble_rest]

/-- `BUSY_VIOLATION`, word by word (R254). -/
theorem bufRead_busyViolation (a : Nat) (s : State) :
    bufRead (busyViolation s) a =
      if a < runningWords s then Config.freeWord (s.draws + a) else bufRead s a := by
  rw [← bufRead_scramble]
  exact bufRead_congr rfl rfl a

/-! ### The write of a command word -/

/-- The four outcomes of a `CMD` write (R91, R257). -/
theorem commandGate_cases (v : Word) (legal : Bool) (body : State → State) (s : State) :
    (s.status.err = true ∧ commandGate v legal body s = s) ∨
    (s.status.err = false ∧ s.status.busy = true ∧ commandGate v legal body s = busyViolation s) ∨
    (Ready s ∧ legal = true ∧ commandGate v legal body s = body { s with cmd := v }) ∨
    (Ready s ∧ legal = false ∧
      commandGate v legal body s = raiseFault .illegalCmd { s with cmd := v }) := by
  unfold commandGate Ready
  cases s.status.err <;> cases s.status.busy <;> cases legal <;> simp

/-- Halted, a `CMD` write is ignored (R255). -/
theorem commandGate_of_err {v : Word} {legal : Bool} {body : State → State} {s : State}
    (h : s.status.err = true) : commandGate v legal body s = s := by
  simp [commandGate, h]

/-- Busy, a `CMD` write is a violation (R254). -/
theorem commandGate_of_busy {v : Word} {legal : Bool} {body : State → State} {s : State}
    (he : s.status.err = false) (hb : s.status.busy = true) :
    commandGate v legal body s = busyViolation s := by
  simp [commandGate, he, hb]

/-- Ready, a legal word starts its command (R91). -/
theorem commandGate_of_ready {v : Word} {body : State → State} {s : State} (h : Ready s) :
    commandGate v true body s = body { s with cmd := v } := by
  simp [commandGate, h.1, h.2]

/-- Ready, an illegal word is a fault (R253). -/
theorem commandGate_of_illegal {v : Word} {body : State → State} {s : State} (h : Ready s) :
    commandGate v false body s = raiseFault .illegalCmd { s with cmd := v } := by
  simp [commandGate, h.1, h.2]

/-- The effect of a legal command by its kind and size (R168, R206). -/
def commandBody (i : Instr) : State → State :=
  match i.kind with
  | .complex => cfftBody i.lg
  | .real => rfftBody i.lg

/-- Every command is its word at the gate, with its body behind it. -/
theorem exec_eq_gate (i : Instr) (s : State) :
    exec i s = .next (commandGate (encode i) (i.legalOn s.build) (commandBody i) s) := by
  have h : ∀ lg, 2 ≤ lg → decide (2 ≤ lg ∧ lg ≤ s.build.lgmax) = decide (lg ≤ s.build.lgmax) :=
    fun lg h2 => by simp [h2]
  cases i <;>
    exact congrArg (fun b => Host.Outcome.next (commandGate _ b _ s)) (h _ (by decide))

/-- What a `CMD` write runs (R91). -/
theorem cmdWrite_cases {v : Word} {s t : State} (h : cmdWrite v s = .next t) :
    ((∃ e, decode v = .error e) ∧ t = commandGate v false id s) ∨
    (∃ i, decode v = .ok i ∧ contended s = true ∧ t = startCommand i s) ∨
    (∃ i, decode v = .ok i ∧ contended s = false ∧ exec i s = .next t) := by
  unfold cmdWrite at h
  split at h
  · rename_i e he; cases h; exact .inl ⟨⟨e, he⟩, rfl⟩
  · rename_i i hi
    split at h
    · rename_i hc; cases h; exact .inr (.inl ⟨i, hi, hc, rfl⟩)
    · rename_i hc; exact .inr (.inr ⟨i, hi, by simpa using hc, h⟩)

/-! ### The host's accesses and the step -/

/-- An address is the word `n` of a window exactly when it is `base + 4 * n` (R67). -/
theorem busIndex_eq_some {base addr n : Nat} : busIndex base addr = some n ↔ addr = base + 4 * n := by
  unfold busIndex
  split
  · rw [Option.some.injEq]; omega
  · simp only [reduceCtorEq, false_iff]; omega

/-- An address is no word of a window exactly when it is no `base + 4 * n` (R67). -/
theorem busIndex_eq_none {base addr : Nat} : busIndex base addr = none ↔ ∀ n, addr ≠ base + 4 * n := by
  rw [Option.eq_none_iff_forall_ne_some]
  exact forall_congr' fun _ => not_congr busIndex_eq_some

/-- A read that is not the block's, field by field (R67; log 11). -/
theorem elsewhereRead_eq (s : State) :
    elsewhereRead s =
      { s with draws := s.draws + 1, replies := Config.freeWord s.draws :: s.replies } := rfl

/-- What a read at the port can do (R64). -/
theorem portRead_cases {space : Space} {addr width : Nat} {s t : State}
    (h : portRead space addr width s = .next t) :
    width = 4 ∧ ((space = .reg ∧ t = reply (regRead s addr) s) ∨
      (space = .buf ∧ t = bufPortRead addr s)) := by
  unfold portRead at h
  split at h
  · cases h
  · rename_i hw
    cases space <;> cases h <;> simp at hw ⊢ <;> exact hw

/-- What a write at the port can do (R65). -/
theorem portWrite_cases {space : Space} {addr width : Nat} {v : Word} {s t : State}
    (h : portWrite space addr width v s = .next t) :
    width = 4 ∧ ((space = .reg ∧ addr = 0 ∧ cmdWrite v s = .next t) ∨
      (space = .reg ∧ addr ≠ 0 ∧ t = s) ∨ (space = .buf ∧ t = bufPortWrite addr v s)) := by
  unfold portWrite at h
  split at h
  · cases h
  · rename_i hw
    refine ⟨by simpa using hw, ?_⟩
    cases space
    · dsimp only at h
      split at h
      · rename_i ha; exact .inl ⟨rfl, ha, h⟩
      · rename_i ha; cases h; exact .inr (.inl ⟨rfl, ha, rfl⟩)
    · cases h; exact .inr (.inr ⟨rfl, rfl⟩)

/-- What an act of the host can do: a read of a register or of `BUF`, a `CMD` write, an ignored register
write, a write of `BUF`, reset, or a bus access that is not the block's (R64, R65, R67, R280). -/
theorem hostAccess_cases {op : PortOp} {s t : State} (h : hostAccess op s = .next t) :
    (∃ n, t = reply (regRead s n) s) ∨ (∃ a, t = bufPortRead a s) ∨
    (∃ v, cmdWrite v s = .next t) ∨ t = s ∨ (∃ a v, t = bufPortWrite a v s) ∨
    (op = .reset ∧ t = resetBlock s) ∨ t = elsewhereRead s := by
  have hr : ∀ {sp a w}, portRead sp a w s = .next t →
      (∃ n, t = reply (regRead s n) s) ∨ (∃ a, t = bufPortRead a s) := fun hp => by
    obtain ⟨-, ⟨-, h⟩ | ⟨-, h⟩⟩ := portRead_cases hp
    · exact .inl ⟨_, h⟩
    · exact .inr ⟨_, h⟩
  have hw : ∀ {sp a w v}, portWrite sp a w v s = .next t →
      (∃ v, cmdWrite v s = .next t) ∨ t = s ∨ (∃ a v, t = bufPortWrite a v s) := fun hp => by
    obtain ⟨-, ⟨-, -, h⟩ | ⟨-, -, h⟩ | ⟨-, h⟩⟩ := portWrite_cases hp
    · exact .inl ⟨_, h⟩
    · exact .inr (.inl h)
    · exact .inr (.inr ⟨_, _, h⟩)
  cases op with
  | read => obtain h | h := hr h <;> simp only [h, true_or, or_true]
  | write => obtain h | h | h := hw h <;> simp only [h, true_or, or_true]
  | busRead addr width =>
    simp only [hostAccess] at h
    split at h
    · obtain h | h := hr h <;> simp only [h, true_or, or_true]
    · split at h
      · cases h
      · cases h; simp only [or_true]
    · cases h
  | busWrite addr width v =>
    simp only [hostAccess] at h
    split at h
    · obtain h | h | h := hw h <;> simp only [h, true_or, or_true]
    · split at h
      · cases h
      · cases h; simp only [true_or, or_true]
    · cases h
  | reset => cases h; simp

/-- The engine's turn is a micro-operation with operands in range (R112). -/
theorem engineTurn_cases {s t : State} (h : engineTurn s = .next t) :
    operandsInRange s.build s.seq = true ∧ t = engineStep s := by
  unfold engineTurn at h
  split at h
  · rename_i hr; cases h; exact ⟨hr, rfl⟩
  · cases h

/-- The engine's turn with operands in range (R36). -/
theorem engineTurn_of_inRange {s : State} (h : operandsInRange s.build s.seq = true) :
    engineTurn s = .next (engineStep s) := if_pos h

/-- What a step can do: a micro-operation, or an act of the host. -/
theorem step_cases {s t : State} (h : step s = .next t) :
    (s.port = [] ∧ t = engineStep s) ∨
    (∃ a rest, s.port = a :: rest ∧ a.waits s.status.busy = true ∧
      t = engineStep { s with port := a.tick :: rest }) ∨
    (∃ a rest, s.port = a :: rest ∧ a.waits s.status.busy = false ∧
      hostAccess a.op { s with port := rest } = .next t) := by
  unfold step at h
  split at h
  · rename_i hp; exact .inl ⟨hp, (engineTurn_cases h).2⟩
  · rename_i a rest hp
    split at h
    · rename_i hw; exact .inr (.inl ⟨a, rest, hp, hw, (engineTurn_cases h).2⟩)
    · rename_i hw; exact .inr (.inr ⟨a, rest, hp, by simpa using hw, h⟩)

/-- No step ends in a fault (R252, R258). -/
theorem step_ne_fault (s : State) (f : Fault) : step s ≠ .fault f := nomatch f

end Sys2Proof.Machine
end

