-- ==== Sys2Proof/Laws/Engine.lean ====
section
/-! SUPPORT. What the engine's operations change: the memory below a bound and the counter of free values,
and nothing else. -/

namespace Sys2Proof.Machine

/-! ### Reversed indices stay in range -/

/-- The accumulator of `b` rounds has `b` bits (R141). -/
theorem bitrevComputed_lt (lg i : Nat) : bitrevComputed lg i < 2 ^ lg := by
  refine forUpTo_induct (P := fun b r => r < 2 ^ b) (by simp) fun b r _ hr => ?_
  have h1 : r <<< 1 < 2 ^ (b + 1) := by rw [Nat.shiftLeft_eq, pow_succ]; omega
  have h2 : (i >>> b) &&& 1 < 2 ^ (b + 1) :=
    Nat.lt_of_le_of_lt Nat.and_le_right (Nat.one_lt_two_pow (Nat.succ_ne_zero b))
  exact Nat.or_lt_two_pow h1 h2

/-- The defining sum stays below the size (R140). -/
theorem bitrevSum_lt (lg i : Nat) : bitrevSum lg i < 2 ^ lg := by
  have hle : bitrevSum lg i ≤ ((List.range lg).map fun b => 2 ^ (lg - 1 - b)).sum := by
    refine List.sum_le_sum fun b _ => ?_
    have : i / 2 ^ b % 2 ≤ 1 := by omega
    calc i / 2 ^ b % 2 * 2 ^ (lg - 1 - b) ≤ 1 * 2 ^ (lg - 1 - b) := Nat.mul_le_mul_right _ this
      _ = _ := Nat.one_mul _
  have hsum : ((List.range lg).map fun b => 2 ^ (lg - 1 - b)).sum < 2 ^ lg := by
    have : ((List.range lg).map fun b => 2 ^ (lg - 1 - b)).sum =
        ∑ b ∈ Finset.range lg, 2 ^ (lg - 1 - b) := rfl
    rw [this, Finset.sum_range_reflect (fun b => 2 ^ b) lg]
    exact Nat.geomSum_lt (le_refl 2) (by simp)
  omega

/-- A reversed index is an index (R140). -/
theorem bitrev_lt (st : Strategy) {lg i : Nat} (h : i < 2 ^ lg) : bitrev st lg i < 2 ^ lg := by
  cases st with
  | computed => exact bitrevComputed_lt lg i
  | tabled =>
    have : (brevRom lg i).toNat ≤ bitrevSum lg i := by
      simp only [brevRom, brevTable, List.getElem?_map, List.getElem?_range h, Option.map_some,
        Option.getD_some, BitVec.toNat_ofNat]
      exact Nat.mod_le _ _
    exact Nat.lt_of_le_of_lt this (bitrevSum_lt lg i)

/-! ### The frame of the engine -/

/-- `t` is `s` but for the memory and the counter of free values, and every word from `w` on reads as
before. The canonical form, and every bound of at least `w` on the indices, are kept. -/
structure Touches (w : Nat) (s t : State) : Prop where
  rest : t = { s with buf := t.buf, draws := t.draws }
  outside : ∀ a, w ≤ a → bufRead t a = bufRead s a
  wf : s.buf.wf = true → t.buf.wf = true
  bounded : ∀ n, w ≤ n → (∀ p ∈ s.buf, p.1 < n) → ∀ p ∈ t.buf, p.1 < n

theorem Touches.refl (w : Nat) (s : State) : Touches w s s :=
  ⟨rfl, fun _ _ => rfl, id, fun _ _ h => h⟩

theorem Touches.trans {w : Nat} {s t u : State} (h : Touches w s t) (k : Touches w t u) :
    Touches w s u where
  rest := by
    rw [k.rest, h.rest]
  outside a ha := (k.outside a ha).trans (h.outside a ha)
  wf hs := k.wf (h.wf hs)
  bounded n hn hs := k.bounded n hn (h.bounded n hn hs)

theorem Touches.mono {w w' : Nat} {s t : State} (h : Touches w s t) (hw : w ≤ w') :
    Touches w' s t :=
  ⟨h.rest, fun a ha => h.outside a (hw.trans ha), h.wf, fun n hn => h.bounded n (hw.trans hn)⟩

theorem Touches.build {w : Nat} {s t : State} (h : Touches w s t) : t.build = s.build := by
  rw [h.rest]

theorem Touches.era {w : Nat} {s t : State} (h : Touches w s t) : t.era = s.era := by rw [h.rest]

theorem Touches.status {w : Nat} {s t : State} (h : Touches w s t) : t.status = s.status := by
  rw [h.rest]

theorem Touches.seq {w : Nat} {s t : State} (h : Touches w s t) : t.seq = s.seq := by rw [h.rest]

/-- A loop of touching bodies touches. -/
theorem Touches.loop {w n : Nat} {body : Nat → State → State} {s : State}
    (h : ∀ v t, v < n → Touches w s t → Touches w t (body v t)) : Touches w s (forUpTo n body s) :=
  forUpTo_induct (P := fun _ t => Touches w s t) (Touches.refl w s) fun v t hv ht => ht.trans (h v t hv ht)

theorem sampleWrite_touches {w j : Nat} (z : Word × Word) (s : State) (h : 2 * j + 1 < w) :
    Touches w s (sampleWrite j z s) where
  rest := rfl
  outside a ha := bufRead_sampleWrite_of_ne z s (by omega) (by omega)
  wf hs := insert_wf _ _ _ (insert_wf _ _ _ hs)
  bounded _ _ hs := insert_bounded _ (insert_bounded _ hs (by omega)) (by omega)

theorem draw_touches (w n : Nat) (s : State) : Touches w s (draw n s) :=
  ⟨rfl, fun a _ => bufRead_congr rfl rfl a, id, fun _ _ h => h⟩

theorem swapSamples_touches {w i j : Nat} (s : State) (hi : 2 * i + 1 < w) (hj : 2 * j + 1 < w) :
    Touches w s (swapSamples i j s) :=
  (sampleWrite_touches _ s hi).trans (sampleWrite_touches _ _ hj)

theorem butterfly_touches {w ia ib : Nat} (cs : Word × Word) (s : State) (ha : 2 * ia + 1 < w)
    (hb : 2 * ib + 1 < w) : Touches w s (butterfly ia ib cs s) :=
  ((sampleWrite_touches _ s ha).trans (sampleWrite_touches _ _ hb)).trans (draw_touches w 10 _)

/-- A step of `PERMUTE` stays inside the kernel pass (R145). -/
theorem permuteAt_touches {w lg i : Nat} (st : Strategy) (s : State) (hi : i < 2 ^ lg)
    (hw : 2 * 2 ^ lg ≤ w) : Touches w s (permuteAt (bitrev st lg) swapSamples i s) := by
  unfold permuteAt
  split
  · have := bitrev_lt st hi
    exact swapSamples_touches s (by omega) (by omega)
  · exact Touches.refl w s

/-- `PERMUTE` stays inside the kernel pass (R145). -/
theorem permute_touches {w lg : Nat} (s : State) (hw : 2 * 2 ^ lg ≤ w) :
    Touches w s (permute lg s) :=
  Touches.loop fun _ t hv _ => permuteAt_touches _ t hv hw

/-- A butterfly of a stage stays inside its group (R164). -/
theorem stageAt_touches {w stage base k : Nat} (s : State) (hk : k < 2 ^ stage / 2)
    (hw : 2 * (base + 2 ^ stage) ≤ w) : Touches w s (stageAt stageButterfly stage base k s) :=
  butterfly_touches _ s (by omega) (by omega)

/-- A stage stays inside the kernel pass (R165). -/
theorem stagePass_touches {w m stage : Nat} (s : State) (hw : 2 * m ≤ w) :
    Touches w s (stageWith stageButterfly m stage s) := by
  refine Touches.loop fun g t hg _ => Touches.loop fun k u hk _ => stageAt_touches u hk ?_
  have h1 : (g + 1) * 2 ^ stage ≤ m / 2 ^ stage * 2 ^ stage := Nat.mul_le_mul_right _ hg
  have h2 : m / 2 ^ stage * 2 ^ stage ≤ m := Nat.div_mul_le_self _ _
  rw [Nat.add_mul, Nat.one_mul] at h1
  omega

/-- The kernel stays inside its pass (R166). -/
theorem cfftCore_touches {w lg : Nat} (s : State) (hw : 2 * 2 ^ lg ≤ w) :
    Touches w s (cfftCore lg s) :=
  (permute_touches s hw).trans (Touches.loop fun _ t _ _ => stagePass_touches t hw)

theorem recombineBin0_touches {w : Nat} (s : State) (hw : 1 < w) : Touches w s (recombineBin0 s) :=
  (sampleWrite_touches _ s (by omega)).trans (draw_touches w 2 _)

theorem recombinePair_touches {w n k : Nat} (s : State) (hk : 0 < k) (hn : k < n / 2) (hw : n ≤ w) :
    Touches w s (recombinePair n k s) :=
  ((sampleWrite_touches _ s (by omega)).trans (sampleWrite_touches _ _ (by omega))).trans
    (draw_touches w 18 _)

theorem recombineMid_touches {w n : Nat} (s : State) (h4 : 4 ≤ n) (hw : n ≤ w) :
    Touches w s (recombineMid n s) :=
  sampleWrite_touches _ s (by omega)

/-- The recombination stays inside the operand (R203). -/
theorem recombine_touches {w n : Nat} (s : State) (h4 : 4 ≤ n) (hw : n ≤ w) :
    Touches w s (recombine n s) :=
  ((recombineBin0_touches s (by omega)).trans
    (Touches.loop fun _ t hv _ => recombinePair_touches t (by omega) (by omega) hw)).trans
    (recombineMid_touches _ h4 hw)

/-- The real transform stays inside its operand (R206). -/
theorem rfftCore_touches {w lg : Nat} (s : State) (h2 : 2 ≤ lg) (hw : 2 ^ lg ≤ w) :
    Touches w s (rfftCore lg s) := by
  have h : 2 * 2 ^ (lg - 1) = 2 ^ lg := by
    obtain ⟨l, rfl⟩ : ∃ l, lg = l + 1 := ⟨lg - 1, by omega⟩
    rw [Nat.add_sub_cancel, pow_succ, Nat.mul_comm]
  have h4 : 4 ≤ 2 ^ lg := Nat.pow_le_pow_right (n := 2) (by decide) h2
  exact (cfftCore_touches s (h ▸ hw)).trans (recombine_touches _ h4 hw)

/-! ### Operands in range -/

/-- The two table reads of a twiddle lookup are in the range of `SIN` (R112, R115). -/
theorem sinInRange_of_twiddle {b : Build} {k n : Nat} (h : twiddleInRange b k n = true) (h2 : n ≠ 2) :
    sinInRange b (n / 4 - k % (n / 4)) n = true ∧ sinInRange b (k % (n / 4)) n = true := by
  simp only [twiddleInRange, sinInRange, isSize, Bool.and_eq_true, decide_eq_true_eq] at h ⊢
  obtain ⟨⟨hp, hlo, hmax⟩, -, -⟩ := h
  have h4 : 4 ≤ n := by
    rw [← hp] at hlo h2 ⊢
    rcases hl : Nat.log2 n with _ | _ | l
    · rw [hl] at hlo; simp at hlo
    · rw [hl] at h2; simp at h2
    · rw [pow_add]; have := Nat.one_le_two_pow (n := l); omega
  exact ⟨⟨⟨hp, h4, hmax⟩, Nat.sub_le _ _⟩, ⟨hp, h4, hmax⟩, (Nat.mod_lt _ (by omega)).le⟩

/-- A power of two up to `MAXN` is a size of the build. -/
theorem isSize_two_pow {b : Build} {lo lg : Nat} (hlo : lo ≤ 2 ^ lg) (hlg : lg ≤ b.lgmax) :
    isSize b lo (2 ^ lg) = true := by
  simp only [isSize, Nat.log2_two_pow, decide_eq_true_eq]
  exact ⟨trivial, hlo, Nat.pow_le_pow_right (n := 2) (by decide) hlg⟩

/-- Every command has a size of at least 4 (R92). -/
theorem two_le_lg (i : Instr) : 2 ≤ i.lg := by cases i <;> decide

/-- The kernel pass of a legal command has a size of the build (R36, R200). -/
theorem kernelSize_two_pow (i : Instr) {n : Nat} (h : i.lg ≤ n) :
    ∃ l, l ≤ n ∧ kernelSize i = 2 ^ l := by
  have h2 := two_le_lg i
  unfold kernelSize Instr.size
  cases i.kind
  · exact ⟨i.lg, h, rfl⟩
  · exact ⟨i.lg - 1, by omega, (Nat.pow_div (x := 2) (n := 1) (by omega) (by decide))⟩

/-- In the invariant no micro-operation has operands outside its range (R77, R118). -/
theorem operandsInRange_of_inv {s : State} (h : BlockInv s) : operandsInRange s.build s.seq = true := by
  obtain ⟨-, -, ⟨hhalt, hidle⟩, hrun⟩ := h
  by_cases hb : s.status.busy = true
  · obtain ⟨i, -, hlegal, hn, hm, hx⟩ := hrun hb
    have hlg : i.lg ≤ s.build.lgmax := by simpa [Instr.legalOn] using hlegal
    have h2 := two_le_lg i
    obtain ⟨l, hl, hml⟩ : ∃ l, l ≤ s.build.lgmax ∧ s.seq.m = 2 ^ l := by
      rw [hm]; exact kernelSize_two_pow i hlg
    rcases hx with ⟨hp, hi⟩ | ⟨hp, h1, hs, -, hbase, hk⟩ | ⟨hp, -, hk⟩
    · simp only [operandsInRange, hp, hml, isSize_two_pow Nat.one_le_two_pow hl, Bool.true_and,
        decide_eq_true_eq]
      rwa [hml] at hi
    · rw [hml, Nat.log2_two_pow] at hs
      have hspan : 2 ≤ 2 ^ s.seq.stage := Nat.pow_le_pow_right (n := 2) (by decide) h1
      rw [hml] at hbase
      simp only [operandsInRange, hp, hml, twiddleInRange, isSize_two_pow Nat.one_le_two_pow hl,
        isSize_two_pow hspan (hs.trans hl), Bool.true_and, Bool.and_eq_true, decide_eq_true_eq]
      omega
    · have h4 : 4 ≤ 2 ^ i.lg := Nat.pow_le_pow_right (n := 2) (by decide) h2
      simp only [operandsInRange, hp, hn, Instr.size, isSize_two_pow h4 hlg, Bool.true_and,
        decide_eq_true_eq]
      rwa [hn] at hk
  · cases he : s.status.err with
    | true => simp only [operandsInRange, hhalt.2 he]
    | false => simp only [operandsInRange, hidle.2 ⟨he, by simpa using hb⟩]

/-! ### The sequencer -/

/-- Idle and halted, the engine does nothing (R36). -/
theorem engineStep_of_not_running {s : State} (h : s.seq.phase = .idle ∨ s.seq.phase = .halt) :
    engineStep s = s := by
  rcases h with h | h <;> simp only [engineStep, h]

/-- The micro-operation of each phase (R36, R187). -/
theorem engineStep_of_permute {s : State} (h : s.seq.phase = .permute) :
    engineStep s = permuteStep s := by
  simp only [engineStep, h]

theorem engineStep_of_stages {s : State} (h : s.seq.phase = .stages) :
    engineStep s = butterflyStep s := by
  simp only [engineStep, h]

theorem engineStep_of_recombine {s : State} (h : s.seq.phase = .recombine) :
    engineStep s = recombineStep s := by
  simp only [engineStep, h]

/-- What a butterfly step can do (R165, R168, R204). -/
theorem butterflyStep_cases (s : State) :
    (∃ q, seqAfterButterfly s.seq = some q ∧ butterflyStep s =
      { stageAt stageButterfly s.seq.stage s.seq.base s.seq.k s with seq := q }) ∨
    (seqAfterButterfly s.seq = none ∧ butterflyStep s =
      afterKernel s.seq (stageAt stageButterfly s.seq.stage s.seq.base s.seq.k s)) := by
  cases h : seqAfterButterfly s.seq with
  | some q => exact .inl ⟨q, rfl, by simp only [butterflyStep, h]⟩
  | none => exact .inr ⟨rfl, by simp only [butterflyStep, h]⟩

/-- What a recombination step can do (R203). -/
theorem recombineStep_cases (s : State) :
    (s.seq.k = 0 ∧ recombineStep s = { recombineBin0 s with seq := { s.seq with k := 1 } }) ∨
    (0 < s.seq.k ∧ s.seq.k < s.seq.n / 4 ∧ recombineStep s =
      { recombinePair s.seq.n s.seq.k s with seq := { s.seq with k := s.seq.k + 1 } }) ∨
    (0 < s.seq.k ∧ s.seq.n / 4 ≤ s.seq.k ∧
      recombineStep s = complete (recombineMid s.seq.n s)) := by
  unfold recombineStep
  split
  · rename_i h; exact .inl ⟨h, rfl⟩
  · rename_i h
    split
    · rename_i h4; exact .inr (.inl ⟨Nat.pos_of_ne_zero h, h4, rfl⟩)
    · rename_i h4; exact .inr (.inr ⟨Nat.pos_of_ne_zero h, Nat.le_of_not_lt h4, rfl⟩)

end Sys2Proof.Machine
end

