-- ==== Sys2Proof/Laws/PerInstr.lean ====
section
/-! SUPPORT. Statements for all instructions, one lemma a constructor. -/

namespace Sys2Proof.Laws.EncodedFields

/-- The three fields of a command word are the command's: `LG`, `KIND`, and zeros above (R90, R93). -/
def Statement (i : Instr) : Prop :=
  fieldLg (encode i) = i.lg ∧ fieldKind (encode i) = i.kind ∧ fieldZero (encode i) = 0 ∧
    2 ≤ i.lg ∧ i.lg ≤ 14

theorem cfft4 : Statement .cfft4 := by unfold Statement; decide

theorem cfft8 : Statement .cfft8 := by unfold Statement; decide

theorem cfft16 : Statement .cfft16 := by unfold Statement; decide

theorem cfft32 : Statement .cfft32 := by unfold Statement; decide

theorem cfft64 : Statement .cfft64 := by unfold Statement; decide

theorem cfft128 : Statement .cfft128 := by unfold Statement; decide

theorem cfft256 : Statement .cfft256 := by unfold Statement; decide

theorem cfft512 : Statement .cfft512 := by unfold Statement; decide

theorem cfft1024 : Statement .cfft1024 := by unfold Statement; decide

theorem cfft2048 : Statement .cfft2048 := by unfold Statement; decide

theorem cfft4096 : Statement .cfft4096 := by unfold Statement; decide

theorem cfft8192 : Statement .cfft8192 := by unfold Statement; decide

theorem cfft16384 : Statement .cfft16384 := by unfold Statement; decide

theorem rfft4 : Statement .rfft4 := by unfold Statement; decide

theorem rfft8 : Statement .rfft8 := by unfold Statement; decide

theorem rfft16 : Statement .rfft16 := by unfold Statement; decide

theorem rfft32 : Statement .rfft32 := by unfold Statement; decide

theorem rfft64 : Statement .rfft64 := by unfold Statement; decide

theorem rfft128 : Statement .rfft128 := by unfold Statement; decide

theorem rfft256 : Statement .rfft256 := by unfold Statement; decide

theorem rfft512 : Statement .rfft512 := by unfold Statement; decide

theorem rfft1024 : Statement .rfft1024 := by unfold Statement; decide

theorem rfft2048 : Statement .rfft2048 := by unfold Statement; decide

theorem rfft4096 : Statement .rfft4096 := by unfold Statement; decide

theorem rfft8192 : Statement .rfft8192 := by unfold Statement; decide

theorem rfft16384 : Statement .rfft16384 := by unfold Statement; decide

end Sys2Proof.Laws.EncodedFields
end

