-- ==== Sys2Proof/Tests/Slice0.lean ====
section
/-! SUPPORT. Tests of the model against the vectors of spec/95_test_vectors.md and the tables of the rules
(each test names its source), and for every statement with hypotheses a state and operands that meet them
(the theorems named meets_). -/

namespace Sys2Proof.Tests

open Sys2Proof.Machine Sys2Proof.Slice0

/-! ### Small states -/

/-- After reset, with these words written from word 0 on. -/
def withWords (ws : List Nat) : State :=
  { State.reset with buf := (List.range ws.length).zip (ws.map (BitVec.ofNat 32)) }

/-- The first `n` words after a step that goes on. -/
def wordsAfter (n : Nat) (o : Host.Outcome State Fault Refusal) : List Word :=
  match o with
  | .next t => (List.range n).map (bufRead t)
  | _ => []

/-- `CMD`, `STATUS` and the sequencer's phase after a step that goes on. -/
def registersAfter (o : Host.Outcome State Fault Refusal) : Option (Word × Word × Phase) :=
  match o with
  | .next t => some (t.cmd, t.status.word, t.seq.phase)
  | _ => none

/-- The word the host's read returned, after a step that goes on. -/
def replyAfter (o : Host.Outcome State Fault Refusal) : Option Word :=
  match o with
  | .next t => t.replies.head?
  | _ => none

/-- The build `MAXN = 1024`, `COMPUTED` (V42). -/
def build1024 : Build := ⟨10, .computed, by decide, by decide⟩

/-- After reset, on the build `MAXN = 1024`. -/
def state1024 : State := { State.reset with build := build1024 }

/-- `CFFT_8` has been accepted and runs. -/
def busyState : State := startCommand .cfft8 State.reset

/-- An illegal word has been written. -/
def haltedState : State :=
  { State.reset with
    cmd := 0xF#32
    status := ⟨false, false, true, 1#4⟩
    seq := { Seq.idle with phase := .halt } }

/-- `s` with one access pending, presented at once. -/
def offer (s : State) (op : PortOp) : State := { s with port := [⟨op, some 0⟩] }

/-! ### WellFormed, build, decode -/

/-- R94, V42: size 2048 is no command of the build `MAXN = 1024`; size 1024 is. -/
theorem test_legalOn_refuses_oversize :
    Instr.legalOn build1024 .cfft2048 = false ∧ Instr.legalOn build1024 .rfft2048 = false ∧
      Instr.legalOn build1024 .cfft1024 = true ∧ Instr.legalOn build1024 .rfft1024 = true := by
  decide

/-- R9: no build beyond the ceiling, below 4, or of a size that is no power of two. -/
theorem test_build_refused :
    Build.ofMaxn 32768 .computed = none ∧ Build.ofMaxn 2 .computed = none ∧
      Build.ofMaxn 1000 .tabled = none ∧ Build.ofMaxn 1024 .computed = some build1024 := by
  decide

/-- R93: the word of every command, its bits written out as `ZERO`, `KIND`, `LG`. -/
theorem test_decode_complex_words :
    decode 0b000000000000000000000000000_0_0010#32 = .ok .cfft4 ∧
    decode 0b000000000000000000000000000_0_0011#32 = .ok .cfft8 ∧
    decode 0b000000000000000000000000000_0_0100#32 = .ok .cfft16 ∧
    decode 0b000000000000000000000000000_0_0101#32 = .ok .cfft32 ∧
    decode 0b000000000000000000000000000_0_0110#32 = .ok .cfft64 ∧
    decode 0b000000000000000000000000000_0_0111#32 = .ok .cfft128 ∧
    decode 0b000000000000000000000000000_0_1000#32 = .ok .cfft256 ∧
    decode 0b000000000000000000000000000_0_1001#32 = .ok .cfft512 ∧
    decode 0b000000000000000000000000000_0_1010#32 = .ok .cfft1024 ∧
    decode 0b000000000000000000000000000_0_1011#32 = .ok .cfft2048 ∧
    decode 0b000000000000000000000000000_0_1100#32 = .ok .cfft4096 ∧
    decode 0b000000000000000000000000000_0_1101#32 = .ok .cfft8192 ∧
    decode 0b000000000000000000000000000_0_1110#32 = .ok .cfft16384 := by
  refine ⟨?_, ?_, ?_, ?_, ?_, ?_, ?_, ?_, ?_, ?_, ?_, ?_, ?_⟩ <;> rfl

/-- R93: the same for the real commands. -/
theorem test_decode_real_words :
    decode 0b000000000000000000000000000_1_0010#32 = .ok .rfft4 ∧
    decode 0b000000000000000000000000000_1_0011#32 = .ok .rfft8 ∧
    decode 0b000000000000000000000000000_1_0100#32 = .ok .rfft16 ∧
    decode 0b000000000000000000000000000_1_0101#32 = .ok .rfft32 ∧
    decode 0b000000000000000000000000000_1_0110#32 = .ok .rfft64 ∧
    decode 0b000000000000000000000000000_1_0111#32 = .ok .rfft128 ∧
    decode 0b000000000000000000000000000_1_1000#32 = .ok .rfft256 ∧
    decode 0b000000000000000000000000000_1_1001#32 = .ok .rfft512 ∧
    decode 0b000000000000000000000000000_1_1010#32 = .ok .rfft1024 ∧
    decode 0b000000000000000000000000000_1_1011#32 = .ok .rfft2048 ∧
    decode 0b000000000000000000000000000_1_1100#32 = .ok .rfft4096 ∧
    decode 0b000000000000000000000000000_1_1101#32 = .ok .rfft8192 ∧
    decode 0b000000000000000000000000000_1_1110#32 = .ok .rfft16384 := by
  refine ⟨?_, ?_, ?_, ?_, ?_, ?_, ?_, ?_, ?_, ?_, ?_, ?_, ?_⟩ <;> rfl

/-- V41: the illegal words. -/
theorem test_decode_illegal_words :
    decode 0x00000000#32 = .error .sizeTooSmall ∧ decode 0x00000001#32 = .error .sizeTooSmall ∧
    decode 0x00000010#32 = .error .sizeTooSmall ∧ decode 0x00000011#32 = .error .sizeTooSmall ∧
    decode 0x0000000F#32 = .error .sizeTooLarge ∧ decode 0x0000001F#32 = .error .sizeTooLarge ∧
    decode 0x00000020#32 = .error .reservedBits ∧ decode 0x00000102#32 = .error .reservedBits ∧
    decode 0x80000002#32 = .error .reservedBits ∧ decode 0xFFFFFFFF#32 = .error .reservedBits := by
  refine ⟨?_, ?_, ?_, ?_, ?_, ?_, ?_, ?_, ?_, ?_⟩ <;> rfl

/-- The host's view of the decoder. -/
theorem test_decodeTableWord :
    decodeTableWord 32 0x13 = some .rfft8 ∧ decodeTableWord 8 0x13 = some .rfft8 ∧
      decodeTableWord 32 0x33 = none := by
  decide

/-! ### Arithmetic -/

/-- R16: ties to even, overflow, gradual underflow, signs of zero. -/
theorem test_fadd_corners :
    fadd 0#32 0x3F800000#32 0x33800000#32 = 0x3F800000#32 ∧
    fadd 0#32 0x3F800001#32 0x33800000#32 = 0x3F800002#32 ∧
    fadd 0#32 0x7F61B1E6#32 0x7F61B1E6#32 = 0x7F800000#32 ∧
    fadd 0#32 0x00000001#32 0x007FFFFF#32 = 0x00800000#32 ∧
    fadd 0#32 0x80000000#32 0x00000000#32 = 0x00000000#32 ∧
    fadd 0#32 0x80000000#32 0x80000000#32 = 0x80000000#32 ∧
    fsub 0#32 0x80000000#32 0x00000000#32 = 0x80000000#32 ∧
    fsub 0#32 0x00000000#32 0x80000000#32 = 0x00000000#32 := by
  decide +kernel

/-- R16: infinities and NaNs; the NaN word is the one supplied. -/
theorem test_infinities_and_nans :
    fsub 0x7FC00000#32 0x7F800000#32 0x7F800000#32 = 0x7FC00000#32 ∧
    fmul 0x7FC00000#32 0x00000000#32 0xFF800000#32 = 0x7FC00000#32 ∧
    fmul 0x7FC00000#32 0xC0000000#32 0x7F800000#32 = 0xFF800000#32 ∧
    fadd 0x7FC00000#32 0x7F800001#32 0x3F800000#32 = 0x7FC00000#32 := by
  decide +kernel

/-- R17, R221: products with a rounded operand, and halving into the subnormal range (a tie, to even). -/
theorem test_fmul_and_fhalf :
    fmul 0#32 0xC0800000#32 0x3F3504F3#32 = 0xC03504F3#32 ∧
    fhalf 0#32 0x40E00000#32 = 0x40600000#32 ∧
    fhalf 0#32 0x00000003#32 = 0x00000002#32 ∧ fhalf 0#32 0x80000001#32 = 0x80000000#32 ∧
    fneg 0x7FC00001#32 = 0xFFC00001#32 := by
  decide +kernel

/-! ### Tables and lookups -/

/-- V2: exclusive-or of all 4096 words of the Sine Table, taken row by row. -/
theorem test_sine_rom_xor :
    let x := sineChunks.flatten.foldl Nat.xor 0
    ((List.range 8).map fun j => x >>> (32 * j) % 2 ^ 32).foldl Nat.xor 0 = 0x3DF89775 ∧
      sineChunks.flatten.length = 512 := by
  decide +kernel

/-- V2: spot words of the Sine Table. -/
theorem test_sine_rom_words :
    sineTable 0 = 0x00000000#32 ∧ sineTable 1 = 0x39C90FDA#32 ∧ sineTable 256 = 0x3DC8BD36#32 ∧
    sineTable 1024 = 0x3EC3EF15#32 ∧ sineTable 2048 = 0x3F3504F3#32 ∧
    sineTable 3072 = 0x3F6C835E#32 ∧ sineTable 3840 = 0x3F7EC46D#32 ∧
    sineTable 4095 = 0x3F7FFFFF#32 := by
  decide +kernel

/-- V3: `SIN(j, N)`, with the hard-wired 1.0. -/
theorem test_sin :
    sin .reference 1 4 = 0x3F800000#32 ∧ sin .reference 1 8 = 0x3F3504F3#32 ∧
    sin .reference 3 16 = 0x3F6C835E#32 ∧ sin .reference 15 64 = 0x3F7EC46D#32 ∧
    sin .reference 4095 16384 = 0x3F7FFFFF#32 ∧ sin .reference 4096 16384 = 0x3F800000#32 ∧
    sin build1024 3 16 = 0x3F6C835E#32 := by
  decide +kernel

/-- V4: `TWIDDLE(k, N)` in all four quadrants. -/
theorem test_twiddle :
    twiddle .reference 0 2 = (0x3F800000#32, 0x00000000#32) ∧
    twiddle .reference 1 4 = (0x80000000#32, 0x3F800000#32) ∧
    twiddle .reference 3 8 = (0xBF3504F3#32, 0x3F3504F3#32) ∧
    twiddle .reference 5 16 = (0xBEC3EF15#32, 0x3F6C835E#32) ∧
    twiddle .reference 4097 16384 = (0xB9C90FDA#32, 0x3F7FFFFF#32) ∧
    twiddle .reference 8192 16384 = (0xBF800000#32, 0x80000000#32) ∧
    twiddle .reference 12288 16384 = (0x00000000#32, 0xBF800000#32) := by
  decide +kernel

/-- V10: reversed indices. -/
theorem test_bitrev :
    bitrev .computed 0 0 = 0 ∧ bitrev .computed 4 7 = 14 ∧ bitrev .computed 6 37 = 41 ∧
    bitrev .computed 14 8191 = 16382 ∧ bitrev .computed 14 12345 = 9987 ∧
    bitrev .tabled 5 5 = 20 ∧ bitrev .tabled 6 37 = 41 := by
  decide +kernel

/-- V11: the full permutation of size 16, in both forms. -/
theorem test_bitrev_16 :
    (List.range 16).map (bitrev .computed 4) =
      [0, 8, 4, 12, 2, 10, 6, 14, 1, 9, 5, 13, 3, 11, 7, 15] ∧
    (List.range 16).map (bitrev .tabled 4) =
      [0, 8, 4, 12, 2, 10, 6, 14, 1, 9, 5, 13, 3, 11, 7, 15] := by
  decide +kernel

/-! ### Butterfly and commands -/

/-- V14, V16: a twiddle of `-i`, and the general case with rounding in every operation. -/
theorem test_butterfly :
    butterflyPair 0 (0x3F800000#32, 0x40000000#32) (0x40400000#32, 0x40800000#32)
        (0x80000000#32, 0x3F800000#32) =
      ((0x40A00000#32, 0xBF800000#32), (0xC0400000#32, 0x40A00000#32)) ∧
    butterflyPair 0 (0x3F800000#32, 0x3F800000#32) (0x3F800000#32, 0x3F800000#32)
        (0x3F6C835E#32, 0x3EC3EF15#32) =
      ((0x40139EBA#32, 0x3FC545EA#32), (0xBE9CF5D0#32, 0x3EEAE858#32)) := by
  decide +kernel

/-- V20, P1: `CFFT_4` on (1,2), (3,4), (5,6), (7,8). -/
theorem test_cfft4 :
    wordsAfter 8 (exec .cfft4 (withWords [0x3F800000, 0x40000000, 0x40400000, 0x40800000, 0x40A00000,
      0x40C00000, 0x40E00000, 0x41000000])) =
    [0x41800000#32, 0x41A00000#32, 0xC1000000#32, 0x00000000#32, 0xC0800000#32, 0xC0800000#32,
      0x00000000#32, 0xC1000000#32] := by
  decide +kernel

/-- V28: `CFFT_4` on eight words -0. -/
theorem test_cfft4_minus_zero :
    wordsAfter 8 (exec .cfft4 (withWords (List.replicate 8 0x80000000))) =
      [0x00000000#32, 0x00000000#32, 0x00000000#32, 0x00000000#32, 0x80000000#32, 0x00000000#32,
        0x00000000#32, 0x80000000#32] := by
  decide +kernel

/-- V26: `CFFT_8` on a complex input, with rounding. -/
theorem test_cfft8 :
    wordsAfter 16 (exec .cfft8 (withWords [0x3F800000, 0xBF800000, 0x40000000, 0x3F000000, 0xC0400000,
      0x40000000, 0x00000000, 0x00000000, 0x40800000, 0x40800000, 0xBF800000, 0xC0000000, 0x3E800000,
      0x41000000, 0xC0E00000, 0x3F800000])) =
    [0xC0700000#32, 0x41480000#32, 0xC12C48C6#32, 0xC0CB1405#32, 0x40A80000#32, 0xC1700000#32,
      0x40DC7368#32, 0xC18E5E16#32, 0x41040000#32, 0x41580000#32, 0xC0E76E74#32, 0x4036280A#32,
      0x41240000#32, 0x3F800000#32, 0xBF639B3C#32, 0x3FA5E168#32] := by
  decide +kernel

/-- P5, V30: `RFFT_4` on 1, 2, 3, 4 leaves the words above its operand. -/
theorem test_rfft4 :
    wordsAfter 6 (exec .rfft4 (withWords [0x3F800000, 0x40000000, 0x40400000, 0x40800000, 0xDEADBEEF,
      0x12345678])) =
    [0x41200000#32, 0xC0000000#32, 0xC0000000#32, 0x40000000#32, 0xDEADBEEF#32, 0x12345678#32] := by
  decide +kernel

/-- V33: the N/4 bin. -/
theorem test_rfft4_quarter_bin :
    wordsAfter 4 (exec .rfft4 (withWords [0x3F800000, 0x3F800000, 0xBF800000, 0xBF800000])) =
      [0x00000000#32, 0x00000000#32, 0x40000000#32, 0xC0000000#32] := by
  decide +kernel

/-- V31: `RFFT_8` on 1 .. 8. -/
theorem test_rfft8 :
    wordsAfter 8 (exec .rfft8 (withWords [0x3F800000, 0x40000000, 0x40400000, 0x40800000, 0x40A00000,
      0x40C00000, 0x40E00000, 0x41000000])) =
    [0x42100000#32, 0xC0800000#32, 0xC0800000#32, 0x411A827A#32, 0xC0800000#32, 0x40800000#32,
      0xC0800000#32, 0x3FD413CC#32] := by
  decide +kernel

/-- V1: the source's own example, `RFFT_16` on a sine of frequency 3. -/
theorem test_rfft16_source_example :
    wordsAfter 16 (exec .rfft16 (withWords [0x00000000, 0x3F6C835E, 0x3F3504F3, 0xBEC3EF15, 0xBF800000,
      0xBEC3EF15, 0x3F3504F3, 0x3F6C835E, 0x00000000, 0xBF6C835E, 0xBF3504F3, 0x3EC3EF15, 0x3F800000,
      0x3EC3EF15, 0xBF3504F3, 0xBF6C835E])) =
    [0x00000000#32, 0x00000000#32, 0x321B5ACC#32, 0x33A280A0#32, 0x00000000#32, 0x00000000#32,
      0x34000000#32, 0xC1000000#32, 0x00000000#32, 0x80000000#32, 0xB4000000#32, 0x34800000#32,
      0x00000000#32, 0x00000000#32, 0xB21B5ACC#32, 0x33450140#32] := by
  decide +kernel

/-- A step that goes on, with `DONE` set and `BUSY` clear. -/
def completes (o : Host.Outcome State Fault Refusal) : Bool :=
  match o with
  | .next t => t.status.done && !t.status.busy
  | _ => false

/-- R93: every command completes on the reference build. -/
theorem test_every_command_completes :
    ∀ row ∈ opcodeMap, completes (exec row.2 State.reset) = true := by
  decide +kernel

/-! ### Steps -/

/-- The very next step runs the fetched word, as the first after reset. -/
theorem test_fetch_word :
    registersAfter (step (State.reset.withFetchWord 32 0x12)) = some (0x12#32, 0x2#32, .idle) ∧
    completes (step (State.reset.withFetchWord 32 0x1E)) = true := by
  decide +kernel

/-- V41: an illegal word after reset. -/
theorem test_illegal_word :
    registersAfter (step (offer State.reset (.write .reg 0 4 0x80000002#32))) =
      some (0x80000002#32, 0x14#32, .halt) := by
  decide +kernel

/-- V42: size 2048 on the build `MAXN = 1024`, and its `CONFIG`. -/
theorem test_build1024 :
    registersAfter (step (offer state1024 (.write .reg 0 4 0xB#32))) = some (0xB#32, 0x14#32, .halt) ∧
    replyAfter (step (offer state1024 (.read .reg 2 4))) = some 0xA#32 := by
  decide +kernel

/-- V44: the halted block ignores a legal word. -/
theorem test_halted :
    registersAfter (step (offer haltedState (.write .reg 0 4 0x2#32))) =
      some (0xF#32, 0x14#32, .halt) := by
  decide +kernel

/-- V45, V46: registers and absent locations at the port. -/
theorem test_port_corners :
    replyAfter (step (offer State.reset (.read .reg 2 4))) = some 0xE#32 ∧
    replyAfter (step (offer State.reset (.read .reg 1000 4))) = some 0#32 ∧
    replyAfter (step (offer State.reset (.read .buf 32768 4))) = some 0#32 ∧
    registersAfter (step (offer State.reset (.write .reg 1 4 0xFFFFFFFF#32))) =
      some (0#32, 0#32, .idle) := by
  decide +kernel

/-- V43, P4 (b): a read of `BUF` while busy; `STATUS` read while busy. -/
theorem test_busy :
    replyAfter (step (offer busyState (.read .reg 1 4))) = some 0x1#32 ∧
    registersAfter (step (offer busyState (.read .buf 0 4))) = some (0x3#32, 0x24#32, .halt) ∧
    registersAfter (step (offer busyState (.write .reg 0 4 0xFFFFFFFF#32))) =
      some (0x3#32, 0x24#32, .halt) := by
  decide +kernel

/-- U13: a halfword access is refused. -/
theorem test_halfword_refused :
    (match step (offer State.reset (.read .buf 0 2)) with | .refused r => some r | _ => none) =
      some .accessWidth := by
  decide +kernel

/-- R67, R69, R29, R61: the bus mapping with `REG_BASE = 16`, `BUF_BASE = 64`: a register, an absent register,
a word, an index past the memory, no word of the block, a misaligned address; and an unaligned base. -/
theorem test_bus_mapping :
    busTarget 16 64 .reference 24 = .ok (some (.reg, 2)) ∧
    busTarget 16 64 .reference 32 = .ok (some (.reg, 4)) ∧
    busTarget 16 64 .reference 68 = .ok (some (.buf, 1)) ∧
    busTarget 16 64 .reference (64 + 4 * 32768) = .ok (some (.buf, 32768)) ∧
    busTarget 16 64 .reference 12 = .ok none ∧
    busTarget 16 64 .reference 66 = .error .misaligned ∧
    busTarget 17 64 .reference 20 = .ok none := by
  decide

/-- R112, U16: a stage of a span above `MAXN`, and a recombination index above `N/4`, are refused. -/
theorem test_operand_range_refused :
    (step { state1024 with
      status := busyState.status
      seq := ⟨.stages, 2048, 2048, 11, 0, 0, 0⟩ } = .refused .operandRange) ∧
    (step { busyState with seq := ⟨.recombine, 16, 8, 0, 0, 5, 0⟩ } = .refused .operandRange) ∧
    sinInRange .reference 4 16 = true ∧ sinInRange .reference 5 16 = false ∧
    sinInRange build1024 0 2048 = false ∧ twiddleInRange .reference 1 2 = false := by
  refine ⟨rfl, rfl, ?_⟩
  decide

/-- R36, R187: the first micro-operations of `CFFT_8` walk through `PERMUTE` into `STAGES`. -/
theorem test_sequencer :
    (engineRun 7 busyState).seq = ⟨.permute, 8, 8, 0, 0, 0, 7⟩ ∧
    (engineRun 8 busyState).seq = ⟨.stages, 8, 8, 1, 0, 0, 0⟩ := by
  decide +kernel

/-! ### Hypotheses met -/

/-- CanRun (every statement about a command that completes). -/
theorem meets_canRun : ∀ row ∈ opcodeMap, CanRun row.2 State.reset := by decide

/-- OpcodeMapIsComplete, ReservedWordsRejectedByName, at the edges of the ranges. -/
theorem meets_reserved_edges :
    decode 0x1#32 = .error .sizeTooSmall ∧ decode 0x2#32 = .ok .cfft4 ∧
      decode 0xE#32 = .ok .cfft16384 ∧ decode 0xF#32 = .error .sizeTooLarge ∧
      decode 0x1E#32 = .ok .rfft16384 ∧ decode 0x1F#32 = .error .sizeTooLarge ∧
      decode 0x20#32 = .error .reservedBits := by
  refine ⟨?_, ?_, ?_, ?_, ?_, ?_, ?_⟩ <;> rfl

/-- StepKeepsInvariant, StatusTakesSixValues, IdleBlockHoldsState. -/
theorem meets_invariant_idle :
    BlockInv State.reset ∧ State.reset.status.busy = false ∧ State.reset.port = [] ∧
      ∃ t, step State.reset = .next t :=
  ⟨by decide, rfl, rfl, _, rfl⟩

/-- StepKeepsInvariant, BusyIntervalEnds, EngineRunsWhileHostWaits. -/
theorem meets_invariant_busy :
    BlockInv busyState ∧ busyState.status.busy = true ∧ headWaits busyState.port ∧
      ∃ t, step busyState = .next t :=
  ⟨by decide +kernel, rfl, by simp [headWaits, busyState, startCommand, commandGate, State.reset,
    Status.reset, Instr.legalOn, Instr.lg, Build.reference], _, rfl⟩

/-- PatientHostNeverViolates: a busy block whose host polls `STATUS` and waits to read `BUF`. -/
theorem meets_patient :
    let s := { busyState with port := [⟨.read .reg 1 4, some 0⟩, ⟨.read .buf 0 4, none⟩] }
    BlockInv s ∧ Patient s ∧ ∃ t, step s = .next t :=
  ⟨by decide +kernel, by simp [Patient, PortOp.allowedWhileBusy], _, rfl⟩

/-- EngineRunsWhileHostWaits, the access that arrives after one more micro-operation: the engine takes that
one, and the access stays with 0 to wait for (R71, R257; log 5). -/
theorem meets_counted_access :
    let s := { busyState with port := [⟨.read .buf 0 4, some 1⟩] }
    BlockInv s ∧ s.status.busy = true ∧ s.port = [⟨.read .buf 0 4, some (0 + 1)⟩] ∧
      (match step s with
        | .next t => t.port = [⟨.read .buf 0 4, some 0⟩] ∧ t.seq.i = 1 ∧ t.status.busy = true
        | _ => False) :=
  ⟨by decide +kernel, rfl, rfl, rfl, rfl, rfl⟩

/-- EngineRunsWhileHostWaits, the refused operands: a busy state that no run reaches. -/
theorem meets_operand_range :
    let s := { busyState with seq := ⟨.recombine, 16, 8, 0, 0, 5, 0⟩ }
    s.status.busy = true ∧ headWaits s.port ∧ operandsInRange s.build s.seq = false :=
  ⟨rfl, by simp [headWaits, busyState, startCommand, commandGate, State.reset, Status.reset,
    Instr.legalOn, Instr.lg, Build.reference], by decide⟩

/-- RaiseRecordsFirstFault, both clauses. -/
theorem meets_raise : State.reset.status.err = false ∧ haltedState.status.err = true := by decide

/-- IllegalWordFaultsPrecisely, at the edge of each of its three causes. -/
theorem meets_illegal_word :
    Ready (offer State.reset (.write .reg 0 4 0x20#32)) ∧
    presented (offer State.reset (.write .reg 0 4 0x20#32)) (.write .reg 0 4 0x20#32) [] ∧
    (0x20#32).toNat / 32 ≠ 0 ∧ (0x1#32).toNat % 16 < 2 ∧
    (offer State.reset (.write .reg 0 4 0xF#32)).build.lgmax < (0xF#32).toNat % 16 :=
  ⟨by decide, ⟨_, rfl, .inl rfl⟩, by decide, by decide, by decide⟩

/-- CommandsTurnedAway, CommandsKeepTheirFrame (third clause). -/
theorem meets_oversize : Ready state1024 ∧ state1024.build.lgmax < Instr.lg .cfft2048 := by decide

/-- BusyViolationAbandonsCommand, for each of its three causes. -/
theorem meets_busy_violation (op : PortOp)
    (h : op = .write .reg 0 4 0x2#32 ∨ op = .read .buf 15 4 ∨ op = .write .buf 16 4 0x0#32) :
    BlockInv (offer busyState op) ∧ (offer busyState op).status.busy = true ∧
      decode (offer busyState op).cmd = .ok .cfft8 ∧ presented (offer busyState op) op [] := by
  rcases h with rfl | rfl | rfl <;> exact ⟨by decide +kernel, rfl, rfl, ⟨_, rfl, .inr rfl⟩⟩

/-- RegisterAccessWhileBusyIsHarmless, RegisterReadsReturnRegisters, OtherRegisterWritesIgnored. -/
theorem meets_register_access (n : Nat) (v : Word) :
    presented (offer busyState (.read .reg n 4)) (.read .reg n 4) [] ∧
      presented (offer busyState (.write .reg (n + 1) 4 v)) (.write .reg (n + 1) 4 v) [] ∧ n + 1 ≠ 0 :=
  ⟨⟨_, rfl, .inr rfl⟩, ⟨_, rfl, .inr rfl⟩, Nat.succ_ne_zero n⟩

/-- OnlyResetLeavesHaltedState, CommandsTurnedAway (second clause), CommandsKeepTheirFrame (last clause). -/
theorem meets_halted :
    BlockInv (offer haltedState (.read .reg 1 4)) ∧
      (offer haltedState (.read .reg 1 4)).status.err = true ∧
      (∃ t, step (offer haltedState (.read .reg 1 4)) = .next t) ∧
      (∀ rest, ¬ presented (offer haltedState (.read .reg 1 4)) .reset rest) ∧
      presented (offer haltedState (.write .reg 0 4 0x2#32)) (.write .reg 0 4 0x2#32) [] ∧
      presented (offer haltedState (.write .buf 32767 4 0x2#32)) (.write .buf 32767 4 0x2#32) [] ∧
      presented (offer haltedState (.read .buf 0 4)) (.read .buf 0 4) [] ∧
      32767 < 2 * haltedState.build.maxn := by
  refine ⟨by decide +kernel, rfl, ⟨_, rfl⟩, ?_, ⟨_, rfl, .inr rfl⟩, ⟨_, rfl, .inr rfl⟩,
    ⟨_, rfl, .inr rfl⟩, by decide⟩
  rintro rest ⟨a, h, -⟩
  simp [offer] at h

/-- ResetClearsEveryState, from a running command. -/
theorem meets_reset : presented (offer busyState .reset) .reset [] := ⟨_, rfl, .inr rfl⟩

/-- BufferPortReadsAndWrites, on both sides of the end of the memory. -/
theorem meets_buffer_port (a : Nat) (h : a = 32767 ∨ a = 32768) (v : Word) :
    (offer State.reset (.read .buf a 4)).status.busy = false ∧
      presented (offer State.reset (.read .buf a 4)) (.read .buf a 4) [] ∧
      presented (offer State.reset (.write .buf a 4 v)) (.write .buf a 4 v) [] ∧
      (a < 2 * State.reset.build.maxn ∨ a = 2 * State.reset.build.maxn) := by
  refine ⟨rfl, ⟨_, rfl, .inl rfl⟩, ⟨_, rfl, .inl rfl⟩, ?_⟩
  rcases h with rfl | rfl
  · exact .inl (by decide)
  · exact .inr (by decide)

/-- OtherWidthsRefused, form by form. -/
theorem meets_other_width :
    2 ≠ 4 ∧ 8 % 4 = 0 ∧ presented (offer State.reset (.read .reg 0 2)) (.read .reg 0 2) [] ∧
      presented (offer State.reset (.write .buf 0 2 0#32)) (.write .buf 0 2 0#32) [] ∧
      presented (offer State.reset (.busRead 8 2)) (.busRead 8 2) [] ∧
      presented (offer State.reset (.busWrite 8 2 0#32)) (.busWrite 8 2 0#32) [] :=
  ⟨by decide, by decide, ⟨_, rfl, .inl rfl⟩, ⟨_, rfl, .inl rfl⟩, ⟨_, rfl, .inl rfl⟩, ⟨_, rfl, .inl rfl⟩⟩

/-- BusMappingReachesEveryWord, with the last register and the last word, and a misaligned access. -/
theorem meets_bus_mapping :
    0 % 4 = 0 ∧ 12 % 4 = 0 ∧ 0 + 12 ≤ 12 ∧ 2 < 3 ∧ 32767 < 2 * Build.maxn .reference ∧ 18 % 4 ≠ 0 ∧
      presented (offer State.reset (.busRead 18 4)) (.busRead 18 4) [] ∧
      presented (offer State.reset (.busWrite 18 4 0#32)) (.busWrite 18 4 0#32) [] :=
  ⟨by decide, by decide, by decide, by decide, by decide, by decide, ⟨_, rfl, .inl rfl⟩,
    ⟨_, rfl, .inl rfl⟩⟩

/-- SumRoundsToNearestEven, ProductRoundsToNearestEven, at ordinary values and at the largest finite word. -/
theorem meets_rounding :
    finite 0x3F800000#32 ∧ finite 0x7F7FFFFF#32 ∧
      valueOf 0x3F800000#32 + valueOf 0x3F800000#32 ≠ 0 ∧
      valueOf 0x7F7FFFFF#32 + valueOf 0x7F7FFFFF#32 ≠ 0 ∧
      valueOf 0x3F800000#32 * valueOf 0x7F7FFFFF#32 ≠ 0 := by
  unfold finite
  decide +kernel

/-- ZerosInfinitiesAndNaNs, clause by clause. -/
theorem meets_special_values :
    finite 0x80000000#32 ∧ valueOf 0x80000000#32 + valueOf 0x80000000#32 = 0 ∧
      valueOf 0x80000000#32 * valueOf 0x3F800000#32 = 0 ∧ isInf 0x7F800000#32 = true ∧
      isInf 0xFF800000#32 = true ∧ isZero 0x80000000#32 = true ∧ isNaN 0xFF800000#32 = false ∧
      isZero 0xFF800000#32 = false ∧ isNaN 0x7F800001#32 = true := by
  unfold finite
  decide +kernel

/-- NegationAndHalving, with the smallest exponent that halves exactly and a subnormal; NaNResultsAreAnyNaN. -/
theorem meets_halving :
    finite 0x01000000#32 ∧ 2 ≤ expOf 0x01000000#32 ∧ finite 0x00000001#32 ∧
      valueOf 0x00000001#32 ≠ 0 ∧ isNaN 0xFFFFFFFF#32 = true := by
  unfold finite
  decide +kernel

/-- SineReadsInsideTable (both clauses), SineIndependentOfMaxn, TwiddleFollowsQuadrants,
TwiddleAxesAreExact. -/
theorem meets_table_operands :
    2 ≤ 10 ∧ 10 ≤ Build.lgmax build1024 ∧ 10 ≤ Build.lgmax .reference ∧ 256 = 2 ^ 10 / 4 ∧
      255 < 2 ^ 10 / 4 ∧ 3 ≤ 10 := by
  decide

/-- SineTableIncreases, BitReversalFormsAgree, BitReversalLaws, PermuteReordersSamples,
PermuteTwiceRestores. -/
theorem meets_index_ranges :
    4094 < 4095 ∧ 4095 < 4096 ∧ 14 ≤ 14 ∧ 16383 < 2 ^ 14 ∧ 1 ≤ 14 ∧ 8191 < 2 ^ 14 / 2 ∧
      14 ≤ State.reset.build.lgmax ∧ 2 * 2 ^ 14 ≤ 32768 := by
  decide

/-- ButterflyIsSimultaneous, StageActsPairwise, RecombineActsPairwise. -/
theorem meets_pass_indices :
    (0 : Nat) ≠ 1 ∧ 1 ≤ 3 ∧ 3 ≤ 3 ∧ 0 < 2 ^ 3 / 2 ^ 3 ∧ 3 < 2 ^ 3 / 2 ∧ 2 ≤ 3 ∧ 1 < 2 ^ 3 / 4 := by
  decide

/-- CommandsKeepTheirFrame: every command goes on, and the busy clause. -/
theorem meets_frame :
    (∃ t, exec .rfft8 State.reset = .next t) ∧ CanRun .rfft8 State.reset ∧
      (∃ t, exec .cfft4 busyState = .next t) ∧ busyState.status.err = false ∧
      busyState.status.busy = true :=
  ⟨⟨_, rfl⟩, by decide, ⟨_, rfl⟩, rfl, rfl⟩

/-- ResultDependsOnOperandAlone: two builds, different words above the operand. -/
theorem meets_same_operand :
    let s := withWords [1, 2, 3, 4, 5]
    let t := { withWords [1, 2, 3, 4, 6] with build := build1024 }
    CanRun .rfft4 s ∧ CanRun .rfft4 t ∧ s.draws = t.draws ∧
      ∀ a, a < operandWords .rfft4 → bufRead s a = bufRead t a := by
  decide +kernel

/-- Cfft4IsFourButterflies, Rfft4IsOneButterfly, AtomicStepIsExact. -/
theorem meets_ready : Ready State.reset ∧ 7 < microOps .cfft4 ∧ 4 < microOps .rfft4 := by decide

/-- ZeroInputGivesZero. -/
theorem meets_zero_input :
    let s := withWords (List.replicate 8 0)
    Instr.kind .cfft4 = .complex ∧ CanRun .cfft4 s ∧
      ∀ a, a < operandWords .cfft4 → bufRead s a = 0#32 := by
  decide +kernel

/-- ConstantInputSpectrum. -/
theorem meets_constant_input :
    let s := withWords [0x3F800000, 0, 0x3F800000, 0, 0x3F800000, 0, 0x3F800000, 0]
    CanRun .cfft4 s ∧
      ∀ j, j < Instr.size .cfft4 → sampleRead s j = (0x3F800000#32, 0x00000000#32) := by
  decide +kernel

/-- ImpulseInputSpectrum. -/
theorem meets_impulse_input :
    let s := withWords [0x3F800000, 0, 0, 0, 0, 0, 0, 0]
    CanRun .cfft4 s ∧ sampleRead s 0 = (0x3F800000#32, 0x00000000#32) ∧
      ∀ j, j < Instr.size .cfft4 → 1 ≤ j → sampleRead s j = (0x00000000#32, 0x00000000#32) := by
  decide +kernel

/-- RealConstantInputSpectrum. -/
theorem meets_real_constant_input :
    let s := withWords [0x3F800000, 0x3F800000, 0x3F800000, 0x3F800000]
    Instr.kind .rfft4 = .real ∧ CanRun .rfft4 s ∧
      ∀ a, a < Instr.size .rfft4 → bufRead s a = 0x3F800000#32 := by
  decide +kernel

/-- StepRunsDecodedCommand, with a second access that waits. -/
theorem meets_step_runs :
    presented { State.reset with port := [⟨.write .reg 0 4 0x2#32, none⟩, ⟨.read .reg 1 4, none⟩] }
      (.write .reg 0 4 0x2#32) [⟨.read .reg 1 4, none⟩] ∧ decode 0x2#32 = .ok .cfft4 ∧
      headWaits [⟨.read .reg 1 4, none⟩] :=
  ⟨⟨_, rfl, .inl rfl⟩, rfl, by simp [headWaits]⟩

/-- ContendedCommandStarts. -/
theorem meets_contended :
    presented
        { State.reset with
          port := [⟨.write .reg 0 4 (encode .rfft8), none⟩, ⟨.read .reg 1 4, some 5⟩] }
        (.write .reg 0 4 (encode .rfft8)) [⟨.read .reg 1 4, some 5⟩] ∧
      (⟨.read .reg 1 4, some 5⟩ : Access).after ≠ none ∧ CanRun .rfft8 State.reset :=
  ⟨⟨_, rfl, .inl rfl⟩, by decide, by decide⟩

/-- KernelComputesDft, KernelTwiceReverses, RealTransformLayout. -/
theorem meets_exact_ranges : 0 < 2 ^ 0 ∧ 7 < 2 ^ 3 ∧ 2 ≤ 3 ∧ 1 ≤ 1 ∧ 3 < 2 ^ 3 / 2 := by decide

end Sys2Proof.Tests
end

section
/-! SUPPORT. The bit-reversal index and the twiddle lookup are the same on every build that has the size
(R114, R143). -/

namespace Sys2Proof.Machine

/-- One bit more: the reversed bits move up and the new bit comes in below (R140). -/
theorem bitrevSum_succ (lg i : Nat) :
    bitrevSum (lg + 1) i = 2 * bitrevSum lg i + i / 2 ^ lg % 2 := by
  have hshift : ∀ b ∈ List.range lg,
      i / 2 ^ b % 2 * 2 ^ (lg - b) = 2 * (i / 2 ^ b % 2 * 2 ^ (lg - 1 - b)) := fun b hb => by
    obtain ⟨d, rfl⟩ := Nat.exists_eq_add_of_lt (List.mem_range.1 hb)
    rw [show b + d + 1 - b = d + 1 by omega, show b + d + 1 - 1 - b = d by omega, pow_succ]
    ring
  simp only [bitrevSum, List.range_succ, List.map_append, List.sum_append, Nat.add_sub_cancel,
    List.map_congr_left hshift, List.sum_map_mul_left]
  simp

/-- The shifted accumulator is the defining sum (R140, R141). -/
theorem bitrevComputed_eq_sum (lg i : Nat) : bitrevComputed lg i = bitrevSum lg i := by
  induction lg with
  | zero => rfl
  | succ lg ih =>
    have hlow : (i >>> lg) &&& 1 = i / 2 ^ lg % 2 := by
      rw [Nat.and_one_is_mod, Nat.shiftRight_eq_div_pow]
    have hor : (bitrevSum lg i <<< 1) ||| (i / 2 ^ lg % 2) =
        bitrevSum lg i <<< 1 + i / 2 ^ lg % 2 :=
      (Nat.shiftLeft_add_eq_or_of_lt (Nat.mod_lt _ two_pos) _).symm
    calc bitrevComputed (lg + 1) i
        = (bitrevComputed lg i <<< 1) ||| ((i >>> lg) &&& 1) := rfl
      _ = bitrevSum lg i <<< 1 + i / 2 ^ lg % 2 := by rw [ih, hlow, hor]
      _ = bitrevSum (lg + 1) i := by rw [bitrevSum_succ, Nat.shiftLeft_eq, pow_one, Nat.mul_comm]

/-- A cell of the bit-reversal ROM holds the defining sum, which fits its 16 bits (R27, R140). -/
theorem brevRom_toNat {lg i : Nat} (hlg : lg ≤ 14) (hi : i < 2 ^ lg) :
    (brevRom lg i).toNat = bitrevSum lg i := by
  have hfits : bitrevSum lg i < 2 ^ 16 :=
    (bitrevSum_lt lg i).trans_le (Nat.pow_le_pow_right two_pos (by omega))
  simp only [brevRom, brevTable, List.getElem?_map, List.getElem?_range hi, Option.map_some,
    Option.getD_some, BitVec.toNat_ofNat, Nat.mod_eq_of_lt hfits]

/-- Both strategies give the defining sum (R140, R143). -/
theorem bitrev_eq_sum (st : Strategy) {lg i : Nat} (hlg : lg ≤ 14) (hi : i < 2 ^ lg) :
    bitrev st lg i = bitrevSum lg i := by
  cases st with
  | computed => exact bitrevComputed_eq_sum lg i
  | tabled => exact brevRom_toNat hlg hi

/-- A scaled table read takes the entry of the printed table that `MAXN` does not enter (R112, R114). -/
theorem sin_two_pow (b : Build) {lg : Nat} (j : Nat) (hlg : lg ≤ b.lgmax) :
    sin b j (2 ^ lg) =
      if j = 2 ^ lg / 4 then Word.one else sineTable (j * 2 ^ (14 - lg)) := by
  have hle := b.lgmax_le
  have hbuild : 2 ^ b.lgmax / 2 ^ lg = 2 ^ (b.lgmax - lg) := Nat.pow_div hlg two_pos
  have hprinted : 16384 / 2 ^ b.lgmax = 2 ^ (14 - b.lgmax) := Nat.pow_div (x := 2) (m := 14) hle two_pos
  have hstride : 2 ^ (b.lgmax - lg) * 2 ^ (14 - b.lgmax) = 2 ^ (14 - lg) := by
    rw [← pow_add]; congr 1; omega
  simp only [sin, sineRom, Build.maxn, hbuild, hprinted, Nat.mul_assoc, hstride]

/-- The twiddle of a size that both builds have is the same on both (R114, R115). -/
theorem twiddle_eq_of_le_lgmax (b c : Build) (k : Nat) {lg : Nat} (hb : lg ≤ b.lgmax)
    (hc : lg ≤ c.lgmax) : twiddle b k (2 ^ lg) = twiddle c k (2 ^ lg) := by
  simp only [twiddle, sin_two_pow _ _ hb, sin_two_pow _ _ hc]

end Sys2Proof.Machine
end

section
/-! SUPPORT. Two runs side by side: the engine keeps any two states in agreement that agree on the operand
words and on the next free word. -/

namespace Sys2Proof.Machine

/-- Loops whose bodies keep a relation between two stores keep it. -/
theorem forUpTo_rel {σ τ : Type} {R : σ → τ → Prop} {n : Nat} {f : Nat → σ → σ} {g : Nat → τ → τ}
    {s : σ} {t : τ} (h : R s t) (hbody : ∀ v u w, v < n → R u w → R (f v u) (g v w)) :
    R (forUpTo n f s) (forUpTo n g t) := by
  induction n with
  | zero => exact h
  | succ n ih =>
    exact hbody n _ _ (Nat.lt_succ_self n) (ih fun v u w hv => hbody v u w (Nat.lt_succ_of_lt hv))

/-- Both builds have the size `2^lg`, and the two states agree on the words below `2 * m` and on the index
of the next free word. -/
structure Agree (lg m : Nat) (s t : State) : Prop where
  left : lg ≤ s.build.lgmax
  right : lg ≤ t.build.lgmax
  draws : s.draws = t.draws
  words : ∀ a, a < 2 * m → bufRead s a = bufRead t a

namespace Agree

variable {lg m : Nat} {s t : State}

/-- Registers, sequencer and port do not enter. -/
theorem of_frame {s' t' : State} (h : Agree lg m s t)
    (hs : s'.build = s.build ∧ s'.buf = s.buf ∧ s'.era = s.era ∧ s'.draws = s.draws)
    (ht : t'.build = t.build ∧ t'.buf = t.buf ∧ t'.era = t.era ∧ t'.draws = t.draws) :
    Agree lg m s' t' := by
  obtain ⟨hsb, hsm, hse, hsd⟩ := hs
  obtain ⟨htb, htm, hte, htd⟩ := ht
  exact
    { left := hsb ▸ h.left
      right := htb ▸ h.right
      draws := by rw [hsd, htd, h.draws]
      words := fun a ha => by rw [bufRead_congr hsm hse, bufRead_congr htm hte, h.words a ha] }

theorem sample (h : Agree lg m s t) {j : Nat} (hj : j < m) : sampleRead s j = sampleRead t j := by
  simp only [sampleRead, h.words (2 * j) (by omega), h.words (2 * j + 1) (by omega)]

theorem sampleWrite (h : Agree lg m s t) (j : Nat) (z : Word × Word) :
    Agree lg m (sampleWrite j z s) (sampleWrite j z t) where
  left := h.left
  right := h.right
  draws := h.draws
  words a ha := by simp only [Machine.sampleWrite, bufRead_bufWrite, h.words a ha]

theorem draw (h : Agree lg m s t) (n : Nat) : Agree lg m (draw n s) (draw n t) where
  left := h.left
  right := h.right
  draws := congrArg (· + n) h.draws
  words := h.words

theorem swapSamples (h : Agree lg m s t) {i j : Nat} (hi : i < m) (hj : j < m) :
    Agree lg m (swapSamples i j s) (swapSamples i j t) := by
  simp only [Machine.swapSamples, h.sample hi, h.sample hj]
  exact (h.sampleWrite i _).sampleWrite j _

theorem butterfly (h : Agree lg m s t) {ia ib : Nat} (ha : ia < m) (hb : ib < m) (cs : Word × Word) :
    Agree lg m (butterfly ia ib cs s) (butterfly ia ib cs t) := by
  simp only [Machine.butterfly, h.draws, h.sample ha, h.sample hb]
  exact ((h.sampleWrite ia _).sampleWrite ib _).draw 10

/-- The butterfly of a stage that both builds have (R164, R165). -/
theorem stageAt (h : Agree lg m s t) {stage base k : Nat} (hstage : stage ≤ lg)
    (hk : k < 2 ^ stage / 2) (hbase : base + 2 ^ stage ≤ m) :
    Agree lg m (stageAt stageButterfly stage base k s) (stageAt stageButterfly stage base k t) := by
  simp only [Machine.stageAt, stageButterfly,
    twiddle_eq_of_le_lgmax s.build t.build k (hstage.trans h.left) (hstage.trans h.right)]
  exact h.butterfly (by omega) (by omega) _

theorem stagePass (h : Agree lg m s t) {stage : Nat} (hstage : stage ≤ lg) :
    Agree lg m (stageWith stageButterfly m stage s) (stageWith stageButterfly m stage t) := by
  refine forUpTo_rel h fun g u w hg huw => forUpTo_rel huw fun k u w hk huw => huw.stageAt hstage hk ?_
  calc g * 2 ^ stage + 2 ^ stage = (g + 1) * 2 ^ stage := by ring
    _ ≤ m / 2 ^ stage * 2 ^ stage := Nat.mul_le_mul_right _ hg
    _ ≤ m := Nat.div_mul_le_self m _

/-- `PERMUTE` moves the same samples under both strategies (R143, R145). -/
theorem permute {l : Nat} (h : Agree lg (2 ^ l) s t) (hl : l ≤ lg) :
    Agree lg (2 ^ l) (permute l s) (permute l t) := by
  have hl14 : l ≤ 14 := hl.trans (h.left.trans s.build.lgmax_le)
  refine forUpTo_rel h fun i u w hi huw => ?_
  have hrev : bitrevSum l i < 2 ^ l := bitrevSum_lt l i
  simp only [permuteAt, bitrev_eq_sum _ hl14 hi]
  split
  · exact huw.swapSamples hi hrev
  · exact huw

/-- The kernel pass of any size up to `2^lg` (R166). -/
theorem cfftCore {l : Nat} (h : Agree lg (2 ^ l) s t) (hl : l ≤ lg) :
    Agree lg (2 ^ l) (cfftCore l s) (cfftCore l t) :=
  forUpTo_rel (h.permute hl) fun _ _ _ hj huw => huw.stagePass (by omega)

theorem recombineBin0 (h : Agree lg m s t) (hm : 0 < m) :
    Agree lg m (recombineBin0 s) (recombineBin0 t) := by
  simp only [Machine.recombineBin0, h.draws, h.sample hm]
  exact (h.sampleWrite 0 _).draw 2

theorem recombinePair {k : Nat} (h : Agree lg (2 ^ lg / 2) s t) (h0 : 0 < k)
    (hk : k < 2 ^ lg / 2) :
    Agree lg (2 ^ lg / 2) (recombinePair (2 ^ lg) k s) (recombinePair (2 ^ lg) k t) := by
  have hmirror : 2 ^ lg / 2 - k < 2 ^ lg / 2 := by omega
  simp only [Machine.recombinePair, h.draws, h.sample hk, h.sample hmirror,
    twiddle_eq_of_le_lgmax s.build t.build k h.left h.right]
  exact ((h.sampleWrite k _).sampleWrite _ _).draw 18

theorem recombineMid {n : Nat} (h : Agree lg m s t) (hn : n / 4 < m) :
    Agree lg m (recombineMid n s) (recombineMid n t) := by
  simp only [Machine.recombineMid, h.sample hn]
  exact h.sampleWrite _ _

/-- The recombination of `2^lg` real samples (R203). -/
theorem recombine (h : Agree lg (2 ^ lg / 2) s t) (h4 : 4 ≤ 2 ^ lg) :
    Agree lg (2 ^ lg / 2) (recombine (2 ^ lg) s) (recombine (2 ^ lg) t) := by
  refine recombineMid (forUpTo_rel (h.recombineBin0 (by omega)) fun v u w hv huw => ?_) (by omega)
  exact huw.recombinePair (Nat.succ_pos v) (by omega)

/-- The real transform (R204). -/
theorem rfftCore (h : Agree lg (2 ^ lg / 2) s t) (h2 : 2 ≤ lg) :
    Agree lg (2 ^ lg / 2) (rfftCore lg s) (rfftCore lg t) := by
  have hhalf : 2 ^ lg / 2 = 2 ^ (lg - 1) := Nat.pow_div (x := 2) (n := 1) (by omega) two_pos
  have h4 : 4 ≤ 2 ^ lg := Nat.pow_le_pow_right (n := 2) two_pos h2
  have hkernel : Agree lg (2 ^ lg / 2) (Machine.cfftCore (lg - 1) s) (Machine.cfftCore (lg - 1) t) := by
    rw [hhalf] at h ⊢
    exact h.cfftCore (by omega)
  exact hkernel.recombine h4

end Agree

/-- The body of a command keeps two states in agreement on its operand (R168, R206). -/
theorem commandBody_agree {i : Instr} {s t : State} (h : Agree i.lg (kernelSize i) s t) :
    Agree i.lg (kernelSize i) (commandBody i s) (commandBody i t) := by
  cases hkind : i.kind with
  | complex =>
    simp only [commandBody, kernelSize, Instr.size, hkind] at h ⊢
    have hcore := (h.of_frame (s' := accept .complex i.lg s) (t' := accept .complex i.lg t)
      ⟨rfl, rfl, rfl, rfl⟩ ⟨rfl, rfl, rfl, rfl⟩).cfftCore le_rfl
    exact hcore.of_frame ⟨rfl, rfl, rfl, rfl⟩ ⟨rfl, rfl, rfl, rfl⟩
  | real =>
    simp only [commandBody, kernelSize, Instr.size, hkind] at h ⊢
    have hcore := (h.of_frame (s' := accept .real i.lg s) (t' := accept .real i.lg t)
      ⟨rfl, rfl, rfl, rfl⟩ ⟨rfl, rfl, rfl, rfl⟩).rfftCore (two_le_lg i)
    exact hcore.of_frame ⟨rfl, rfl, rfl, rfl⟩ ⟨rfl, rfl, rfl, rfl⟩

/-- A command that can run is its body (R91). -/
theorem exec_of_canRun {i : Instr} {s : State} (h : CanRun i s) :
    exec i s = .next (commandBody i { s with cmd := encode i }) := by
  obtain ⟨hready, hlg⟩ := h
  rw [exec_eq_gate, show i.legalOn s.build = true from decide_eq_true hlg, commandGate_of_ready hready]

end Sys2Proof.Machine

namespace Sys2Proof.Proofs

open Sys2Proof.Machine

/-- Settles O42: the engine keeps two states in agreement, micro-operation by micro-operation. -/
theorem resultDependsOnOperandAlone : Obligations.ResultDependsOnOperandAlone := by
  intro i s t hs ht hdraws hwords
  refine ⟨_, _, exec_of_canRun hs, exec_of_canRun ht, ?_⟩
  have hstart : Agree i.lg (kernelSize i) { s with cmd := encode i } { t with cmd := encode i } :=
    ⟨hs.2, ht.2, hdraws, hwords⟩
  exact (commandBody_agree hstart).words

end Sys2Proof.Proofs
end

section
/-! SUPPORT. A word by its sign and its 31 magnitude bits (R15). -/

namespace Sys2Proof.Machine

open Sys2Proof.Slice0 (finite)

/-- The 31 bits below the sign. -/
def bitsOf (w : Word) : Nat := w.toNat % 2 ^ 31

theorem bitsOf_lt (w : Word) : bitsOf w < 2 ^ 31 := Nat.mod_lt _ (by decide)

theorem expOf_eq_bitsOf (w : Word) : expOf w = bitsOf w / 2 ^ 23 := by
  unfold expOf bitsOf; omega

theorem fracOf_eq_bitsOf (w : Word) : fracOf w = bitsOf w % 2 ^ 23 := by
  unfold fracOf bitsOf; omega

theorem toNat_pack (sign : Bool) {bits : Nat} (h : bits < 2 ^ 31) :
    (pack sign bits).toNat = (if sign then 2 ^ 31 else 0) + bits := by
  rw [pack, BitVec.toNat_ofNat, Nat.mod_eq_of_lt]
  split <;> omega

@[simp] theorem signOf_pack (sign : Bool) {bits : Nat} (h : bits < 2 ^ 31) :
    signOf (pack sign bits) = sign := by
  rw [signOf, toNat_pack sign h]
  cases sign with
  | true => simp
  | false => simpa using h

@[simp] theorem bitsOf_pack (sign : Bool) {bits : Nat} (h : bits < 2 ^ 31) :
    bitsOf (pack sign bits) = bits := by
  rw [bitsOf, toNat_pack sign h]
  split <;> omega

/-- Sign and magnitude bits make up the word. -/
theorem pack_signOf_bitsOf (w : Word) : pack (signOf w) (bitsOf w) = w := by
  refine BitVec.eq_of_toNat_eq ?_
  have hw := w.isLt
  rw [toNat_pack _ (bitsOf_lt w), signOf, bitsOf]
  simp only [decide_eq_true_eq]
  split <;> omega

/-- Infinity's bits are those with exponent 255 and fraction 0 (R15). -/
theorem isInf_iff (w : Word) : isInf w = true ↔ bitsOf w = infBits := by
  rw [isInf, expOf_eq_bitsOf, fracOf_eq_bitsOf, Bool.and_eq_true, decide_eq_true_eq, decide_eq_true_eq,
    infBits]
  omega

/-- A NaN's bits are those above infinity's (R15). -/
theorem isNaN_iff (w : Word) : isNaN w = true ↔ infBits < bitsOf w := by
  have := bitsOf_lt w
  rw [isNaN, expOf_eq_bitsOf, fracOf_eq_bitsOf, Bool.and_eq_true, decide_eq_true_eq, decide_eq_true_eq,
    infBits]
  omega

/-- A zero's bits are 0 (R15). -/
theorem isZero_iff (w : Word) : isZero w = true ↔ bitsOf w = 0 := by
  rw [isZero, expOf_eq_bitsOf, fracOf_eq_bitsOf, Bool.and_eq_true, decide_eq_true_eq, decide_eq_true_eq]
  omega

/-- A finite word's bits are those below infinity's (R15). -/
theorem finite_iff (w : Word) : finite w ↔ bitsOf w < infBits := by
  rw [finite, ← Bool.not_eq_true, ← Bool.not_eq_true, isNaN_iff, isInf_iff]
  omega

theorem isNaN_of_isInf {w : Word} (h : isInf w = true) : isNaN w = false := by
  rw [isInf_iff] at h
  rw [← Bool.not_eq_true, isNaN_iff]
  omega

theorem isZero_of_isInf {w : Word} (h : isInf w = true) : isZero w = false := by
  rw [isInf_iff, infBits] at h
  rw [← Bool.not_eq_true, isZero_iff]
  omega

theorem finite_of_isZero {w : Word} (h : isZero w = true) : finite w := by
  rw [isZero_iff] at h
  rw [finite_iff, infBits]
  omega

theorem signOf_fneg (w : Word) : signOf (fneg w) = !signOf w := by
  have hmsb : ∀ v : Word, signOf v = v.msb := fun v => (BitVec.msb_eq_decide v).symm
  rw [hmsb, hmsb, fneg, BitVec.msb_xor, show (0x80000000#32).msb = true from rfl, Bool.xor_true]

theorem bitsOf_fneg (w : Word) : bitsOf (fneg w) = bitsOf w := by
  rw [bitsOf, fneg, BitVec.toNat_xor, Nat.xor_mod_two_pow]
  exact Nat.xor_zero _

end Sys2Proof.Machine
end

section
/-! SUPPORT. The magnitudes of words are a grid that is finer near 0, and `roundMag` picks the grid point
nearest to a quotient (R15, R16). -/

namespace Sys2Proof.Machine

/-- The magnitude of the word with these bits, in units of `2^-149`, as if the exponent had no bound (R15). -/
def gridMag (bits : Nat) : Nat :=
  if bits / 2 ^ 23 = 0 then bits % 2 ^ 23 else (2 ^ 23 + bits % 2 ^ 23) * 2 ^ (bits / 2 ^ 23 - 1)

theorem magOf_eq_gridMag (w : Word) : magOf w = gridMag (bitsOf w) := by
  rw [magOf, gridMag, expOf_eq_bitsOf, fracOf_eq_bitsOf]

/-- A significand of up to 24 bits scaled by `2^e`; the carry to `2^24` included. A significand below
`2^23` is subnormal and has no scale. -/
theorem gridMag_scaled {e m : Nat} (hnormal : e = 0 ∨ 2 ^ 23 ≤ m) (hm : m ≤ 2 ^ 24) :
    gridMag (e * 2 ^ 23 + m) = m * 2 ^ e := by
  rcases Nat.lt_or_ge m (2 ^ 23) with hsub | hge
  · obtain rfl : e = 0 := by omega
    simp only [gridMag, show (0 * 2 ^ 23 + m) / 2 ^ 23 = 0 by omega, if_true]
    omega
  · rcases Nat.lt_or_ge m (2 ^ 24) with hlt | hcarry
    · have hexp : (e * 2 ^ 23 + m) / 2 ^ 23 = e + 1 := by omega
      have hfrac : (e * 2 ^ 23 + m) % 2 ^ 23 = m - 2 ^ 23 := by omega
      rw [gridMag, hexp, hfrac, if_neg (Nat.succ_ne_zero e), Nat.add_sub_cancel' hge,
        Nat.add_sub_cancel]
    · obtain rfl : m = 2 ^ 24 := by omega
      have hexp : (e * 2 ^ 23 + 2 ^ 24) / 2 ^ 23 = e + 2 := by omega
      have hfrac : (e * 2 ^ 23 + 2 ^ 24) % 2 ^ 23 = 0 := by omega
      rw [gridMag, hexp, hfrac, if_neg (by omega), show e + 2 - 1 = e + 1 by omega, pow_succ 2 e]
      ring

/-- Larger bits, larger magnitude. -/
theorem gridMag_strictMono : StrictMono gridMag := by
  refine strictMono_nat_of_lt_succ fun bits => ?_
  obtain ⟨e, m, rfl, hnormal, hm⟩ :
      ∃ e m, bits = e * 2 ^ 23 + m ∧ (e = 0 ∨ 2 ^ 23 ≤ m) ∧ m < 2 ^ 24 := by
    rcases Nat.lt_or_ge bits (2 ^ 23) with h | h
    · exact ⟨0, bits, by omega, .inl rfl, by omega⟩
    · exact ⟨bits / 2 ^ 23 - 1, 2 ^ 23 + bits % 2 ^ 23, by omega, by omega, by omega⟩
  rw [Nat.add_assoc, gridMag_scaled hnormal hm.le, gridMag_scaled (by omega) hm]
  exact Nat.mul_lt_mul_of_pos_right (Nat.lt_succ_self m) (by positivity)

/-- One exponent more doubles a normal magnitude. -/
theorem gridMag_add_exponent {bits : Nat} (h : 2 ^ 23 ≤ bits) :
    gridMag (bits + 2 ^ 23) = 2 * gridMag bits := by
  obtain ⟨e, m, rfl, hnormal, hm⟩ :
      ∃ e m, bits = e * 2 ^ 23 + m ∧ 2 ^ 23 ≤ m ∧ m ≤ 2 ^ 24 :=
    ⟨bits / 2 ^ 23 - 1, 2 ^ 23 + bits % 2 ^ 23, by omega, by omega, by omega⟩
  rw [show e * 2 ^ 23 + m + 2 ^ 23 = (e + 1) * 2 ^ 23 + m by ring, gridMag_scaled (.inr hnormal) hm,
    gridMag_scaled (.inr hnormal) hm, pow_succ]
  ring

/-- The magnitude the bits of infinity would have (R15). -/
theorem gridMag_infBits : gridMag infBits = 2 ^ 25 * 2 ^ 252 := by
  rw [show infBits = 253 * 2 ^ 23 + 2 ^ 24 from rfl, gridMag_scaled (.inr (by omega)) le_rfl]; ring

/-- The largest finite magnitude (R15). -/
theorem gridMag_infBits_pred : gridMag (infBits - 1) = (2 ^ 25 - 2) * 2 ^ 252 := by
  rw [show infBits - 1 = 253 * 2 ^ 23 + (2 ^ 24 - 1) from rfl,
    gridMag_scaled (.inr (by omega)) (by omega)]
  ring

/-- The bound from which a magnitude rounds to infinity lies in the middle of the two (R16). -/
theorem overflow_bound (s : Nat) :
    (2 ^ 128 - 2 ^ 103) * 2 ^ (149 + s) = (2 ^ 25 - 1) * (2 ^ 252 * 2 ^ s) := by
  rw [pow_add]; ring

@[simp] theorem gridMag_zero : gridMag 0 = 0 := rfl

/-- The number of low bits that `roundMag` drops (R16). -/
def droppedBits (n s : Nat) : Nat := max s (Nat.log2 n - 23)

theorem le_droppedBits (n s : Nat) : s ≤ droppedBits n s := Nat.le_max_left _ _

/-- The bits `roundMag` takes before it caps them at infinity (R16). -/
def roundBits (n s : Nat) : Nat :=
  (droppedBits n s - s) * 2 ^ 23 + roundQuot n (droppedBits n s)

theorem roundMag_eq_min (n s : Nat) : roundMag n s = min (roundBits n s) infBits := rfl

/-- The quotient that is kept has at most 24 bits, and 24 unless the result is subnormal. -/
theorem quotient_bounds (n s : Nat) :
    n / 2 ^ droppedBits n s < 2 ^ 24 ∧ (droppedBits n s = s ∨ 2 ^ 23 ≤ n / 2 ^ droppedBits n s) := by
  constructor
  · rw [Nat.div_lt_iff_lt_mul (by positivity), ← pow_add]
    exact Nat.lt_log2_self.trans_le
      (Nat.pow_le_pow_right two_pos (by unfold droppedBits; omega))
  · rcases Nat.le_total (Nat.log2 n - 23) s with h | h
    · exact .inl (max_eq_left h)
    · rcases Nat.eq_zero_or_pos (Nat.log2 n - 23) with h0 | hpos
      · exact .inl (by unfold droppedBits; omega)
      · refine .inr ?_
        have hn : n ≠ 0 := by rintro rfl; simp at hpos
        rw [droppedBits, max_eq_right h, Nat.le_div_iff_mul_le (by positivity), ← pow_add,
          show 23 + (Nat.log2 n - 23) = Nat.log2 n by omega]
        exact Nat.log2_self_le hn

/-- The two neighbours of `n` on the grid are the quotient and one more, and nothing lies between. -/
theorem grid_around (n s : Nat) :
    let q := droppedBits n s
    let below := (q - s) * 2 ^ 23 + n / 2 ^ q
    gridMag below * 2 ^ s = n / 2 ^ q * 2 ^ q ∧
      gridMag (below + 1) * 2 ^ s = n / 2 ^ q * 2 ^ q + 2 ^ q := by
  intro q below
  obtain ⟨hlt, hnormal⟩ := quotient_bounds n s
  have hpow : 2 ^ (q - s) * 2 ^ s = 2 ^ q := by
    rw [← pow_add, Nat.sub_add_cancel (le_droppedBits n s)]
  constructor
  · rw [gridMag_scaled (by omega) hlt.le, Nat.mul_assoc, hpow]
  · rw [Nat.add_assoc, gridMag_scaled (by omega) hlt, Nat.mul_assoc, hpow, Nat.succ_mul]

/-- No grid point is nearer to `n` than the one of the rounded bits, and at a tie these are even (R16). -/
theorem roundBits_nearest (n s bits : Nat) :
    ((n : Int) - (gridMag (roundBits n s) * 2 ^ s : Nat)).natAbs ≤
        ((n : Int) - (gridMag bits * 2 ^ s : Nat)).natAbs ∧
      (((n : Int) - (gridMag (roundBits n s) * 2 ^ s : Nat)).natAbs =
          ((n : Int) - (gridMag bits * 2 ^ s : Nat)).natAbs →
        gridMag bits * 2 ^ s = gridMag (roundBits n s) * 2 ^ s ∨ roundBits n s % 2 = 0) := by
  obtain ⟨hbelow, habove⟩ := grid_around n s
  rw [roundBits, roundQuot]
  set q := droppedBits n s
  set below := (q - s) * 2 ^ 23 + n / 2 ^ q with hdef
  have hsplit : n = n / 2 ^ q * 2 ^ q + n % 2 ^ q := (Nat.div_add_mod' n _).symm
  have hrest : n % 2 ^ q < 2 ^ q := Nat.mod_lt _ (by positivity)
  have houtside : gridMag bits * 2 ^ s ≤ n / 2 ^ q * 2 ^ q ∨
      n / 2 ^ q * 2 ^ q + 2 ^ q ≤ gridMag bits * 2 ^ s := by
    rcases Nat.lt_or_ge below bits with h | h
    · exact .inr (habove ▸ Nat.mul_le_mul_right _ (gridMag_strictMono.monotone h))
    · exact .inl (hbelow ▸ Nat.mul_le_mul_right _ (gridMag_strictMono.monotone h))
  split
  next hdown =>
    rw [hbelow]
    omega
  next hup =>
    rw [← Nat.add_assoc, ← hdef, habove]
    omega

end Sys2Proof.Machine
end

section
/-! SUPPORT. What `roundMag` packs with a sign is the signed value rounded once (R16). -/

namespace Sys2Proof.Machine

open Sys2Proof.Slice0 (finite roundsTo)

/-- From `2^128 - 2^103` on, and only there, the rounded bits reach infinity's (R16). The bound is the middle
between the largest finite magnitude, whose bits are odd, and the next grid point. -/
theorem infBits_le_roundBits_iff (n s : Nat) :
    infBits ≤ roundBits n s ↔ (2 ^ 128 - 2 ^ 103) * 2 ^ (149 + s) ≤ n := by
  have hinf : gridMag infBits * 2 ^ s = 2 ^ 25 * (2 ^ 252 * 2 ^ s) := by
    rw [gridMag_infBits, Nat.mul_assoc]
  have hmax : gridMag (infBits - 1) * 2 ^ s = (2 ^ 25 - 2) * (2 ^ 252 * 2 ^ s) := by
    rw [gridMag_infBits_pred, Nat.mul_assoc]
  have hunit : 0 < 2 ^ 252 * 2 ^ s := by positivity
  have hpow : 0 < 2 ^ s := by positivity
  rw [overflow_bound]
  generalize 2 ^ 252 * 2 ^ s = unit at *
  obtain ⟨hnearMax, -⟩ := roundBits_nearest n s (infBits - 1)
  obtain ⟨hnearInf, htie⟩ := roundBits_nearest n s infBits
  have hbits : infBits = 0x7F800000 := rfl
  constructor
  · intro h
    have habove := Nat.mul_le_mul_right (2 ^ s) (gridMag_strictMono.monotone h)
    omega
  · intro hn
    by_contra h
    have hle : roundBits n s ≤ infBits - 1 := by omega
    rcases Nat.eq_or_lt_of_le hle with hmaxBits | hlt
    · rw [hmaxBits] at htie hnearInf
      omega
    · have hbelow := (Nat.mul_lt_mul_right hpow).2 (gridMag_strictMono hlt)
      omega

/-- The scaled value of a word is its grid point with its sign (R15). -/
theorem valueOf_mul_two_pow (w : Word) (s : Nat) :
    valueOf w * 2 ^ s =
      if signOf w then -((gridMag (bitsOf w) * 2 ^ s : Nat) : Int)
      else ((gridMag (bitsOf w) * 2 ^ s : Nat) : Int) := by
  rw [valueOf, magOf_eq_gridMag]
  split <;> push_cast <;> ring

/-- The rounded bits with the sign of `v` are nearest to `v` among the words of both signs: one of the other
sign is no nearer than zero. -/
theorem pack_roundBits_nearest (v : Int) (s : Nat) (w : Word) (h : roundBits v.natAbs s < 2 ^ 31) :
    let r := pack (decide (v < 0)) (roundBits v.natAbs s)
    (v - valueOf r * 2 ^ s).natAbs ≤ (v - valueOf w * 2 ^ s).natAbs ∧
      ((v - valueOf r * 2 ^ s).natAbs = (v - valueOf w * 2 ^ s).natAbs →
        valueOf w * 2 ^ s = valueOf r * 2 ^ s ∨ roundBits v.natAbs s % 2 = 0) := by
  have hsame := roundBits_nearest v.natAbs s (bitsOf w)
  have hzero := roundBits_nearest v.natAbs s 0
  intro r
  rw [valueOf_mul_two_pow, valueOf_mul_two_pow, signOf_pack _ h, bitsOf_pack _ h]
  rw [gridMag_zero, Nat.zero_mul] at hzero
  simp only [decide_eq_true_eq]
  split <;> split <;> omega

/-- The exact value `v * 2^-(149 + s)`, rounded and given its sign (R16). -/
theorem roundsTo_pack_roundMag (v : Int) (s : Nat) :
    roundsTo v s (pack (decide (v < 0)) (roundMag v.natAbs s)) := by
  have hcap : roundMag v.natAbs s < 2 ^ 31 := by
    rw [roundMag_eq_min]; exact (min_le_right _ _).trans_lt (by decide)
  refine ⟨signOf_pack _ hcap, ?_⟩
  split
  next hbig =>
    rw [isInf_iff, bitsOf_pack _ hcap, roundMag_eq_min,
      min_eq_right ((infBits_le_roundBits_iff _ _).2 hbig)]
  next hsmall =>
    have hlt : roundBits v.natAbs s < infBits :=
      Nat.lt_of_not_le fun h => hsmall ((infBits_le_roundBits_iff _ _).1 h)
    rw [roundMag_eq_min, min_eq_left hlt.le] at hcap ⊢
    refine ⟨(finite_iff _).2 (by rwa [bitsOf_pack _ hcap]), fun w _ => ?_⟩
    obtain ⟨hle, htie⟩ := pack_roundBits_nearest v s w hcap
    refine ⟨hle, fun heq => (htie heq).imp (mul_right_cancel₀ (by positivity)) fun heven => ?_⟩
    rw [toNat_pack _ hcap]
    split <;> omega

/-- Scaling by a power of two does not change what a value rounds to. -/
theorem roundsTo_scale {v : Int} {s k : Nat} {r : Word} :
    roundsTo (v * 2 ^ k) (s + k) r ↔ roundsTo v s r := by
  have hk : 0 < 2 ^ k := by positivity
  have hdist : ∀ w, (v * 2 ^ k - valueOf w * 2 ^ (s + k)).natAbs =
      (v - valueOf w * 2 ^ s).natAbs * 2 ^ k := fun w => by
    rw [pow_add, ← mul_assoc, ← sub_mul, Int.natAbs_mul, Int.natAbs_pow]; rfl
  have hsign : v * 2 ^ k < 0 ↔ v < 0 := by
    simpa using mul_lt_mul_iff_of_pos_right (b := v) (c := 0) (show (0 : Int) < 2 ^ k by positivity)
  have hbound : (2 ^ 128 - 2 ^ 103) * 2 ^ (149 + (s + k)) ≤ (v * 2 ^ k).natAbs ↔
      (2 ^ 128 - 2 ^ 103) * 2 ^ (149 + s) ≤ v.natAbs := by
    rw [← Nat.add_assoc, pow_add, ← Nat.mul_assoc, Int.natAbs_mul, Int.natAbs_pow]
    exact Nat.mul_le_mul_right_iff hk
  simp only [roundsTo, hdist, hsign, hbound, Nat.mul_le_mul_right_iff hk,
    Nat.mul_left_inj hk.ne']

/-- A value that a finite word has is rounded to itself. -/
theorem roundsTo_exact {v : Int} {s : Nat} {r w : Word} (h : roundsTo v s r) (hw : finite w)
    (hv : valueOf w * 2 ^ s = v) : valueOf r * 2 ^ s = v := by
  obtain ⟨-, hround⟩ := h
  have hmag : v.natAbs = gridMag (bitsOf w) * 2 ^ s := by
    rw [← hv, valueOf_mul_two_pow]; split <;> omega
  have hsmall : v.natAbs < (2 ^ 128 - 2 ^ 103) * 2 ^ (149 + s) := by
    have hle : gridMag (bitsOf w) ≤ gridMag (infBits - 1) :=
      gridMag_strictMono.monotone (Nat.le_sub_one_of_lt ((finite_iff w).1 hw))
    have hunit : 0 < 2 ^ 252 * 2 ^ s := by positivity
    rw [hmag, overflow_bound]
    calc gridMag (bitsOf w) * 2 ^ s ≤ (2 ^ 25 - 2) * 2 ^ 252 * 2 ^ s :=
          Nat.mul_le_mul_right _ (gridMag_infBits_pred ▸ hle)
      _ < (2 ^ 25 - 1) * (2 ^ 252 * 2 ^ s) := by rw [Nat.mul_assoc]; omega
  rw [if_neg (Nat.not_le_of_lt hsmall)] at hround
  have hnearest := (hround.2 w hw).1
  rw [hv] at hnearest
  omega


end Sys2Proof.Machine
end


section
/-! SUPPORT. The cases of `fadd` and `fmul`, and the NaN words (R16, R17). -/

namespace Sys2Proof.Machine

open Sys2Proof.Slice0 (finite roundsTo)

theorem isNaN_nanOf (w : Word) : isNaN (nanOf w) = true := by
  have hfrac : fracOf w < 2 ^ 23 := Nat.mod_lt _ (by decide)
  have hbits : (infBits + if fracOf w = 0 then 1 else fracOf w) < 2 ^ 31 := by
    unfold infBits; split <;> omega
  rw [isNaN_iff, nanOf, bitsOf_pack _ hbits]
  split <;> omega

theorem nanOf_of_isNaN {w : Word} (h : isNaN w = true) : nanOf w = w := by
  have hlt := bitsOf_lt w
  rw [isNaN_iff, infBits] at h
  have hfrac : fracOf w ≠ 0 := by rw [fracOf_eq_bitsOf]; omega
  have hbits : infBits + fracOf w = bitsOf w := by rw [fracOf_eq_bitsOf, infBits]; omega
  rw [nanOf, if_neg hfrac, hbits, pack_signOf_bitsOf]

theorem fadd_of_finite (nan : Word) {a b : Word} (ha : finite a) (hb : finite b) :
    fadd nan a b =
      if valueOf a + valueOf b = 0 then pack (signOf a && signOf b) 0
      else pack (decide (valueOf a + valueOf b < 0)) (roundMag (valueOf a + valueOf b).natAbs 0) := by
  obtain ⟨haNaN, haInf⟩ := ha
  obtain ⟨hbNaN, hbInf⟩ := hb
  simp [fadd, haNaN, haInf, hbNaN, hbInf]

theorem fmul_of_finite (nan : Word) {a b : Word} (ha : finite a) (hb : finite b) :
    fmul nan a b = pack (signOf a != signOf b) (roundMag (magOf a * magOf b) 149) := by
  obtain ⟨haNaN, haInf⟩ := ha
  obtain ⟨hbNaN, hbInf⟩ := hb
  simp [fmul, haNaN, haInf, hbNaN, hbInf]

theorem fadd_of_isNaN (nan : Word) {a b : Word} (h : isNaN a = true ∨ isNaN b = true) :
    fadd nan a b = nan := by
  rw [fadd, if_pos (by simpa using h)]

theorem fmul_of_isNaN (nan : Word) {a b : Word} (h : isNaN a = true ∨ isNaN b = true) :
    fmul nan a b = nan := by
  rw [fmul, if_pos (by simpa using h)]

/-- Infinities of like sign add up, of unlike sign they have no sum (R16). -/
theorem fadd_of_isInf (nan : Word) {a b : Word} (ha : isInf a = true) (hb : isInf b = true) :
    fadd nan a b = if signOf a = signOf b then a else nan := by
  simp only [fadd, isNaN_of_isInf ha, isNaN_of_isInf hb, ha, hb]
  cases signOf a <;> cases signOf b <;> rfl

/-- An infinity outweighs a finite word (R16). -/
theorem fadd_of_isInf_of_finite (nan : Word) {a b : Word} (ha : isInf a = true) (hb : finite b) :
    fadd nan a b = a ∧ fadd nan b a = a := by
  obtain ⟨hbNaN, hbInf⟩ := hb
  simp [fadd, isNaN_of_isInf ha, ha, hbNaN, hbInf]

/-- Infinity times zero has no product (R16). -/
theorem fmul_of_isInf_of_isZero (nan : Word) {a b : Word} (ha : isInf a = true)
    (hb : isZero b = true) : fmul nan a b = nan ∧ fmul nan b a = nan := by
  obtain ⟨hbNaN, hbInf⟩ := finite_of_isZero hb
  simp [fmul, isNaN_of_isInf ha, ha, hb, hbNaN, hbInf]

/-- Infinity times another number is infinity with the exclusive or of the signs (R16). -/
theorem fmul_of_isInf (nan : Word) {a b : Word} (ha : isInf a = true) (hb : isNaN b = false)
    (hz : isZero b = false) :
    fmul nan a b = pack (signOf a != signOf b) infBits ∧
      fmul nan b a = pack (signOf a != signOf b) infBits := by
  simp [fmul, isNaN_of_isInf ha, isZero_of_isInf ha, ha, hb, hz, bne_comm (a := signOf b)]

theorem natAbs_valueOf (w : Word) : (valueOf w).natAbs = magOf w := by
  unfold valueOf; split <;> simp

/-- The magnitude of a product is the product of the magnitudes. -/
theorem natAbs_valueOf_mul (a b : Word) : (valueOf a * valueOf b).natAbs = magOf a * magOf b := by
  rw [Int.natAbs_mul, natAbs_valueOf, natAbs_valueOf]

/-- A non-zero word is negative exactly when its sign bit is set (R15). -/
theorem valueOf_neg_iff {w : Word} (h : valueOf w ≠ 0) : valueOf w < 0 ↔ signOf w = true := by
  rw [valueOf] at h ⊢
  split at h
  next hsign => simp only [hsign, if_true, iff_true]; omega
  next hsign => simp [hsign]

/-- The sign of a non-zero product is the exclusive or of the signs (R16). -/
theorem sign_mul {a b : Word} (h : valueOf a * valueOf b ≠ 0) :
    decide (valueOf a * valueOf b < 0) = (signOf a != signOf b) := by
  obtain ⟨ha, hb⟩ := mul_ne_zero_iff.1 h
  rw [Bool.eq_iff_iff, decide_eq_true_eq, bne_iff_ne, ne_eq, Bool.eq_iff_iff, ← valueOf_neg_iff ha,
    ← valueOf_neg_iff hb, mul_neg_iff]
  omega

/-- A zero product is zero with the exclusive or of the signs (R16). -/
theorem fmul_of_zero (nan : Word) {a b : Word} (ha : finite a) (hb : finite b)
    (h : valueOf a * valueOf b = 0) : fmul nan a b = pack (signOf a != signOf b) 0 := by
  rw [fmul_of_finite nan ha hb, ← natAbs_valueOf_mul, h]
  rfl

/-- A half is the exact product by `2^-1`, that is by `2^148` units, rounded once (R17). -/
theorem fhalf_roundsTo (nan : Word) {a : Word} (ha : finite a) (h : valueOf a ≠ 0) :
    roundsTo (valueOf a) 1 (fhalf nan a) := by
  have hhalf : valueOf Word.half = 2 ^ 148 := by decide
  have hprod : valueOf a * valueOf Word.half ≠ 0 := by rw [hhalf]; positivity
  rw [fhalf, fmul_of_finite nan ha (by unfold finite; decide), ← sign_mul hprod, ← natAbs_valueOf_mul,
    ← roundsTo_scale (k := 148), hhalf]
  exact roundsTo_pack_roundMag _ _

/-- A finite word with an exponent of at least 2 has a half: the word with an exponent one less (R15). -/
theorem exists_half {a : Word} (ha : finite a) (h : 2 ≤ expOf a) :
    ∃ w, finite w ∧ valueOf w * 2 ^ 1 = valueOf a := by
  rw [expOf_eq_bitsOf] at h
  have hlt := (finite_iff a).1 ha
  have hbits : bitsOf a - 2 ^ 23 < 2 ^ 31 := by have := bitsOf_lt a; omega
  have hdouble : gridMag (bitsOf a) = 2 * gridMag (bitsOf a - 2 ^ 23) := by
    rw [← gridMag_add_exponent (by omega), Nat.sub_add_cancel (by omega)]
  refine ⟨pack (signOf a) (bitsOf a - 2 ^ 23), ?_, ?_⟩
  · rw [finite_iff, bitsOf_pack _ hbits]; omega
  · rw [valueOf, valueOf, magOf_eq_gridMag, magOf_eq_gridMag, hdouble, signOf_pack _ hbits,
      bitsOf_pack _ hbits]
    split <;> push_cast <;> ring

/-- Halving is exact for a normal result (R17). -/
theorem two_mul_valueOf_fhalf (nan : Word) {a : Word} (ha : finite a) (h : 2 ≤ expOf a) :
    2 * valueOf (fhalf nan a) = valueOf a := by
  obtain ⟨w, hw, hhalf⟩ := exists_half ha h
  have hpos : 0 < magOf a := by
    rw [expOf_eq_bitsOf] at h
    rw [magOf_eq_gridMag]
    exact gridMag_strictMono (a := 0) (by omega)
  have hne : valueOf a ≠ 0 := by
    rw [← Int.natAbs_ne_zero, natAbs_valueOf]; exact hpos.ne'
  rw [mul_comm, ← pow_one (2 : Int)]
  exact roundsTo_exact (fhalf_roundsTo nan ha hne) hw hhalf

end Sys2Proof.Machine

namespace Sys2Proof.Proofs

open Sys2Proof.Machine

/-- Settles O22: a finite sum packs the rounded magnitude with the sign of the sum. -/
theorem sumRoundsToNearestEven : Obligations.SumRoundsToNearestEven := by
  intro nan a b ha hb hsum
  rw [fadd_of_finite nan ha hb, if_neg hsum]
  exact roundsTo_pack_roundMag _ 0

/-- Settles O23: a finite product packs the rounded magnitude with the sign of the product. -/
theorem productRoundsToNearestEven : Obligations.ProductRoundsToNearestEven := by
  intro nan a b ha hb hprod
  rw [fmul_of_finite nan ha hb, ← sign_mul hprod, ← natAbs_valueOf_mul]
  exact roundsTo_pack_roundMag _ 149

/-- Settles O24, case by case of R16. -/
theorem zerosInfinitiesAndNaNs : Obligations.ZerosInfinitiesAndNaNs := by
  intro nan a b
  refine ⟨fun ha hb hsum => ?_, fun ha hb hprod => ?_, fadd_of_isInf nan,
    fadd_of_isInf_of_finite nan, fmul_of_isInf_of_isZero nan, fun ha hb hz => ?_,
    fun h => ⟨fadd_of_isNaN nan h, fmul_of_isNaN nan h⟩, rfl⟩
  · rw [fadd_of_finite nan ha hb, if_pos hsum]
    cases signOf a <;> cases signOf b <;> rfl
  · rw [fmul_of_zero nan ha hb hprod]
    cases signOf a <;> cases signOf b <;> rfl
  · obtain ⟨hab, hba⟩ := fmul_of_isInf nan ha hb hz
    refine ⟨?_, hba.trans hab.symm⟩
    rw [hab]
    cases signOf a <;> cases signOf b <;> rfl

/-- Settles O25: `fneg` keeps the bits below the sign, and `fhalf` rounds the exact half. -/
theorem negationAndHalving : Obligations.NegationAndHalving := by
  intro nan a
  refine ⟨⟨signOf_fneg a, ?_, ?_⟩, rfl, two_mul_valueOf_fhalf nan, fhalf_roundsTo nan⟩
  · rw [expOf_eq_bitsOf, expOf_eq_bitsOf, bitsOf_fneg]
  · rw [fracOf_eq_bitsOf, fracOf_eq_bitsOf, bitsOf_fneg]

/-- Settles O26: `nanOf` puts its bits above infinity's, and keeps those that are there already. -/
theorem nanResultsAreAnyNaN : Obligations.NaNResultsAreAnyNaN :=
  ⟨fun _ => isNaN_nanOf _, fun _ => nanOf_of_isNaN⟩

end Sys2Proof.Proofs
end

section
/-! SUPPORT. The operand of a command, its body's frame, and a presented access. -/

namespace Sys2Proof.Machine

open Sys2Proof.Slice0 (presented)

/-! ### Commands and their operands -/

/-- The decoder inverts the encoder (R93). -/
@[simp] theorem decode_encode (i : Instr) : decode (encode i) = .ok i := by cases i <;> rfl

theorem legalOn_iff {i : Instr} {b : Build} : i.legalOn b = true ↔ i.lg ≤ b.lgmax := decide_eq_true_iff

theorem four_le_size (i : Instr) : 4 ≤ i.size := Nat.pow_le_pow_right (n := 2) two_pos (two_le_lg i)

theorem kernelSize_of_complex {i : Instr} (h : i.kind = .complex) : kernelSize i = i.size := by
  simp only [kernelSize, h]

theorem kernelSize_of_real {i : Instr} (h : i.kind = .real) : kernelSize i = i.size / 2 := by
  simp only [kernelSize, h]

theorem two_le_kernelSize (i : Instr) : 2 ≤ kernelSize i := by
  have h4 := four_le_size i
  cases hk : i.kind with
  | complex => rw [kernelSize_of_complex hk]; omega
  | real => rw [kernelSize_of_real hk]; omega

/-- The kernel pass has a power of two of samples, at least two (R36, R200). -/
theorem kernelSize_eq_two_pow (i : Instr) : ∃ l, 1 ≤ l ∧ kernelSize i = 2 ^ l := by
  obtain ⟨l, -, hl⟩ := kernelSize_two_pow i le_rfl
  have h2 := two_le_kernelSize i
  refine ⟨l, Nat.pos_of_ne_zero fun h0 => ?_, hl⟩
  rw [hl, h0] at h2
  omega

/-- The operand of a real command is its `N` words (R23). -/
theorem operandWords_of_real {i : Instr} (h : i.kind = .real) : operandWords i = i.size := by
  obtain ⟨l, hl⟩ : ∃ l, i.lg = l + 1 := ⟨i.lg - 1, by have := two_le_lg i; omega⟩
  rw [operandWords, kernelSize_of_real h, Instr.size, hl, pow_succ]
  omega

/-- The operand of a legal command lies in `BUF` (R20, R94). -/
theorem operandWords_le {i : Instr} {b : Build} (h : i.lg ≤ b.lgmax) :
    operandWords i ≤ 2 * b.maxn := by
  have hsize : i.size ≤ b.maxn := Nat.pow_le_pow_right (n := 2) two_pos h
  cases hk : i.kind with
  | complex => rw [operandWords, kernelSize_of_complex hk]; omega
  | real => rw [operandWords_of_real hk]; omega

/-- A command's body accepts it, works inside its operand and completes it (R168, R206). -/
theorem commandBody_touches (i : Instr) (s : State) :
    ∃ t, Touches (operandWords i) (accept i.kind i.lg s) t ∧ commandBody i s = complete t := by
  cases hk : i.kind with
  | complex =>
    have hw : 2 * 2 ^ i.lg ≤ operandWords i := by rw [operandWords, kernelSize_of_complex hk]; rfl
    exact ⟨_, cfftCore_touches _ hw, by simp only [commandBody, hk, cfftBody]⟩
  | real =>
    have hw : 2 ^ i.lg ≤ operandWords i := (operandWords_of_real hk).ge
    exact ⟨_, rfftCore_touches _ (two_le_lg i) hw, by simp only [commandBody, hk, rfftBody]⟩

/-! ### The frame of the commands -/

/-- No command changes the build, the port, the replies or the count of resets, whatever becomes of its
write (R257). -/
theorem exec_keeps_surroundings {i : Instr} {s t : State} (h : exec i s = .next t) :
    t.build = s.build ∧ t.port = s.port ∧ t.replies = s.replies ∧ t.era = s.era := by
  rw [exec_eq_gate] at h
  cases h
  obtain ⟨-, h⟩ | ⟨-, -, h⟩ | ⟨-, -, h⟩ | ⟨-, -, h⟩ :=
    commandGate_cases (encode i) (i.legalOn s.build) (commandBody i) s
  · rw [h]; exact ⟨rfl, rfl, rfl, rfl⟩
  · rw [h, busyViolation_eq]; exact ⟨rfl, rfl, rfl, rfl⟩
  · obtain ⟨u, hu, hbody⟩ := commandBody_touches i { s with cmd := encode i }
    rw [h, hbody, hu.rest]; exact ⟨rfl, rfl, rfl, rfl⟩
  · rw [h]; exact ⟨rfl, rfl, rfl, rfl⟩

/-- A command that runs changes no word outside its operand (R168, R206). -/
theorem bufRead_exec_of_canRun {i : Instr} {s t : State} {a : Nat} (h : exec i s = .next t)
    (hrun : CanRun i s) (ha : operandWords i ≤ a) : bufRead t a = bufRead s a := by
  rw [exec_of_canRun hrun] at h
  cases h
  obtain ⟨u, hu, hbody⟩ := commandBody_touches i { s with cmd := encode i }
  rw [hbody]
  exact (bufRead_congr rfl rfl a).trans ((hu.outside a ha).trans (bufRead_congr rfl rfl a))

/-! ### A presented access -/

/-- A presented access is made in the step (R70 to R72). -/
theorem step_of_presented {s : State} {op : PortOp} {rest : List Access} (h : presented s op rest) :
    step s = hostAccess op { s with port := rest } := by
  obtain ⟨after, hport, hnow⟩ := h
  have hwaits : Access.waits ⟨op, after⟩ s.status.busy = false := by
    rcases hnow with hbusy | hafter
    · rw [hbusy]; rfl
    · subst hafter; cases s.status.busy <;> rfl
  simp only [step, hport, hwaits, Bool.false_eq_true, if_false]

end Sys2Proof.Machine

namespace Sys2Proof.Proofs

open Sys2Proof.Machine Sys2Proof.Slice0

/-- Settles O41: the four outcomes of the gate, each with its own frame. -/
theorem commandsKeepTheirFrame : Obligations.CommandsKeepTheirFrame := by
  intro i s t h
  obtain ⟨hbuild, hport, hreplies, hera⟩ := exec_keeps_surroundings h
  refine ⟨hbuild, hport, hreplies, hera, fun hrun a ha => bufRead_exec_of_canRun h hrun ha, ?_⟩
  rw [exec_eq_gate] at h
  refine ⟨fun hready hlarge a => ?_, fun herr hbusy => ?_, fun herr => ?_⟩
  · have hillegal : i.legalOn s.build = false := decide_eq_false (Nat.not_le_of_lt hlarge)
    rw [hillegal, commandGate_of_illegal hready] at h
    cases h
    exact bufRead_congr rfl rfl a
  · rw [commandGate_of_busy herr hbusy] at h
    cases h
    refine ⟨by rw [busyViolation_eq], fun a ha => ?_⟩
    rw [bufRead_busyViolation, if_neg (Nat.not_lt_of_le ha)]
  · rw [commandGate_of_err herr] at h
    cases h
    rfl

/-- Settles O17, register by register. -/
theorem registerReadsReturnRegisters : Obligations.RegisterReadsReturnRegisters := by
  intro s n rest h
  rw [step_of_presented h]
  match n with
  | 0 => rfl
  | 1 =>
    obtain ⟨build, buf, cmd, ⟨busy, done, err, errcode⟩, seq, port, replies, draws, era⟩ := s
    cases busy <;> cases done <;> cases err <;> rfl
  | 2 =>
    obtain ⟨⟨lgmax, strategy, hge, hle⟩, buf, cmd, status, seq, port, replies, draws, era⟩ := s
    cases strategy <;> rfl
  | n + 3 => rfl

/-- Settles O18: the port passes on writes of register 0 only. -/
theorem otherRegisterWritesIgnored : Obligations.OtherRegisterWritesIgnored := by
  intro s n v rest hn h
  rw [step_of_presented h]
  exact if_neg hn

/-- Settles O52: the write of the command's word is presented, and no access follows it. -/
theorem fetchedWordRunsNext : Obligations.FetchedWordRunsNext := by
  intro s i
  have hword : BitVec.ofNat 32 ((encode i).toNat % 2 ^ 32) = encode i := by
    rw [Nat.mod_eq_of_lt (encode i).isLt, BitVec.ofNat_toNat, BitVec.setWidth_eq]
  have hpresented : presented (s.withFetchWord 32 (encode i).toNat) (.write .reg 0 4 (encode i)) [] :=
    ⟨some 0, by rw [State.withFetchWord, hword], .inr rfl⟩
  calc step (s.withFetchWord 32 (encode i).toNat)
      = cmdWrite (encode i) { s with port := [] } := step_of_presented hpresented
    _ = exec i { s with port := [] } := by rw [cmdWrite, decode_encode]; rfl

end Sys2Proof.Proofs
end

section
/-! SUPPORT. The values of `STATUS`, and that each of its updates gives one of them (R31, R32, R91, R252). -/

namespace Sys2Proof.Machine

/-- The values `STATUS` takes: idle, running, idle after a completed command, halted by `ILLEGAL_CMD`
before and after a completed command, and halted by `BUSY_VIOLATION`. -/
def statusValues : List Status :=
  [⟨false, false, false, 0#4⟩, ⟨true, false, false, 0#4⟩, ⟨false, true, false, 0#4⟩,
    ⟨false, false, true, 1#4⟩, ⟨false, true, true, 1#4⟩, ⟨false, false, true, 2#4⟩]

/-- The fields of `STATUS` fit together in six ways (R31, R32). -/
theorem statusOk_iff_mem (t : Status) : StatusOk t ↔ t ∈ statusValues := by
  obtain ⟨busy, done, err, errcode⟩ := t
  revert busy done err errcode
  decide

/-- What holds of the six values holds of every `STATUS` of the invariant. -/
theorem StatusOk.of_forall_values {P : Status → Prop} {t : Status} (h : StatusOk t)
    (hP : ∀ u ∈ statusValues, P u) : P t :=
  hP t ((statusOk_iff_mem t).1 h)

theorem err_of_busy {t : Status} (h : StatusOk t) (hbusy : t.busy = true) : t.err = false :=
  h.of_forall_values (P := fun u => u.busy = true → u.err = false) (by decide) hbusy

theorem not_busy_of_err {t : Status} (h : StatusOk t) (herr : t.err = true) : t.busy = false :=
  h.of_forall_values (P := fun u => u.err = true → u.busy = false) (by decide) herr

theorem statusOk_accept {t : Status} (h : StatusOk t) (herr : t.err = false) : StatusOk t.accept :=
  h.of_forall_values (P := fun u => u.err = false → StatusOk u.accept) (by decide) herr

theorem statusOk_complete {t : Status} (h : StatusOk t) (herr : t.err = false) :
    StatusOk t.complete :=
  h.of_forall_values (P := fun u => u.err = false → StatusOk u.complete) (by decide) herr

/-- An abandoned command leaves `DONE` at 0, as `BUSY_VIOLATION` requires (R254). -/
theorem statusOk_violation {t : Status} (h : StatusOk t) (hbusy : t.busy = true) :
    StatusOk (t.abandon.record .busyViolation) :=
  h.of_forall_values (P := fun u => u.busy = true → StatusOk (u.abandon.record .busyViolation))
    (by decide) hbusy

theorem statusOk_illegal {t : Status} (h : StatusOk t) (hbusy : t.busy = false) :
    StatusOk (t.record .illegalCmd) :=
  h.of_forall_values (P := fun u => u.busy = false → StatusOk (u.record .illegalCmd))
    (by decide) hbusy

/-- After a fault `ERR` is set (R252). -/
theorem err_record (t : Status) (f : BlockFault) : (t.record f).err = true := by
  cases h : t.err with
  | true => rw [status_record_of_err t f h, h]
  | false => rw [status_record_of_no_err t f h]

end Sys2Proof.Machine
end

section
/-! SUPPORT. The three kinds of states of the invariant, idle, halted and running, and that the host's acts
lead from one to another (R36, R255). -/

namespace Sys2Proof.Machine

/-- The sequencer stands at a micro-operation of the command `i` (R36). -/
structure SeqAt (i : Instr) (q : Seq) : Prop where
  n : q.n = i.size
  m : q.m = kernelSize i
  indices : IndicesOk i q

/-! ### The three kinds of states -/

section
variable {s : State} (hbuf : BufOk s) (hstatus : StatusOk s.status)
include hbuf hstatus

theorem blockInv_of_idle (hready : Ready s) (hphase : s.seq.phase = .idle) : BlockInv s := by
  obtain ⟨herr, hbusy⟩ := hready
  exact ⟨hbuf, hstatus, by simp [PhaseOk, hphase, herr, hbusy], by simp [hbusy]⟩

theorem blockInv_of_halted (herr : s.status.err = true) (hphase : s.seq.phase = .halt) :
    BlockInv s :=
  ⟨hbuf, hstatus, by simp [PhaseOk, hphase, herr], by simp [not_busy_of_err hstatus herr]⟩

theorem blockInv_of_running {i : Instr} (hbusy : s.status.busy = true) (hcmd : decode s.cmd = .ok i)
    (hlg : i.lg ≤ s.build.lgmax) (hseq : SeqAt i s.seq) : BlockInv s := by
  obtain ⟨hn, hm, hindices⟩ := hseq
  have hphase : s.seq.phase ≠ .halt ∧ s.seq.phase ≠ .idle := by
    rcases hindices with ⟨hp, -⟩ | ⟨hp, -⟩ | ⟨hp, -⟩ <;> simp [hp]
  have hrun : RunningOk s :=
    ⟨i, by simp [hcmd, Except.toOption], legalOn_iff.2 hlg, hn, hm, hindices⟩
  exact ⟨hbuf, hstatus, by simp [PhaseOk, hphase, hbusy, err_of_busy hstatus hbusy], fun _ => hrun⟩

end

/-- A busy state of the invariant runs a legal command (R36, R254). -/
theorem running_of_busy {s : State} (h : BlockInv s) (hbusy : s.status.busy = true) :
    ∃ i, decode s.cmd = .ok i ∧ i.lg ≤ s.build.lgmax ∧ SeqAt i s.seq := by
  obtain ⟨-, -, -, hrun⟩ := h
  obtain ⟨i, hcmd, hlegal, hn, hm, hindices⟩ := hrun hbusy
  refine ⟨i, ?_, legalOn_iff.1 hlegal, hn, hm, hindices⟩
  cases hd : decode s.cmd with
  | error e => simp [hd, Except.toOption] at hcmd
  | ok j => simpa [hd, Except.toOption] using hcmd

/-- A state of the invariant that is not busy is idle or halted (R36). -/
theorem phase_of_not_busy {s : State} (h : BlockInv s) (hbusy : s.status.busy = false) :
    s.seq.phase = .idle ∨ s.seq.phase = .halt := by
  obtain ⟨-, -, ⟨hhalt, hidle⟩, -⟩ := h
  cases herr : s.status.err with
  | true => exact .inr (hhalt.2 herr)
  | false => exact .inl (hidle.2 ⟨herr, hbusy⟩)

/-! ### The memory -/

/-- What stays inside the operand of a legal command stays inside `BUF` (R20, R94). -/
theorem Touches.bufOk {i : Instr} {s t : State} (h : Touches (operandWords i) s t)
    (hlg : i.lg ≤ s.build.lgmax) (hbuf : BufOk s) : BufOk t := by
  obtain ⟨hwf, hbound⟩ := hbuf
  refine ⟨h.wf hwf, ?_⟩
  rw [h.build]
  exact h.bounded _ (operandWords_le hlg) hbound

theorem bufOk_bufWrite {s : State} {a : Nat} (v : Word) (ha : a < 2 * s.build.maxn)
    (hbuf : BufOk s) : BufOk (bufWrite a v s) :=
  ⟨insert_wf _ _ _ hbuf.1, insert_bounded v hbuf.2 ha⟩

/-! ### Faults, acceptance and completion -/

/-- A violation halts the block (R254). -/
theorem blockInv_busyViolation {s : State} (h : BlockInv s) (hbusy : s.status.busy = true) :
    BlockInv (busyViolation s) := by
  obtain ⟨i, -, hlg, hseq⟩ := running_of_busy h hbusy
  obtain ⟨⟨hwf, hbound⟩, hstatus, -, -⟩ := h
  have hwords : runningWords s ≤ 2 * s.build.maxn := by
    rw [runningWords, hseq.m]; exact operandWords_le hlg
  rw [busyViolation_eq]
  exact blockInv_of_halted ⟨scramble_wf _ s hwf, scramble_bounded _ s hwords hbound⟩
    (statusOk_violation hstatus hbusy) (err_record _ _) rfl

/-- An accepted command runs (R91). -/
theorem blockInv_accept {i : Instr} {s : State} (hbuf : BufOk s) (hstatus : StatusOk s.status)
    (herr : s.status.err = false) (hcmd : decode s.cmd = .ok i) (hlg : i.lg ≤ s.build.lgmax) :
    BlockInv (accept i.kind i.lg s) := by
  have hkernel := two_le_kernelSize i
  have hm : (accept i.kind i.lg s).seq.m = kernelSize i := rfl
  exact blockInv_of_running hbuf (statusOk_accept hstatus herr) rfl hcmd hlg
    ⟨rfl, hm, .inl ⟨rfl, by rw [hm]; exact two_pos.trans_le hkernel⟩⟩

/-- A command that has worked inside its operand completes (R91, R168, R206). -/
theorem blockInv_complete {i : Instr} {s t : State} (h : Touches (operandWords i) s t)
    (hlg : i.lg ≤ s.build.lgmax) (hbuf : BufOk s) (hstatus : StatusOk s.status)
    (herr : s.status.err = false) : BlockInv (complete t) := by
  rw [← h.status] at hstatus herr
  exact blockInv_of_idle (h.bufOk hlg hbuf) (statusOk_complete hstatus herr) ⟨herr, rfl⟩ rfl

/-! ### The host's acts -/

/-- A `CMD` write keeps the invariant when its body does (R91, R257). -/
theorem blockInv_commandGate {v : Word} {legal : Bool} {body : State → State} {s : State}
    (h : BlockInv s) (hbody : Ready s → legal = true → BlockInv (body { s with cmd := v })) :
    BlockInv (commandGate v legal body s) := by
  obtain ⟨-, hgate⟩ | ⟨-, hbusy, hgate⟩ | ⟨hready, hlegal, hgate⟩ | ⟨⟨-, hbusy⟩, -, hgate⟩ :=
    commandGate_cases v legal body s <;> rw [hgate]
  · exact h
  · exact blockInv_busyViolation h hbusy
  · exact hbody hready hlegal
  · obtain ⟨hbuf, hstatus, -, -⟩ := h
    exact blockInv_of_halted hbuf (statusOk_illegal hstatus hbusy) (err_record _ _) rfl

theorem blockInv_startCommand (i : Instr) {s : State} (h : BlockInv s) :
    BlockInv (startCommand i s) := by
  refine blockInv_commandGate h fun hready hlegal => ?_
  obtain ⟨hbuf, hstatus, -, -⟩ := h
  exact blockInv_accept hbuf hstatus hready.1 (decode_encode i) (legalOn_iff.1 hlegal)

theorem blockInv_exec {i : Instr} {s t : State} (h : BlockInv s) (ht : exec i s = .next t) :
    BlockInv t := by
  rw [exec_eq_gate] at ht
  cases ht
  refine blockInv_commandGate h fun ⟨herr, _⟩ hlegal => ?_
  obtain ⟨hbuf, hstatus, -, -⟩ := h
  obtain ⟨u, hu, hbody⟩ := commandBody_touches i { s with cmd := encode i }
  rw [hbody]
  exact blockInv_complete hu (legalOn_iff.1 hlegal) hbuf (statusOk_accept hstatus herr) herr

theorem blockInv_cmdWrite {v : Word} {s t : State} (h : BlockInv s) (ht : cmdWrite v s = .next t) :
    BlockInv t := by
  obtain ⟨-, rfl⟩ | ⟨i, -, -, rfl⟩ | ⟨i, -, -, hexec⟩ := cmdWrite_cases ht
  · exact blockInv_commandGate h fun _ hlegal => absurd hlegal Bool.false_ne_true
  · exact blockInv_startCommand i h
  · exact blockInv_exec h hexec

theorem blockInv_bufPortRead (a : Nat) {s : State} (h : BlockInv s) : BlockInv (bufPortRead a s) := by
  unfold bufPortRead
  split
  next hbusy => exact blockInv_busyViolation h hbusy
  next => split <;> exact h

theorem blockInv_bufPortWrite (a : Nat) (v : Word) {s : State} (h : BlockInv s) :
    BlockInv (bufPortWrite a v s) := by
  unfold bufPortWrite
  split
  next hbusy => exact blockInv_busyViolation h hbusy
  next =>
    split
    next ha =>
      obtain ⟨hbuf, hrest⟩ := h
      exact ⟨bufOk_bufWrite v ha hbuf, hrest⟩
    next => exact h

theorem blockInv_resetBlock (s : State) : BlockInv (resetBlock s) :=
  blockInv_of_idle ⟨rfl, by simp⟩ (by decide : StatusOk Status.reset) ⟨rfl, rfl⟩ rfl

theorem blockInv_hostAccess {op : PortOp} {s t : State} (h : BlockInv s)
    (ht : hostAccess op s = .next t) : BlockInv t := by
  obtain ⟨n, rfl⟩ | ⟨a, rfl⟩ | ⟨v, hcmd⟩ | rfl | ⟨a, v, rfl⟩ | ⟨-, rfl⟩ | rfl := hostAccess_cases ht
  · exact h
  · exact blockInv_bufPortRead a h
  · exact blockInv_cmdWrite h hcmd
  · exact h
  · exact blockInv_bufPortWrite a v h
  · exact blockInv_resetBlock s
  · exact h

end Sys2Proof.Machine
end

section
/-! SUPPORT. A micro-operation of a running command stays inside the operand, and leads to the next one or
to completion (R36, R145, R165, R203). -/

namespace Sys2Proof.Machine

/-- What a micro-operation of the command `i` leads to from `s`: it works inside the operand, and then the
command completes or its sequencer stands at the next micro-operation (R36, R187). -/
def Advances (i : Instr) (s u : State) : Prop :=
  ∃ t, Touches (operandWords i) s t ∧
    (u = complete t ∨ ∃ q, SeqAt i q ∧ u = { t with seq := q })

/-! ### The sequencer -/

/-- In `STAGES` the loop indices are inside the loops of R165, for a kernel pass of `2^l` samples. -/
theorem indicesOk_stages_iff {i : Instr} {q : Seq} {l : Nat} (hphase : q.phase = .stages)
    (hm : q.m = 2 ^ l) :
    IndicesOk i q ↔ 1 ≤ q.stage ∧ q.stage ≤ l ∧ 2 ^ q.stage ∣ q.base ∧
      q.base + 2 ^ q.stage ≤ 2 ^ l ∧ q.k < 2 ^ q.stage / 2 := by
  simp [IndicesOk, hphase, hm, Nat.log2_two_pow, Nat.dvd_iff_mod_eq_zero]

/-- After the last index of `PERMUTE` comes the first butterfly (R166). -/
theorem seqAt_afterPermute {i : Instr} {q : Seq} (h : SeqAt i q) (hphase : q.phase = .permute) :
    SeqAt i (seqAfterPermute q) := by
  obtain ⟨hn, hm, -⟩ := h
  unfold seqAfterPermute
  split
  next hi => exact ⟨hn, hm, .inl ⟨hphase, hi⟩⟩
  next =>
    obtain ⟨l, hl, hkernel⟩ := kernelSize_eq_two_pow i
    have hspan : 2 ^ 1 ≤ 2 ^ l := Nat.pow_le_pow_right two_pos hl
    refine ⟨hn, hm, (indicesOk_stages_iff
      (q := { q with phase := .stages, stage := 1, base := 0, k := 0, i := 0 })
      rfl (hm.trans hkernel)).2 ?_⟩
    exact ⟨le_rfl, hl, dvd_zero _, by simpa using hspan, by simp⟩

/-- The butterflies come in the order of `k`, of the groups and of the stages (R165, R166). -/
theorem seqAt_afterButterfly {i : Instr} {q q' : Seq} (h : SeqAt i q) (hphase : q.phase = .stages)
    (hnext : seqAfterButterfly q = some q') : SeqAt i q' := by
  obtain ⟨hn, hm, hindices⟩ := h
  obtain ⟨l, -, hkernel⟩ := kernelSize_eq_two_pow i
  have hml : q.m = 2 ^ l := hm.trans hkernel
  obtain ⟨hstage, hlast, hbase, hgroup, hk⟩ := (indicesOk_stages_iff hphase hml).1 hindices
  unfold seqAfterButterfly at hnext
  split at hnext
  next hkNext =>
    cases hnext
    exact ⟨hn, hm, (indicesOk_stages_iff (q := { q with k := q.k + 1 }) hphase hml).2
      ⟨hstage, hlast, hbase, hgroup, hkNext⟩⟩
  split at hnext
  next hgroupNext =>
    cases hnext
    rw [hml] at hgroupNext
    have hbaseNext : 2 ^ q.stage ∣ q.base + 2 ^ q.stage := hbase.add (dvd_refl _)
    have hfits : q.base + 2 ^ q.stage + 2 ^ q.stage ≤ 2 ^ l :=
      Nat.le_of_lt_add_of_dvd (by omega) (hbaseNext.add (dvd_refl _)) (pow_dvd_pow 2 hlast)
    exact ⟨hn, hm, (indicesOk_stages_iff
      (q := { q with base := q.base + 2 ^ q.stage, k := 0 }) hphase hml).2
      ⟨hstage, hlast, hbaseNext, hfits, (Nat.zero_le _).trans_lt hk⟩⟩
  split at hnext
  next hstageNext =>
    cases hnext
    rw [hml, Nat.log2_two_pow] at hstageNext
    have hspan : 2 ^ (q.stage + 1) ≤ 2 ^ l := Nat.pow_le_pow_right two_pos hstageNext
    have hhalf : 0 < 2 ^ (q.stage + 1) / 2 := by
      rw [pow_succ, Nat.mul_div_cancel _ two_pos]; positivity
    exact ⟨hn, hm, (indicesOk_stages_iff
      (q := { q with stage := q.stage + 1, base := 0, k := 0 }) hphase hml).2
      ⟨Nat.succ_pos _, hstageNext, dvd_zero _, by simpa using hspan, hhalf⟩⟩
  next => cases hnext

/-! ### The micro-operations -/

theorem permuteStep_advances {i : Instr} {s : State} (h : SeqAt i s.seq)
    (hphase : s.seq.phase = .permute) : Advances i s (permuteStep s) := by
  obtain ⟨l, -, hkernel⟩ := kernelSize_eq_two_pow i
  have hnext := seqAt_afterPermute h hphase
  obtain ⟨-, hm, ⟨-, hi⟩ | ⟨hp, -⟩ | ⟨hp, -⟩⟩ := h
  · have hml : s.seq.m = 2 ^ l := hm.trans hkernel
    refine ⟨_, ?_, .inr ⟨_, hnext, rfl⟩⟩
    rw [hml, Nat.log2_two_pow]
    exact permuteAt_touches _ s (hml ▸ hi) (by rw [operandWords, hkernel])
  · cases hphase.symm.trans hp
  · cases hphase.symm.trans hp

theorem afterKernel_advances {i : Instr} {s t : State} (h : SeqAt i s.seq)
    (ht : Touches (operandWords i) s t) : Advances i s (afterKernel s.seq t) := by
  obtain ⟨hn, hm, -⟩ := h
  unfold afterKernel
  split
  next => exact ⟨t, ht, .inl rfl⟩
  next hne =>
    have hreal : i.kind = .real := by
      cases hkind : i.kind with
      | complex => exact absurd (by rw [hm, hn, kernelSize_of_complex hkind]) hne
      | real => rfl
    refine ⟨t, ht, .inr ⟨_, ?_, rfl⟩⟩
    exact ⟨hn, hm, .inr (.inr ⟨rfl, hreal, Nat.zero_le _⟩)⟩

theorem butterflyStep_advances {i : Instr} {s : State} (h : SeqAt i s.seq)
    (hphase : s.seq.phase = .stages) : Advances i s (butterflyStep s) := by
  obtain ⟨l, -, hkernel⟩ := kernelSize_eq_two_pow i
  have hml : s.seq.m = 2 ^ l := h.m.trans hkernel
  obtain ⟨-, -, -, hgroup, hk⟩ := (indicesOk_stages_iff hphase hml).1 h.indices
  have htouches : Touches (operandWords i) s
      (stageAt stageButterfly s.seq.stage s.seq.base s.seq.k s) :=
    stageAt_touches s hk (by rw [operandWords, hkernel]; exact Nat.mul_le_mul_left 2 hgroup)
  obtain ⟨q, hq, hstep⟩ | ⟨-, hstep⟩ := butterflyStep_cases s
  · exact ⟨_, htouches, .inr ⟨q, seqAt_afterButterfly h hphase hq, hstep⟩⟩
  · rw [hstep]; exact afterKernel_advances h htouches

theorem recombineStep_advances {i : Instr} {s : State} (h : SeqAt i s.seq)
    (hphase : s.seq.phase = .recombine) : Advances i s (recombineStep s) := by
  obtain ⟨hn, hm, ⟨hp, -⟩ | ⟨hp, -⟩ | ⟨-, hreal, -⟩⟩ := h
  · cases hphase.symm.trans hp
  · cases hphase.symm.trans hp
  have hwords : s.seq.n = operandWords i := hn.trans (operandWords_of_real hreal).symm
  have h4 : 4 ≤ s.seq.n := hn ▸ four_le_size i
  have hnext : ∀ k, k ≤ s.seq.n / 4 → SeqAt i { s.seq with k := k } := fun k hk =>
    ⟨hn, hm, .inr (.inr ⟨hphase, hreal, hk⟩)⟩
  obtain ⟨-, hstep⟩ | ⟨hpos, hk, hstep⟩ | ⟨-, -, hstep⟩ := recombineStep_cases s
  · exact ⟨_, recombineBin0_touches s (by omega), .inr ⟨_, hnext 1 (by omega), hstep⟩⟩
  · exact ⟨_, recombinePair_touches s hpos (by omega) hwords.le, .inr ⟨_, hnext _ hk, hstep⟩⟩
  · exact ⟨_, recombineMid_touches s h4 hwords.le, .inl hstep⟩

theorem engineStep_advances {i : Instr} {s : State} (h : SeqAt i s.seq) :
    Advances i s (engineStep s) := by
  obtain ⟨hphase, -⟩ | ⟨hphase, -⟩ | ⟨hphase, -⟩ := h.indices
  · rw [engineStep_of_permute hphase]; exact permuteStep_advances h hphase
  · rw [engineStep_of_stages hphase]; exact butterflyStep_advances h hphase
  · rw [engineStep_of_recombine hphase]; exact recombineStep_advances h hphase

/-! ### The invariant -/

/-- A micro-operation keeps the invariant, and an engine at rest changes nothing (R36, R187). -/
theorem blockInv_engineStep {s : State} (h : BlockInv s) : BlockInv (engineStep s) := by
  cases hbusy : s.status.busy with
  | false => rwa [engineStep_of_not_running (phase_of_not_busy h hbusy)]
  | true =>
    obtain ⟨i, hcmd, hlg, hseq⟩ := running_of_busy h hbusy
    obtain ⟨hbuf, hstatus, -, -⟩ := h
    obtain ⟨t, ht, hdone | ⟨q, hq, hnext⟩⟩ := engineStep_advances hseq
    · rw [hdone]
      exact blockInv_complete ht hlg hbuf hstatus (err_of_busy hstatus hbusy)
    · have hbuf' : BufOk t := ht.bufOk hlg hbuf
      rw [hnext]
      rw [ht.rest] at hbuf' ⊢
      exact blockInv_of_running hbuf' hstatus hbusy hcmd hlg hq

end Sys2Proof.Machine

namespace Sys2Proof.Proofs

open Sys2Proof.Machine Sys2Proof.Slice0

/-- Settles O7: a step is a micro-operation or an act of the host, and both keep the invariant. -/
theorem stepKeepsInvariant : Obligations.StepKeepsInvariant := by
  intro s t h hstep
  obtain ⟨-, rfl⟩ | ⟨a, rest, -, -, rfl⟩ | ⟨a, rest, -, -, haccess⟩ := step_cases hstep
  · exact blockInv_engineStep h
  · exact blockInv_engineStep (s := { s with port := a.tick :: rest }) h
  · exact blockInv_hostAccess (s := { s with port := rest }) h haccess

/-- Settles O8: the six values of `STATUS` read as these six words. -/
theorem statusTakesSixValues : Obligations.StatusTakesSixValues := by
  rintro s ⟨-, hstatus, -, -⟩
  exact List.mem_map_of_mem (f := Status.word) ((statusOk_iff_mem _).1 hstatus)

end Sys2Proof.Proofs
end

section
/-! SUPPORT. The engine's passes as micro-operations: a run of them from one position of the sequencer to
another does to the block's store what the pass does, and the block is busy at every position before the
last (R71, R166, R187, R203). -/

namespace Sys2Proof.Machine

/-- The state `t` with the sequencer at `q`. -/
def standAt (q : Seq) (t : State) : State := { t with seq := q }

/-! ### The operations of the engine look past the sequencer -/

@[simp] theorem standAt_standAt (p q : Seq) (t : State) : standAt p (standAt q t) = standAt p t := rfl
@[simp] theorem standAt_build (q : Seq) (t : State) : (standAt q t).build = t.build := rfl
@[simp] theorem standAt_status (q : Seq) (t : State) : (standAt q t).status = t.status := rfl
@[simp] theorem standAt_draws (q : Seq) (t : State) : (standAt q t).draws = t.draws := rfl
@[simp] theorem sampleRead_standAt (q : Seq) (j : Nat) (t : State) :
    sampleRead (standAt q t) j = sampleRead t j := rfl
@[simp] theorem sampleWrite_standAt (q : Seq) (j : Nat) (z : Word × Word) (t : State) :
    sampleWrite j z (standAt q t) = standAt q (sampleWrite j z t) := rfl
@[simp] theorem draw_standAt (q : Seq) (n : Nat) (t : State) :
    draw n (standAt q t) = standAt q (draw n t) := rfl
theorem writePair_standAt (n i j : Nat) (p : Sample × Sample) (q : Seq) (t : State) :
    draw n (sampleWrite j p.2 (sampleWrite i p.1 (standAt q t))) =
      standAt q (draw n (sampleWrite j p.2 (sampleWrite i p.1 t))) := rfl
@[simp] theorem complete_standAt (q : Seq) (t : State) : complete (standAt q t) = complete t := rfl

@[simp] theorem permuteAt_standAt (rev : Nat → Nat) (i : Nat) (q : Seq) (t : State) :
    permuteAt rev swapSamples i (standAt q t) = standAt q (permuteAt rev swapSamples i t) := by
  unfold permuteAt
  split <;> simp only [swapSamples, sampleRead_standAt, sampleWrite_standAt]

@[simp] theorem stageAt_standAt (stage base k : Nat) (q : Seq) (t : State) :
    stageAt stageButterfly stage base k (standAt q t) =
      standAt q (stageAt stageButterfly stage base k t) := by
  unfold stageAt stageButterfly butterfly
  rw [standAt_build, standAt_draws, sampleRead_standAt, sampleRead_standAt]
  exact writePair_standAt _ _ _ _ q t

@[simp] theorem recombineBin0_standAt (q : Seq) (t : State) :
    recombineBin0 (standAt q t) = standAt q (recombineBin0 t) := by
  simp only [recombineBin0, standAt_draws, sampleRead_standAt, sampleWrite_standAt, draw_standAt]

@[simp] theorem recombinePair_standAt (n k : Nat) (q : Seq) (t : State) :
    recombinePair n k (standAt q t) = standAt q (recombinePair n k t) := by
  unfold recombinePair
  rw [standAt_build, standAt_draws, sampleRead_standAt, sampleRead_standAt]
  exact writePair_standAt _ _ _ _ q t

@[simp] theorem recombineMid_standAt (n : Nat) (q : Seq) (t : State) :
    recombineMid n (standAt q t) = standAt q (recombineMid n t) := by
  simp only [recombineMid, sampleRead_standAt, sampleWrite_standAt]

@[simp] theorem afterKernel_standAt (p q : Seq) (t : State) :
    afterKernel p (standAt q t) = afterKernel p t := by
  unfold afterKernel
  split <;> rfl

/-! ### Runs of micro-operations -/

/-- A run of `m + n` micro-operations is one of `m` and then one of `n`. -/
theorem engineRun_add (m n : Nat) (s : State) :
    engineRun (m + n) s = engineRun n (engineRun m s) := forUpTo_add m n _ s

/-- `n` micro-operations lead from `s` to `u`, and the block is busy before each of them. -/
structure Runs (n : Nat) (s u : State) : Prop where
  run : engineRun n s = u
  busy : ∀ j, j < n → (engineRun j s).status.busy = true

theorem Runs.zero (s : State) : Runs 0 s s := ⟨rfl, fun _ h => absurd h (Nat.not_lt_zero _)⟩

theorem Runs.trans {m n : Nat} {s t u : State} (h : Runs m s t) (k : Runs n t u) :
    Runs (m + n) s u where
  run := by rw [engineRun_add, h.run, k.run]
  busy j hj := by
    by_cases hm : j < m
    · exact h.busy j hm
    · obtain ⟨i, rfl⟩ := Nat.exists_eq_add_of_le (Nat.le_of_not_lt hm)
      rw [engineRun_add, h.run]
      exact k.busy i (by omega)

/-- On every busy store of the build `b`, `n` micro-operations do what `f` does: from the state that `start`
makes of a store they lead to the one that `finish` makes of the store after `f`, and the block is busy before
each of them. -/
def Performs (b : Build) (n : Nat) (start f finish : State → State) : Prop :=
  ∀ t, t.build = b → t.status.busy = true →
    (f t).build = b ∧ (f t).status.busy = true ∧ Runs n (start t) (finish (f t))

namespace Performs

variable {b : Build} {m n c : Nat} {f g start mid finish : State → State}

/-- A single micro-operation. -/
theorem step {q : Seq} (hkeeps : ∀ t, (f t).build = t.build ∧ (f t).status = t.status)
    (hstep : ∀ t, t.build = b → engineStep (standAt q t) = finish (f t)) :
    Performs b 1 (standAt q) f finish := fun t hbuild hbusy => by
  obtain ⟨hfbuild, hfstatus⟩ := hkeeps t
  refine ⟨hfbuild.trans hbuild, by rw [hfstatus, hbusy], hstep t hbuild, fun j hj => ?_⟩
  rw [Nat.lt_one_iff.1 hj]
  exact hbusy

theorem comp (hf : Performs b m start f mid) (hg : Performs b n mid g finish) :
    Performs b (m + n) start (fun t => g (f t)) finish := fun t hbuild hbusy => by
  obtain ⟨hfbuild, hfbusy, hfrun⟩ := hf t hbuild hbusy
  obtain ⟨hgbuild, hgbusy, hgrun⟩ := hg (f t) hfbuild hfbusy
  exact ⟨hgbuild, hgbusy, hfrun.trans hgrun⟩

/-- A loop, whose rounds take `c` micro-operations each. -/
theorem loop {start : Nat → State → State} {body : Nat → State → State}
    (hbody : ∀ v, v < n → Performs b c (start v) (body v) (start (v + 1))) :
    Performs b (n * c) (start 0) (forUpTo n body) (start n) := by
  induction n with
  | zero =>
    rw [Nat.zero_mul]
    exact fun t hbuild hbusy => ⟨hbuild, hbusy, Runs.zero _⟩
  | succ n ih =>
    rw [Nat.succ_mul]
    exact (ih fun v hv => hbody v (Nat.lt_succ_of_lt hv)).comp (hbody n (Nat.lt_succ_self n))

/-- A loop whose last round leads out of it: the sequencer has no position for the index `n`. -/
theorem loop_last {start : Nat → State → State} {body : Nat → State → State} (hn : 0 < n)
    (hbody : ∀ v, v + 1 < n → Performs b c (start v) (body v) (start (v + 1)))
    (hlast : ∀ v, v + 1 = n → Performs b c (start v) (body v) finish) :
    Performs b (n * c) (start 0) (forUpTo n body) finish := by
  obtain ⟨n, rfl⟩ := Nat.exists_eq_succ_of_ne_zero hn.ne'
  rw [Nat.succ_mul]
  exact (loop fun v hv => hbody v (Nat.succ_lt_succ hv)).comp (hlast n rfl)

end Performs

/-! ### Positions of the sequencer -/

/-- The sequencer at the index `i` of `PERMUTE` (R36, R145). -/
def permutePos (n l i : Nat) : Seq := ⟨.permute, n, 2 ^ l, 0, 0, 0, i⟩

/-- The sequencer at the butterfly of `stage`, `base` and `k` (R36, R165). -/
def stagePos (n l stage base k : Nat) : Seq := ⟨.stages, n, 2 ^ l, stage, base, k, 0⟩

/-- The sequencer at `k` of `RECOMBINE`: bin 0, a pair, or the self-mirrored bin (R36, R203). -/
def recombinePos (n l k : Nat) : Seq := ⟨.recombine, n, 2 ^ l, 0, 0, k, 0⟩

/-- What follows the kernel pass: completion, or the recombination (R168, R204). -/
def kernelEnd (n l : Nat) : State → State :=
  if 2 ^ l = n then complete else standAt (recombinePos n l 0)

theorem afterKernel_stagePos (n l stage base k : Nat) :
    afterKernel (stagePos n l stage base k) = kernelEnd n l := by
  funext t
  by_cases h : 2 ^ l = n
  · rw [kernelEnd, if_pos h]; exact if_pos h
  · rw [kernelEnd, if_neg h]; exact if_neg h

/-! ### `PERMUTE` -/

theorem permuteAt_keeps (rev : Nat → Nat) (i : Nat) (t : State) :
    (permuteAt rev swapSamples i t).build = t.build ∧
      (permuteAt rev swapSamples i t).status = t.status := by
  unfold permuteAt
  split <;> exact ⟨rfl, rfl⟩

theorem engineStep_permutePos (n l i : Nat) (t : State) :
    engineStep (standAt (permutePos n l i) t) =
      standAt (seqAfterPermute (permutePos n l i))
        (permuteAt (bitrev t.build.strategy l) swapSamples i t) := by
  have hstep : engineStep (standAt (permutePos n l i) t) =
      standAt (seqAfterPermute (permutePos n l i))
        (permuteAt (bitrev t.build.strategy (Nat.log2 (2 ^ l))) swapSamples i
          (standAt (permutePos n l i) t)) := rfl
  rw [hstep, permuteAt_standAt, Nat.log2_two_pow]
  rfl

/-- The `M` indices of `PERMUTE` (R145). -/
theorem performs_permute (b : Build) (n l : Nat) :
    Performs b (2 ^ l * 1) (standAt (permutePos n l 0)) (permute l) (standAt (stagePos n l 1 0 0)) := by
  have hround : ∀ i, Performs b 1 (standAt (permutePos n l i))
      (permuteAt (bitrev b.strategy l) swapSamples i)
      (standAt (seqAfterPermute (permutePos n l i))) := fun i =>
    Performs.step (permuteAt_keeps _ i) fun t hbuild => by rw [engineStep_permutePos, hbuild]
  have hloop : Performs b (2 ^ l * 1) (standAt (permutePos n l 0))
      (permuteWith (bitrev b.strategy l) swapSamples (2 ^ l)) (standAt (stagePos n l 1 0 0)) := by
    refine Performs.loop_last (start := fun i => standAt (permutePos n l i)) (by positivity)
      (fun i hi => ?_) fun i hi => ?_
    · have hnext : seqAfterPermute (permutePos n l i) = permutePos n l (i + 1) := if_pos hi
      exact hnext ▸ hround i
    · have hnext : seqAfterPermute (permutePos n l i) = stagePos n l 1 0 0 := if_neg hi.not_lt
      exact hnext ▸ hround i
  intro t hbuild hbusy
  rw [permute, hbuild]
  exact hloop t hbuild hbusy

/-! ### `STAGE` -/

/-- The state after a butterfly: the sequencer goes on, or the kernel pass ends (R165, R168, R204). -/
def afterButterfly (q : Seq) (t : State) : State :=
  match seqAfterButterfly q with
  | some q' => standAt q' t
  | none => afterKernel q t

theorem afterButterfly_of_some {q q' : Seq} (h : seqAfterButterfly q = some q') :
    afterButterfly q = standAt q' := by
  funext t; simp only [afterButterfly, h]

theorem afterButterfly_of_none {q : Seq} (h : seqAfterButterfly q = none) :
    afterButterfly q = afterKernel q := by
  funext t; simp only [afterButterfly, h]

theorem afterButterfly_standAt (p q : Seq) (t : State) :
    afterButterfly p (standAt q t) = afterButterfly p t := by
  cases h : seqAfterButterfly p with
  | some p' => rw [afterButterfly_of_some h, standAt_standAt]
  | none => rw [afterButterfly_of_none h, afterKernel_standAt]

theorem butterflyStep_standAt (q : Seq) (t : State) :
    butterflyStep (standAt q t) =
      afterButterfly q (stageAt stageButterfly q.stage q.base q.k t) := by
  have hstep : butterflyStep (standAt q t) =
      afterButterfly q (stageAt stageButterfly q.stage q.base q.k (standAt q t)) := rfl
  rw [hstep, stageAt_standAt, afterButterfly_standAt]

theorem engineStep_stagePos (n l stage base k : Nat) (t : State) :
    engineStep (standAt (stagePos n l stage base k) t) =
      afterButterfly (stagePos n l stage base k) (stageAt stageButterfly stage base k t) :=
  (engineStep_of_stages rfl).trans (butterflyStep_standAt (stagePos n l stage base k) t)

/-- The butterflies of one group (R165). -/
theorem performs_group (b : Build) (n l stage base : Nat) (hhalf : 0 < 2 ^ stage / 2) :
    Performs b (2 ^ stage / 2 * 1) (standAt (stagePos n l stage base 0))
      (forUpTo (2 ^ stage / 2) fun k t => stageAt stageButterfly stage base k t)
      (afterButterfly (stagePos n l stage base (2 ^ stage / 2 - 1))) := by
  have hround : ∀ k, Performs b 1 (standAt (stagePos n l stage base k))
      (stageAt stageButterfly stage base k) (afterButterfly (stagePos n l stage base k)) := fun k =>
    Performs.step (fun _ => ⟨rfl, rfl⟩) fun t _ => engineStep_stagePos n l stage base k t
  refine Performs.loop_last (start := fun k => standAt (stagePos n l stage base k)) hhalf
    (fun k hk => ?_) fun k hk => ?_
  · have hnext : seqAfterButterfly (stagePos n l stage base k) =
        some (stagePos n l stage base (k + 1)) := if_pos hk
    exact afterButterfly_of_some hnext ▸ hround k
  · rw [← hk]
    exact hround k

/-- What the last butterfly of a group leads to: the next group, the next stage, or the end of the kernel
pass (R165, R166). -/
theorem afterButterfly_last (n l stage base : Nat) (hhalf : 0 < 2 ^ stage / 2) :
    afterButterfly (stagePos n l stage base (2 ^ stage / 2 - 1)) =
      if base + 2 ^ stage < 2 ^ l then standAt (stagePos n l stage (base + 2 ^ stage) 0)
      else if stage < l then standAt (stagePos n l (stage + 1) 0 0)
      else kernelEnd n l := by
  have hlast : ¬ 2 ^ stage / 2 - 1 + 1 < 2 ^ stage / 2 := by omega
  have hnext : seqAfterButterfly (stagePos n l stage base (2 ^ stage / 2 - 1)) =
      if base + 2 ^ stage < 2 ^ l then some (stagePos n l stage (base + 2 ^ stage) 0)
      else if stage < l then some (stagePos n l (stage + 1) 0 0)
      else none := by
    simp only [seqAfterButterfly, stagePos, if_neg hlast, Nat.log2_two_pow]
  split_ifs at hnext ⊢
  · exact afterButterfly_of_some hnext
  · exact afterButterfly_of_some hnext
  · rw [afterButterfly_of_none hnext, afterKernel_stagePos]

/-- The groups of one stage (R165). -/
theorem performs_stage (b : Build) (n : Nat) {l stage : Nat} (h1 : 1 ≤ stage) (hl : stage ≤ l) :
    Performs b (2 ^ l / 2) (standAt (stagePos n l stage 0 0)) (stagePass l stage)
      (if stage < l then standAt (stagePos n l (stage + 1) 0 0) else kernelEnd n l) := by
  have hhalf : 0 < 2 ^ stage / 2 :=
    Nat.div_pos (Nat.le_self_pow (Nat.one_le_iff_ne_zero.1 h1) 2) two_pos
  have hgroups : 2 ^ l / 2 ^ stage * 2 ^ stage = 2 ^ l := Nat.div_mul_cancel (pow_dvd_pow 2 hl)
  have hcount : 2 ^ l / 2 ^ stage * (2 ^ stage / 2 * 1) = 2 ^ l / 2 := by
    rw [Nat.mul_one, ← Nat.mul_div_assoc _ (dvd_pow_self 2 (by omega)), hgroups]
  have hstart : stagePos n l stage 0 0 = stagePos n l stage (0 * 2 ^ stage) 0 := by rw [Nat.zero_mul]
  rw [← hcount, hstart]
  refine Performs.loop_last (start := fun g => standAt (stagePos n l stage (g * 2 ^ stage) 0))
    (Nat.div_pos (Nat.pow_le_pow_right two_pos hl) (by positivity)) (fun g hg => ?_) fun g hg => ?_
  · have hlt : (g + 1) * 2 ^ stage < 2 ^ l :=
      hgroups ▸ Nat.mul_lt_mul_of_pos_right hg (by positivity)
    have hgroup := performs_group b n l stage (g * 2 ^ stage) hhalf
    rwa [afterButterfly_last n l stage _ hhalf, ← Nat.succ_mul, if_pos hlt] at hgroup
  · have hend : (g + 1) * 2 ^ stage = 2 ^ l := by rw [hg, hgroups]
    have hgroup := performs_group b n l stage (g * 2 ^ stage) hhalf
    rwa [afterButterfly_last n l stage _ hhalf, ← Nat.succ_mul, if_neg hend.not_lt] at hgroup

/-! ### `CFFT_CORE` -/

/-- The stages of the kernel pass (R166). -/
theorem performs_stages (b : Build) (n : Nat) {l : Nat} (hl : 1 ≤ l) :
    Performs b (l * (2 ^ l / 2)) (standAt (stagePos n l 1 0 0))
      (forUpTo l fun j t => stagePass l (j + 1) t) (kernelEnd n l) := by
  refine Performs.loop_last (start := fun j => standAt (stagePos n l (j + 1) 0 0)) hl
    (fun j hj => ?_) fun j hj => ?_
  · have hstage := performs_stage b n (Nat.le_add_left 1 j) hj.le
    rwa [if_pos hj] at hstage
  · have hstage := performs_stage b n (Nat.le_add_left 1 j) hj.le
    rwa [if_neg hj.not_lt] at hstage

/-- The kernel pass (R166). -/
theorem performs_cfftCore (b : Build) (n : Nat) {l : Nat} (hl : 1 ≤ l) :
    Performs b (2 ^ l + 2 ^ l / 2 * l) (standAt (permutePos n l 0)) (cfftCore l)
      (kernelEnd n l) := by
  have hpasses := (performs_permute b n l).comp (performs_stages b n hl)
  rwa [Nat.mul_one, Nat.mul_comm l] at hpasses

/-! ### `RECOMBINE` -/

/-- The sequencer's turn in `RECOMBINE` (R203). -/
theorem engineStep_recombinePos (n l k : Nat) (t : State) :
    engineStep (standAt (recombinePos n l k) t) =
      if k = 0 then standAt (recombinePos n l 1) (recombineBin0 t)
      else if k < n / 4 then standAt (recombinePos n l (k + 1)) (recombinePair n k t)
      else complete (recombineMid n t) := by
  have hstep : engineStep (standAt (recombinePos n l k) t) =
      if k = 0 then standAt (recombinePos n l 1) (recombineBin0 (standAt (recombinePos n l k) t))
      else if k < n / 4 then
        standAt (recombinePos n l (k + 1)) (recombinePair n k (standAt (recombinePos n l k) t))
      else complete (recombineMid n (standAt (recombinePos n l k) t)) := rfl
  rw [hstep, recombineBin0_standAt, recombinePair_standAt, recombineMid_standAt, complete_standAt,
    standAt_standAt, standAt_standAt]

/-- The recombination (R203): bin 0, the pairs, and the self-mirrored bin, with which the command
completes. -/
theorem performs_recombine (b : Build) {n : Nat} (l : Nat) (h4 : 4 ≤ n) :
    Performs b (n / 4 + 1) (standAt (recombinePos n l 0)) (recombine n) complete := by
  have hbin0 : Performs b 1 (standAt (recombinePos n l 0)) recombineBin0
      (standAt (recombinePos n l 1)) :=
    Performs.step (fun _ => ⟨rfl, rfl⟩) fun t _ => engineStep_recombinePos n l 0 t
  have hpairs : Performs b ((n / 4 - 1) * 1) (standAt (recombinePos n l 1))
      (forUpTo (n / 4 - 1) fun j t => recombinePair n (j + 1) t)
      (standAt (recombinePos n l (n / 4 - 1 + 1))) :=
    Performs.loop (start := fun j => standAt (recombinePos n l (j + 1))) fun j hj =>
      Performs.step (fun _ => ⟨rfl, rfl⟩) fun t _ => by
        rw [engineStep_recombinePos, if_neg (Nat.succ_ne_zero j), if_pos (by omega)]
  have hmid : Performs b 1 (standAt (recombinePos n l (n / 4 - 1 + 1))) (recombineMid n) complete :=
    Performs.step (fun _ => ⟨rfl, rfl⟩) fun t _ => by
      rw [engineStep_recombinePos, if_neg (Nat.succ_ne_zero _), if_neg (by omega)]
  have hcount : 1 + (n / 4 - 1) * 1 + 1 = n / 4 + 1 := by omega
  exact hcount ▸ (hbin0.comp hpairs).comp hmid

/-! ### The commands -/

/-- A command that can run is accepted (R71, R91). -/
theorem startCommand_of_canRun {i : Instr} {s : State} (h : CanRun i s) :
    startCommand i s = accept i.kind i.lg { s with cmd := encode i } := by
  obtain ⟨hready, hlg⟩ := h
  rw [startCommand, legalOn_iff.2 hlg, commandGate_of_ready hready]

/-- The micro-operations of an accepted complex command do what its body does (R71, R168). -/
theorem cfftBody_runs {l : Nat} (hl : 1 ≤ l) (s : State) :
    Runs (2 ^ l + 2 ^ l / 2 * l) (accept .complex l s) (cfftBody l s) := by
  obtain ⟨-, -, hruns⟩ := performs_cfftCore s.build (2 ^ l) hl (accept .complex l s) rfl rfl
  rwa [kernelEnd, if_pos rfl] at hruns

/-- The micro-operations of an accepted real command do what its body does (R71, R206). -/
theorem rfftBody_runs {l : Nat} (hl : 1 ≤ l) (s : State) :
    Runs (2 ^ l + 2 ^ l / 2 * l + (2 ^ (l + 1) / 4 + 1)) (accept .real (l + 1) s)
      (rfftBody (l + 1) s) := by
  have hhalf : 2 ^ (l + 1) / 2 = 2 ^ l := by rw [pow_succ, Nat.mul_div_cancel _ two_pos]
  have hstart : accept .real (l + 1) s =
      standAt (permutePos (2 ^ (l + 1)) l 0) (accept .real (l + 1) s) := by
    rw [permutePos, ← hhalf]
    rfl
  have hkernel := performs_cfftCore s.build (2 ^ (l + 1)) hl
  rw [kernelEnd, if_neg (Nat.pow_lt_pow_succ one_lt_two).ne] at hkernel
  have h4 : 4 ≤ 2 ^ (l + 1) := Nat.pow_le_pow_right (n := 2) two_pos (Nat.succ_le_succ hl)
  obtain ⟨-, -, hruns⟩ :=
    hkernel.comp (performs_recombine s.build l h4) (accept .real (l + 1) s) rfl rfl
  rwa [← hstart] at hruns

/-- The micro-operations of an accepted command do what its body does (R71). -/
theorem commandBody_runs (i : Instr) (s : State) :
    Runs (Slice0.microOps i) (accept i.kind i.lg s) (commandBody i s) := by
  have h2 := two_le_lg i
  cases hk : i.kind with
  | complex =>
    simp only [Slice0.microOps, commandBody, kernelSize, Instr.size, hk, Nat.log2_two_pow]
    exact cfftBody_runs (by omega) s
  | real =>
    obtain ⟨l, hl⟩ : ∃ l, i.lg = l + 1 := ⟨i.lg - 1, by omega⟩
    have hhalf : 2 ^ (l + 1) / 2 = 2 ^ l := by rw [pow_succ, Nat.mul_div_cancel _ two_pos]
    simp only [Slice0.microOps, commandBody, kernelSize, Instr.size, hk, hl, hhalf, Nat.log2_two_pow]
    exact rfftBody_runs (by omega) s

end Sys2Proof.Machine

namespace Sys2Proof.Proofs

open Sys2Proof.Machine Sys2Proof.Slice0

/-- Settles O49: the micro-operations of an accepted command do what its body does, pass by pass. -/
theorem atomicStepIsExact : Obligations.AtomicStepIsExact := by
  intro i s h
  obtain ⟨hrun, hbusy⟩ := commandBody_runs i { s with cmd := encode i }
  rw [exec_of_canRun h, startCommand_of_canRun h, hrun]
  exact ⟨rfl, hbusy⟩

end Sys2Proof.Proofs
end

section
/-! SUPPORT. A stage, butterfly by butterfly: after the first `v` of them their pairs of samples are done and
all the others are as before the stage (R73, R165). -/

namespace Sys2Proof.Machine

/-! ### One butterfly -/

/-- Drawing free words leaves every sample as it was. -/
theorem sampleRead_draw (n j : Nat) (s : State) : sampleRead (draw n s) j = sampleRead s j :=
  sampleRead_congr rfl rfl j

/-- The first sample a butterfly writes (R161). -/
theorem sampleRead_butterfly_left {ia ib : Nat} (cs : Word × Word) (s : State) (h : ia ≠ ib) :
    sampleRead (butterfly ia ib cs s) ia =
      (butterflyPair s.draws (sampleRead s ia) (sampleRead s ib) cs).1 := by
  rw [butterfly, sampleRead_draw, sampleRead_sampleWrite_of_ne _ _ h, sampleRead_sampleWrite_same]

/-- The second sample a butterfly writes (R161). -/
theorem sampleRead_butterfly_right (ia ib : Nat) (cs : Word × Word) (s : State) :
    sampleRead (butterfly ia ib cs s) ib =
      (butterflyPair s.draws (sampleRead s ia) (sampleRead s ib) cs).2 := by
  rw [butterfly, sampleRead_draw, sampleRead_sampleWrite_same]

/-- A butterfly leaves every other sample as it was (R161). -/
theorem sampleRead_butterfly_of_ne {ia ib j : Nat} (cs : Word × Word) (s : State) (ha : j ≠ ia)
    (hb : j ≠ ib) : sampleRead (butterfly ia ib cs s) j = sampleRead s j := by
  rw [butterfly, sampleRead_draw, sampleRead_sampleWrite_of_ne _ _ hb,
    sampleRead_sampleWrite_of_ne _ _ ha]

/-! ### The pairs of a stage -/

/-- The samples of the butterfly `k` of group `g` in the stage with span `2 * half` (R164, R165). -/
def stagePair (s : State) (half g k : Nat) : Sample × Sample :=
  (sampleRead s (g * (2 * half) + k), sampleRead s (g * (2 * half) + k + half))

/-- A sample of a pair tells its group and its butterfly (R73, R164). -/
theorem pair_of_index {half g k j : Nat} (hk : k < half)
    (hj : j = g * (2 * half) + k ∨ j = g * (2 * half) + k + half) :
    j / (2 * half) = g ∧ j % half = k := by
  obtain ⟨r, hr, hrk, rfl⟩ : ∃ r, r < 2 * half ∧ r % half = k ∧ j = r + 2 * half * g := by
    rcases hj with rfl | rfl
    · exact ⟨k, by omega, Nat.mod_eq_of_lt hk, by ring⟩
    · exact ⟨k + half, by omega, by rw [Nat.add_mod_right, Nat.mod_eq_of_lt hk], by ring⟩
  constructor
  · rw [Nat.add_mul_div_left _ _ (by omega), Nat.div_eq_of_lt hr, Nat.zero_add]
  · rw [Nat.mul_comm 2, Nat.mul_assoc, Nat.add_mul_mod_self_left, hrk]

/-- The butterflies of a stage are numbered by group and `k` (R165). -/
theorem butterfly_number_inj {half g k g' k' : Nat} (hk : k < half) (hk' : k' < half)
    (h : g * half + k = g' * half + k') : g = g' ∧ k = k' := by
  have hkk : k = k' := by
    have := congrArg (· % half) h
    simpa only [Nat.mul_add_mod_self_right, Nat.mod_eq_of_lt hk, Nat.mod_eq_of_lt hk'] using this
  subst hkk
  exact ⟨Nat.eq_of_mul_eq_mul_right (by omega) (Nat.add_right_cancel h), rfl⟩

/-- The pairs of a stage are disjoint (R73). -/
theorem stagePair_butterfly_of_ne {half g k g' k' : Nat} (hk : k < half) (hk' : k' < half)
    (h : ¬ (g = g' ∧ k = k')) (cs : Word × Word) (s : State) :
    stagePair (butterfly (g' * (2 * half) + k') (g' * (2 * half) + k' + half) cs s) half g k =
      stagePair s half g k := by
  have hdisjoint : ∀ i j, (i = g * (2 * half) + k ∨ i = g * (2 * half) + k + half) →
      (j = g' * (2 * half) + k' ∨ j = g' * (2 * half) + k' + half) → i ≠ j := fun i j hi hj hij => by
    obtain ⟨hg, hkk⟩ := pair_of_index hk hi
    obtain ⟨hg', hkk'⟩ := pair_of_index hk' hj
    subst hij
    exact h ⟨hg.symm.trans hg', hkk.symm.trans hkk'⟩
  simp only [stagePair]
  rw [sampleRead_butterfly_of_ne cs s (hdisjoint _ _ (.inl rfl) (.inl rfl))
      (hdisjoint _ _ (.inl rfl) (.inr rfl)),
    sampleRead_butterfly_of_ne cs s (hdisjoint _ _ (.inr rfl) (.inl rfl))
      (hdisjoint _ _ (.inr rfl) (.inr rfl))]

/-- The first `v` butterflies of the stage on `s` have been taken, in the order of R165. -/
structure StageDone (s : State) (stage v : Nat) (t : State) : Prop where
  build : t.build = s.build
  draws : t.draws = s.draws + 10 * v
  pairs : ∀ g k, k < 2 ^ stage / 2 → stagePair t (2 ^ stage / 2) g k =
    if g * (2 ^ stage / 2) + k < v then
      butterflyPair (s.draws + 10 * (g * (2 ^ stage / 2) + k)) (stagePair s (2 ^ stage / 2) g k).1
        (stagePair s (2 ^ stage / 2) g k).2 (twiddle s.build k (2 ^ stage))
    else stagePair s (2 ^ stage / 2) g k

theorem StageDone.zero (s : State) (stage : Nat) : StageDone s stage 0 s :=
  ⟨rfl, rfl, fun _ _ _ => (if_neg (Nat.not_lt_zero _)).symm⟩

theorem two_mul_half {stage : Nat} (h : 1 ≤ stage) : 2 * (2 ^ stage / 2) = 2 ^ stage :=
  Nat.mul_div_cancel' (dvd_pow_self 2 (by omega))

/-- The butterfly of a stage takes its turn (R165). -/
theorem StageDone.next {s t : State} {stage g k : Nat} (h1 : 1 ≤ stage) (hk : k < 2 ^ stage / 2)
    (h : StageDone s stage (g * (2 ^ stage / 2) + k) t) :
    StageDone s stage (g * (2 ^ stage / 2) + (k + 1))
      (stageAt stageButterfly stage (g * 2 ^ stage) k t) where
  build := h.build
  draws := (congrArg (· + 10) h.draws).trans (by ring)
  pairs g' k' hk' := by
    have hat : stageAt stageButterfly stage (g * 2 ^ stage) k t =
        butterfly (g * (2 * (2 ^ stage / 2)) + k) (g * (2 * (2 ^ stage / 2)) + k + 2 ^ stage / 2)
          (twiddle s.build k (2 ^ stage)) t := by
      rw [two_mul_half h1, ← h.build]; rfl
    rw [hat]
    by_cases hsame : g' = g ∧ k' = k
    · obtain ⟨rfl, rfl⟩ := hsame
      have hbefore := h.pairs g' k' hk
      rw [if_neg (Nat.lt_irrefl _)] at hbefore
      rw [if_pos (by omega), ← hbefore, ← h.draws]
      exact Prod.ext (sampleRead_butterfly_left _ t (by omega)) (sampleRead_butterfly_right _ _ _ t)
    · have hnumber : g' * (2 ^ stage / 2) + k' ≠ g * (2 ^ stage / 2) + k := fun he =>
        hsame (butterfly_number_inj hk' hk he)
      rw [stagePair_butterfly_of_ne hk' hk hsame, h.pairs g' k' hk']
      exact if_congr (by omega) rfl rfl

/-- A stage takes all its butterflies (R165). -/
theorem stagePass_done (s : State) {lg stage : Nat} (h1 : 1 ≤ stage) :
    StageDone s stage (2 ^ lg / 2 ^ stage * (2 ^ stage / 2)) (stagePass lg stage s) := by
  refine forUpTo_induct (P := fun g t => StageDone s stage (g * (2 ^ stage / 2)) t)
    ((Nat.zero_mul (2 ^ stage / 2)).symm ▸ StageDone.zero s stage) fun g t _ ht => ?_
  rw [Nat.succ_mul]
  exact forUpTo_induct (P := fun k u => StageDone s stage (g * (2 ^ stage / 2) + k) u) ht
    fun k u hk hu => hu.next h1 hk

end Sys2Proof.Machine

namespace Sys2Proof.Proofs

open Sys2Proof.Machine Sys2Proof.Slice0

/-- Settles O37: butterfly by butterfly, each pair is as before the stage until its turn and done after it. -/
theorem stageActsPairwise : Obligations.StageActsPairwise := by
  intro s lg stage h1 _
  refine ⟨fun g k hg hk => ?_, fun a ha => (stagePass_touches s le_rfl).outside a ha⟩
  have hpair := (stagePass_done s (lg := lg) h1).pairs g k hk
  have hlt : g * (2 ^ stage / 2) + k < 2 ^ lg / 2 ^ stage * (2 ^ stage / 2) :=
    calc g * (2 ^ stage / 2) + k < (g + 1) * (2 ^ stage / 2) := by rw [Nat.succ_mul]; omega
      _ ≤ 2 ^ lg / 2 ^ stage * (2 ^ stage / 2) := Nat.mul_le_mul_right _ hg
  rw [if_pos hlt] at hpair
  simpa only [stagePair, two_mul_half h1] using hpair

end Sys2Proof.Proofs
end

section
/-! SUPPORT. The port of a block that is not busy, the widths it refuses, what the bus mapping reaches, and
the step while the host waits (R61, R64 to R71). -/

namespace Sys2Proof.Machine

open Sys2Proof.Slice0 (presented)

/-! ### `BUF` at the port -/

/-- A read of `BUF` by a block that is not busy, field by field (R61, R64). -/
theorem bufPortRead_of_not_busy (a : Nat) {s : State} (h : s.status.busy = false) :
    bufPortRead a s =
      { s with replies := (if a < 2 * s.build.maxn then bufRead s a else 0#32) :: s.replies } := by
  unfold bufPortRead
  rw [if_neg (by rw [h]; decide)]
  split <;> rfl

/-- A write of `BUF` to a block that is not busy changes the memory only (R65). -/
theorem bufPortWrite_rest (a : Nat) (v : Word) {s : State} (h : s.status.busy = false) :
    bufPortWrite a v s = { s with buf := (bufPortWrite a v s).buf } := by
  unfold bufPortWrite
  rw [if_neg (by rw [h]; decide)]
  split <;> rfl

/-- A write of `BUF` to a block that is not busy, word by word (R61, R65). -/
theorem bufRead_bufPortWrite (a c : Nat) (v : Word) {s : State} (h : s.status.busy = false) :
    bufRead (bufPortWrite a v s) c = if c = a ∧ a < 2 * s.build.maxn then v else bufRead s c := by
  unfold bufPortWrite
  rw [if_neg (by rw [h]; decide)]
  split
  next ha => simp only [bufRead_bufWrite, ha, and_true]
  next ha => simp only [ha, and_false, if_false]

/-! ### Other widths -/

theorem portRead_of_width_ne {width : Nat} (h : width ≠ 4) (space : Space) (a : Nat) (s : State) :
    portRead space a width s = .refused .accessWidth := if_pos h

theorem portWrite_of_width_ne {width : Nat} (h : width ≠ 4) (space : Space) (a : Nat) (v : Word)
    (s : State) : portWrite space a width v s = .refused .accessWidth := if_pos h

/-! ### The bus mapping -/

section
variable {regBase bufBase addr : Nat} {b : Build}

theorem busTarget_of_misaligned (h : addr % 4 ≠ 0) :
    busTarget regBase bufBase b addr = .error .misaligned := if_pos h

/-- An aligned address reaches a register, a word, or nothing of the block (R67, R69). -/
theorem busTarget_of_aligned (h : addr % 4 = 0) :
    (∃ n, addr = regBase + 4 * n ∧ busTarget regBase bufBase b addr = .ok (some (.reg, n))) ∨
    (∃ a, addr = bufBase + 4 * a ∧ busTarget regBase bufBase b addr = .ok (some (.buf, a))) ∨
    ((∀ n, addr ≠ regBase + 4 * n ∧ addr ≠ bufBase + 4 * n) ∧
      busTarget regBase bufBase b addr = .ok none) := by
  have haligned : ¬ addr % 4 ≠ 0 := not_not_intro h
  cases hreg : busIndex regBase addr with
  | none =>
    cases hbuf : busIndex bufBase addr with
    | none =>
      refine .inr (.inr ⟨fun n => ⟨busIndex_eq_none.1 hreg n, busIndex_eq_none.1 hbuf n⟩, ?_⟩)
      simp only [busTarget, if_neg haligned, hreg, hbuf]
    | some a =>
      refine .inr (.inl ⟨a, busIndex_eq_some.1 hbuf, ?_⟩)
      simp only [busTarget, if_neg haligned, hreg, hbuf]
  | some n =>
    cases hbuf : busIndex bufBase addr with
    | none =>
      refine .inl ⟨n, busIndex_eq_some.1 hreg, ?_⟩
      simp only [busTarget, if_neg haligned, hreg, hbuf]
    | some a =>
      by_cases hfirst : n < 3 ∨ (2 * b.maxn ≤ a ∧ bufBase ≤ regBase)
      · refine .inl ⟨n, busIndex_eq_some.1 hreg, ?_⟩
        simp only [busTarget, if_neg haligned, hreg, hbuf, if_pos hfirst]
      · refine .inr (.inl ⟨a, busIndex_eq_some.1 hbuf, ?_⟩)
        simp only [busTarget, if_neg haligned, hreg, hbuf, if_neg hfirst]

/-- An existing register is reached, also where an address names a word beside it (R67; log 11). -/
theorem busTarget_reg {n : Nat} (h : addr % 4 = 0) (haddr : addr = regBase + 4 * n) (hn : n < 3) :
    busTarget regBase bufBase b addr = .ok (some (.reg, n)) := by
  have haligned : ¬ addr % 4 ≠ 0 := not_not_intro h
  have hreg := busIndex_eq_some.2 haddr
  cases hbuf : busIndex bufBase addr <;>
    simp only [busTarget, if_neg haligned, hreg, hbuf, hn, true_or, if_true]

/-- An existing word that no register shares is reached (R67). -/
theorem busTarget_buf {a : Nat} (h : addr % 4 = 0) (haddr : addr = bufBase + 4 * a)
    (ha : a < 2 * b.maxn) (hreg : addr < regBase ∨ regBase + 12 ≤ addr) :
    busTarget regBase bufBase b addr = .ok (some (.buf, a)) := by
  have haligned : ¬ addr % 4 ≠ 0 := not_not_intro h
  have hbuf := busIndex_eq_some.2 haddr
  cases hindex : busIndex regBase addr with
  | none => simp only [busTarget, if_neg haligned, hindex, hbuf]
  | some n =>
    have hn := busIndex_eq_some.1 hindex
    have hword : ¬ (n < 3 ∨ (2 * b.maxn ≤ a ∧ bufBase ≤ regBase)) := by omega
    simp only [busTarget, if_neg haligned, hindex, hbuf, if_neg hword]

end

/-- An act placed at the head of the port is presented. -/
theorem presented_head (s : State) (op : PortOp) (rest : List Access) :
    presented { s with port := ⟨op, some 0⟩ :: rest } op rest := ⟨some 0, rfl, .inr rfl⟩

/-! ### The step while the host waits -/

theorem engineTurn_of_outOfRange {s : State} (h : operandsInRange s.build s.seq = false) :
    engineTurn s = .refused .operandRange := if_neg (by rw [h]; decide)

/-- While the block is busy and the host's next access is still to come, the engine takes its turn (R70). -/
theorem step_of_waiting {s : State} {a : Access} {rest : List Access} (hbusy : s.status.busy = true)
    (hport : s.port = a :: rest) (hlater : a.after ≠ some 0) :
    step s = engineTurn { s with port := a.tick :: rest } := by
  have hwaits : a.waits s.status.busy = true := by
    rw [Access.waits, hbusy, Bool.true_and]; exact decide_eq_true hlater
  simp only [step, hport, hwaits, if_true]

/-- Waiting for completion is not counted down. -/
theorem tick_of_none {a : Access} (h : a.after = none) : a.tick = a := by
  obtain ⟨op, after⟩ := a
  subst h
  rfl

/-- While the block is busy and no access comes before completion, the engine takes its turn (R70, R286). -/
theorem step_of_headWaits {s : State} (hbusy : s.status.busy = true)
    (h : Slice0.headWaits s.port) : step s = engineTurn s := by
  cases hport : s.port with
  | nil => simp only [step, hport]
  | cons a rest =>
    have hnone : a.after = none := h a (by rw [hport]; rfl)
    rw [step_of_waiting hbusy hport (by rw [hnone]; decide), tick_of_none hnone, ← hport]

/-- The engine's turn is a micro-operation in the invariant, and refused with operands out of range (R112). -/
theorem engineTurn_outcomes (s : State) :
    (BlockInv s → engineTurn s = .next (engineStep s)) ∧
      (operandsInRange s.build s.seq = false → engineTurn s = .refused .operandRange) :=
  ⟨fun h => engineTurn_of_inRange (operandsInRange_of_inv h), engineTurn_of_outOfRange⟩

end Sys2Proof.Machine

namespace Sys2Proof.Proofs

open Sys2Proof.Machine Sys2Proof.Slice0

/-- Settles O19: the port's read and write of `BUF`, field by field and word by word. -/
theorem bufferPortReadsAndWrites : Obligations.BufferPortReadsAndWrites := by
  intro s a rest hbusy
  refine ⟨fun h => ?_, fun v h => ?_⟩
  · rw [step_of_presented h]
    exact congrArg _ (bufPortRead_of_not_busy (s := { s with port := rest }) a hbusy)
  · refine ⟨bufPortWrite a v { s with port := rest }, step_of_presented h, ?_, fun c => ?_⟩
    · exact bufPortWrite_rest (s := { s with port := rest }) a v hbusy
    · exact bufRead_bufPortWrite (s := { s with port := rest }) a c v hbusy

/-- Settles O20: the port looks at the width first, and so does every aligned bus access. -/
theorem otherWidthsRefused : Obligations.OtherWidthsRefused := by
  intro s width v rest hwidth
  refine ⟨fun space a => ⟨fun h => ?_, fun h => ?_⟩, fun addr haddr => ⟨fun h => ?_, fun h => ?_⟩⟩
  · rw [step_of_presented h]; exact portRead_of_width_ne hwidth _ _ _
  · rw [step_of_presented h]; exact portWrite_of_width_ne hwidth _ _ _ _
  · rw [step_of_presented h]
    obtain ⟨n, -, ht⟩ | ⟨a, -, ht⟩ | ⟨-, ht⟩ := busTarget_of_aligned (regBase := Config.regBase)
      (bufBase := Config.bufBase) (b := s.build) haddr <;>
      simp only [hostAccess, ht, portRead_of_width_ne hwidth, if_pos hwidth]
  · rw [step_of_presented h]
    obtain ⟨n, -, ht⟩ | ⟨a, -, ht⟩ | ⟨-, ht⟩ := busTarget_of_aligned (regBase := Config.regBase)
      (bufBase := Config.bufBase) (b := s.build) haddr <;>
      simp only [hostAccess, ht, portWrite_of_width_ne hwidth, if_pos hwidth]

/-- Settles O21: what an address reaches, and the access it stands for. -/
theorem busMappingReachesEveryWord : Obligations.BusMappingReachesEveryWord := by
  refine ⟨fun regBase bufBase b hreg hbuf hwindows => ⟨fun n hn => ?_, fun a ha => ?_⟩,
    fun regBase bufBase b addr => ?_, fun s addr width v rest => ⟨fun h => ?_, fun h => ?_, fun hmis =>
      ⟨fun h => ?_, fun h => ?_⟩⟩⟩
  · exact busTarget_reg (by omega) rfl hn
  · exact busTarget_buf (by omega) rfl ha (by omega)
  · by_cases haddr : addr % 4 = 0
    · obtain ⟨n, hn, ht⟩ | ⟨a, ha, ht⟩ | ⟨hnone, ht⟩ := busTarget_of_aligned (regBase := regBase)
        (bufBase := bufBase) (b := b) haddr <;> rw [ht]
      · exact ⟨haddr, hn⟩
      · exact ⟨haddr, ha⟩
      · exact ⟨haddr, hnone⟩
    · rw [busTarget_of_misaligned haddr]
      exact ⟨haddr, rfl⟩
  · rw [step_of_presented h]
    cases ht : busTarget Config.regBase Config.bufBase s.build addr with
    | error r => simp only [hostAccess, ht]
    | ok target =>
      match target with
      | none => simp only [hostAccess, ht, ite_not]; rfl
      | some (space, a) =>
        simp only [hostAccess, ht, step_of_presented (presented_head s (.read space a width) rest)]
  · rw [step_of_presented h]
    cases ht : busTarget Config.regBase Config.bufBase s.build addr with
    | error r => simp only [hostAccess, ht]
    | ok target =>
      match target with
      | none => simp only [hostAccess, ht, ite_not]
      | some (space, a) =>
        simp only [hostAccess, ht, step_of_presented (presented_head s (.write space a width v) rest)]
  · rw [step_of_presented h]; simp only [hostAccess, busTarget_of_misaligned hmis]
  · rw [step_of_presented h]; simp only [hostAccess, busTarget_of_misaligned hmis]

/-- Settles O53: the write of a command word whose interval may be contended only accepts the command. -/
theorem contendedCommandStarts : Obligations.ContendedCommandStarts := by
  intro s i rest a more h hrest hafter hrun
  have hcontended : contended { s with port := rest } = true := by
    simp only [contended, hrest]; exact Option.isSome_iff_ne_none.2 hafter
  have hstart : startCommand i { s with port := rest } =
      accept i.kind i.lg { s with port := rest, cmd := encode i } :=
    startCommand_of_canRun (s := { s with port := rest }) hrun
  have hstep : step s = .next (accept i.kind i.lg { s with port := rest, cmd := encode i }) := by
    rw [step_of_presented h, ← hstart]
    simp only [hostAccess, portWrite, cmdWrite, decode_encode, hcontended, ne_eq, not_true,
      if_false, if_true]
  exact ⟨_, hstep, rfl, rfl, rfl, rfl, rfl, rfl, rfl⟩

/-- Settles O54: the engine takes its turn while the host waits. -/
theorem engineRunsWhileHostWaits : Obligations.EngineRunsWhileHostWaits := by
  intro s hbusy
  refine ⟨fun hwaits => ?_, fun op k rest hport => ?_⟩
  · rw [step_of_headWaits hbusy hwaits]
    exact engineTurn_outcomes s
  · rw [step_of_waiting hbusy hport (by simp)]
    exact engineTurn_outcomes { s with port := ⟨op, some k⟩ :: rest }

end Sys2Proof.Proofs
end

section
/-! SUPPORT. The decoder by its fields: which words are commands, and why every other word is none (R90, R93,
R94). -/

namespace Sys2Proof

/-- The fields of a command word, for every command (R90, R93). -/
theorem encode_fields (i : Instr) : Laws.EncodedFields.Statement i := by
  open Laws.EncodedFields in
  cases i
  exacts [cfft4, cfft8, cfft16, cfft32, cfft64, cfft128, cfft256, cfft512, cfft1024, cfft2048, cfft4096,
    cfft8192, cfft16384, rfft4, rfft8, rfft16, rfft32, rfft64, rfft128, rfft256, rfft512, rfft1024,
    rfft2048, rfft4096, rfft8192, rfft16384]

/-- Field `KIND` is bit 4 (R90). -/
theorem fieldKind_eq_complex_iff (w : Word) : fieldKind w = .complex ↔ w.toNat / 16 % 2 = 0 := by
  unfold fieldKind
  split <;> simp [*]

/-- The three fields are the whole word (R90). -/
theorem word_eq_of_fields {v w : Word} (hlg : fieldLg v = fieldLg w) (hkind : fieldKind v = fieldKind w)
    (hzero : fieldZero v = fieldZero w) : v = w := by
  apply BitVec.eq_of_toNat_eq
  have hbit : v.toNat / 16 % 2 = 0 ↔ w.toNat / 16 % 2 = 0 := by
    rw [← fieldKind_eq_complex_iff, hkind, fieldKind_eq_complex_iff]
  unfold fieldLg at hlg
  unfold fieldZero at hzero
  omega

/-- The table of commands gives back what it is asked for (R93). -/
theorem kind_lg_of_instrOf {k : Kind} {l : Nat} {i : Instr} (h : instrOf k l = some i) :
    i.kind = k ∧ i.lg = l := by
  unfold instrOf at h
  split at h <;> cases h <;> exact ⟨rfl, rfl⟩

/-- The table of commands has both kinds of every size from 4 to 16384 (R92, R93). -/
theorem exists_instrOf {k : Kind} {l : Nat} (h2 : 2 ≤ l) (h14 : l ≤ 14) : ∃ i, instrOf k l = some i := by
  cases k <;> interval_cases l <;> exact ⟨_, rfl⟩

/-- Every word is rejected for one of the three causes, or it is the word of a command (R93, R94). -/
theorem decode_cases (w : Word) :
    (fieldZero w ≠ 0 ∧ decode w = .error .reservedBits) ∨
    (fieldZero w = 0 ∧ fieldLg w < 2 ∧ decode w = .error .sizeTooSmall) ∨
    (fieldZero w = 0 ∧ fieldLg w = 15 ∧ decode w = .error .sizeTooLarge) ∨
    (∃ i, w = encode i ∧ decode w = .ok i) := by
  by_cases hzero : fieldZero w ≠ 0
  · exact .inl ⟨hzero, if_pos hzero⟩
  by_cases hsmall : fieldLg w < 2
  · exact .inr (.inl ⟨not_not.1 hzero, hsmall, by rw [decode, if_neg hzero, if_pos hsmall]⟩)
  cases hi : instrOf (fieldKind w) (fieldLg w) with
  | some i =>
    obtain ⟨hlg, hkind, hzeros, -, -⟩ := encode_fields i
    obtain ⟨hk, hl⟩ := kind_lg_of_instrOf hi
    refine .inr (.inr (.inr ⟨i, word_eq_of_fields ?_ ?_ ?_, ?_⟩))
    · rw [hlg, hl]
    · rw [hkind, hk]
    · rw [hzeros, not_not.1 hzero]
    · rw [decode, if_neg hzero, if_neg hsmall, hi]
  | none =>
    have hlarge : ¬ fieldLg w ≤ 14 := fun h14 => by
      obtain ⟨i, hsome⟩ := exists_instrOf (k := fieldKind w) (Nat.le_of_not_lt hsmall) h14
      rw [hi] at hsome
      cases hsome
    have hlt : fieldLg w < 16 := Nat.mod_lt _ (by decide)
    refine .inr (.inr (.inl ⟨not_not.1 hzero, by omega, ?_⟩))
    rw [decode, if_neg hzero, if_neg hsmall, hi]

/-- A word decodes to a command exactly when it is the command's word (R93). -/
theorem decode_eq_ok_iff {w : Word} {i : Instr} : decode w = .ok i ↔ w = encode i := by
  refine ⟨fun h => ?_, fun h => h ▸ Machine.decode_encode i⟩
  obtain ⟨-, hd⟩ | ⟨-, -, hd⟩ | ⟨-, -, hd⟩ | ⟨j, hj, hd⟩ := decode_cases w <;> rw [hd] at h <;> cases h
  exact hj

/-- The rows of the opcode map are the commands with their words (R93). -/
theorem mem_opcodeMap_iff {w : Word} {i : Instr} : (w, i) ∈ Slice0.opcodeMap ↔ w = encode i := by
  have hrows : ∀ row ∈ Slice0.opcodeMap, row.1 = encode row.2 := by decide
  have hcommands : (encode i, i) ∈ Slice0.opcodeMap := by cases i <;> decide
  exact ⟨hrows (w, i), fun h => h ▸ hcommands⟩

end Sys2Proof

namespace Sys2Proof.Proofs

open Sys2Proof.Machine Sys2Proof.Slice0

/-- Settles O2: the words that decode to a command and the rows of its map are both its one word. -/
theorem opcodeMapIsComplete : Obligations.OpcodeMapIsComplete := fun _ _ =>
  decode_eq_ok_iff.trans mem_opcodeMap_iff.symm

/-- Settles O4: the four outcomes of the decoder exclude each other by the fields of the word. -/
theorem reservedWordsRejectedByName : Obligations.ReservedWordsRejectedByName := by
  intro w
  have hzero : w.toNat < 32 ↔ fieldZero w = 0 := by unfold fieldZero; omega
  have hones : 32 ≤ w.toNat ↔ fieldZero w ≠ 0 := by rw [← not_lt, hzero]
  rw [hzero, hones, ← fieldLg]
  obtain ⟨hz, hd⟩ | ⟨hz, hl, hd⟩ | ⟨hz, hl, hd⟩ | ⟨i, rfl, hd⟩ := decode_cases w
  · simp [hd, hz]
  · simp [hd, hz, hl, show fieldLg w ≠ 15 by omega]
  · simp [hd, hz, hl]
  · obtain ⟨hlg, -, hz, h2, h14⟩ := encode_fields i
    simp [hz, hlg, show 1 < i.lg from h2, show i.lg ≠ 15 by omega]

/-- Settles O1: the four words are encodings. -/
theorem sampleWordsDecode : Obligations.SampleWordsDecode :=
  ⟨decode_encode .cfft4, decode_encode .cfft16384, decode_encode .rfft4, decode_encode .rfft16384⟩

/-- Settles O3: the decoder's lemma about the encoder, for every command. -/
theorem decodeInvertsEncode : Obligations.DecodeInvertsEncode := decode_encode

/-- Settles O11: a ready block takes the size for a fault, and a halted one ignores the write. -/
theorem commandsTurnedAway : Obligations.CommandsTurnedAway := by
  intro i s
  rw [exec_eq_gate]
  refine ⟨fun hready hlarge => ?_, fun herr => by rw [commandGate_of_err herr]⟩
  have hillegal : i.legalOn s.build = false := decide_eq_false (Nat.not_le_of_lt hlarge)
  rw [hillegal, commandGate_of_illegal hready, raiseFault, status_record_of_no_err _ _ hready.1]
  rfl

end Sys2Proof.Proofs
end

section
/-! SUPPORT. The engine looks past the registers and the sequencer, so a command that runs leaves what its
passes make of the state it was written in (R91, R168, R206). -/

namespace Sys2Proof.Machine

/-- The state `t` with other contents of `CMD`, `STATUS` and the sequencer. -/
def withRegisters (c : Word) (f : Status) (q : Seq) (t : State) : State :=
  { t with cmd := c, status := f, seq := q }

/-- A loop commutes with what every round of it commutes with. -/
theorem forUpTo_comm {σ : Type} {n : Nat} {body : Nat → σ → σ} {f : σ → σ}
    (h : ∀ v t, body v (f t) = f (body v t)) (s : σ) :
    forUpTo n body (f s) = f (forUpTo n body s) :=
  forUpTo_rel (R := fun u w => u = f w) rfl fun v _ w _ hu => hu ▸ h v w

section
variable (c : Word) (f : Status) (q : Seq)

theorem writePair_withRegisters (n i j : Nat) (p : Sample × Sample) (t : State) :
    draw n (sampleWrite j p.2 (sampleWrite i p.1 (withRegisters c f q t))) =
      withRegisters c f q (draw n (sampleWrite j p.2 (sampleWrite i p.1 t))) := rfl

theorem permuteAt_withRegisters (rev : Nat → Nat) (i : Nat) (t : State) :
    permuteAt rev swapSamples i (withRegisters c f q t) =
      withRegisters c f q (permuteAt rev swapSamples i t) := by
  unfold permuteAt
  split <;> rfl

theorem stageAt_withRegisters (stage base k : Nat) (t : State) :
    stageAt stageButterfly stage base k (withRegisters c f q t) =
      withRegisters c f q (stageAt stageButterfly stage base k t) :=
  writePair_withRegisters c f q 10 _ _ _ t

theorem cfftCore_withRegisters (lg : Nat) (t : State) :
    cfftCore lg (withRegisters c f q t) = withRegisters c f q (cfftCore lg t) := by
  have hpermute : permute lg (withRegisters c f q t) = withRegisters c f q (permute lg t) :=
    forUpTo_comm (fun i u => permuteAt_withRegisters c f q _ i u) t
  have hstage : ∀ j u, stageWith stageButterfly (2 ^ lg) (j + 1) (withRegisters c f q u) =
      withRegisters c f q (stageWith stageButterfly (2 ^ lg) (j + 1) u) := fun j =>
    forUpTo_comm fun g => forUpTo_comm fun k => stageAt_withRegisters c f q (j + 1) _ k
  calc cfftCore lg (withRegisters c f q t)
      = forUpTo lg (fun j => stageWith stageButterfly (2 ^ lg) (j + 1))
          (permute lg (withRegisters c f q t)) := rfl
    _ = withRegisters c f q (cfftCore lg t) := by rw [hpermute, forUpTo_comm hstage]; rfl

theorem recombinePair_withRegisters (n k : Nat) (t : State) :
    recombinePair n k (withRegisters c f q t) = withRegisters c f q (recombinePair n k t) :=
  writePair_withRegisters c f q 18 _ _ _ t

theorem recombine_withRegisters (n : Nat) (t : State) :
    recombine n (withRegisters c f q t) = withRegisters c f q (recombine n t) := by
  have hpairs := forUpTo_comm (n := n / 4 - 1)
    (fun j u => recombinePair_withRegisters c f q n (j + 1) u) (recombineBin0 t)
  calc recombine n (withRegisters c f q t)
      = recombineMid n (forUpTo (n / 4 - 1) (fun j => recombinePair n (j + 1))
          (withRegisters c f q (recombineBin0 t))) := rfl
    _ = withRegisters c f q (recombine n t) := by rw [hpairs]; rfl

end

/-- The passes of a command, by its kind and size (R168, R206). -/
def commandCore (i : Instr) : State → State :=
  match i.kind with
  | .complex => cfftCore i.lg
  | .real => rfftCore i.lg

theorem commandCore_of_complex {i : Instr} (h : i.kind = .complex) : commandCore i = cfftCore i.lg := by
  simp only [commandCore, h]

theorem commandCore_of_real {i : Instr} (h : i.kind = .real) : commandCore i = rfftCore i.lg := by
  simp only [commandCore, h]

/-- A command's body is its passes between acceptance and completion (R168, R206). -/
theorem commandBody_eq_core (i : Instr) (s : State) :
    commandBody i s = complete (commandCore i (accept i.kind i.lg s)) := by
  cases hk : i.kind with
  | complex => simp only [commandBody, commandCore, hk, cfftBody]
  | real => simp only [commandBody, commandCore, hk, rfftBody]

theorem commandCore_withRegisters (i : Instr) (c : Word) (f : Status) (q : Seq) (t : State) :
    commandCore i (withRegisters c f q t) = withRegisters c f q (commandCore i t) := by
  cases hk : i.kind with
  | complex => rw [commandCore_of_complex hk, cfftCore_withRegisters]
  | real =>
    simp only [commandCore_of_real hk, rfftCore, cfftCore_withRegisters, recombine_withRegisters]

/-- The passes of a command stay inside its operand (R168, R206). -/
theorem commandCore_touches (i : Instr) (s : State) : Touches (operandWords i) s (commandCore i s) := by
  cases hk : i.kind with
  | complex =>
    rw [commandCore_of_complex hk, operandWords, kernelSize_of_complex hk]
    exact cfftCore_touches s le_rfl
  | real =>
    rw [commandCore_of_real hk, operandWords_of_real hk]
    exact rfftCore_touches s (two_le_lg i) le_rfl

/-- A command that can run leaves its word, completion, the idle sequencer and the work of its passes on
the state it was written in (R91, R168, R206). -/
theorem exec_completes {i : Instr} {s : State} (h : CanRun i s) :
    exec i s = .next { s with
      cmd := encode i
      status := { s.status with busy := false, done := true }
      seq := Seq.idle
      buf := (commandCore i s).buf
      draws := (commandCore i s).draws } := by
  have haccept : accept i.kind i.lg { s with cmd := encode i } =
      withRegisters (encode i) s.status.accept (accept i.kind i.lg s).seq s := rfl
  rw [exec_of_canRun h, commandBody_eq_core, haccept, commandCore_withRegisters,
    (commandCore_touches i s).rest]
  rfl

/-- No busy interval is contended exactly when the next access, if any, waits for completion (R71). -/
theorem contended_eq_false_iff (s : State) : contended s = false ↔ Slice0.headWaits s.port := by
  unfold contended Slice0.headWaits
  cases s.port <;> simp

end Sys2Proof.Machine

namespace Sys2Proof.Proofs

open Sys2Proof.Machine Sys2Proof.Slice0

/-- Settles O39: the passes of a complex command are the kernel, whose frame is the operand. -/
theorem complexCommandsComplete : Obligations.ComplexCommandsComplete := by
  intro i s hkind hrun
  have hexec := exec_completes hrun
  have hframe := (commandCore_touches i s).outside
  rw [operandWords, kernelSize_of_complex hkind] at hframe
  rw [commandCore_of_complex hkind] at hexec hframe
  exact ⟨_, hexec, hframe⟩

/-- Settles O40: the passes of a real command are the kernel at half the size and the recombination. -/
theorem realCommandsComplete : Obligations.RealCommandsComplete := by
  intro i s hkind hrun
  have hexec := exec_completes hrun
  have hframe := (commandCore_touches i s).outside
  rw [operandWords_of_real hkind] at hframe
  rw [commandCore_of_real hkind] at hexec hframe
  exact ⟨_, hexec, hframe⟩

/-- Settles O51: the presented write is a `CMD` write in an interval that is not contended. -/
theorem stepRunsDecodedCommand : Obligations.StepRunsDecodedCommand := by
  intro s v i rest h hdecode hwaits
  have hcontended : contended { s with port := rest } = false := (contended_eq_false_iff _).2 hwaits
  calc step s
      = cmdWrite v { s with port := rest } := step_of_presented h
    _ = exec i { s with port := rest } := by rw [cmdWrite, hdecode]; simp [hcontended]

end Sys2Proof.Proofs
end

section
/-! SUPPORT. The words of the Sine Table in order (R111), the two ends of the scaled read (R112, R113) and
the twiddles quadrant by quadrant (R115 to R119). -/

namespace Sys2Proof.Machine

/-! ### The printed table -/

/-- The printed words carry no formula, so their order is an evaluation: chunk by chunk of 256 entries,
the step into the next chunk included (R240, R241). -/
theorem sineTable_chunk_lt_succ : ∀ c < 16, ∀ r < 256, 256 * c + r < 4095 →
    (sineTable (256 * c + r)).toNat < (sineTable (256 * c + r + 1)).toNat := by
  decide +kernel

theorem sineTable_lt_succ {i : Nat} (hi : i < 4095) :
    (sineTable i).toNat < (sineTable (i + 1)).toNat := by
  have hsplit : 256 * (i / 256) + i % 256 = i := Nat.div_add_mod i 256
  have hchunk := sineTable_chunk_lt_succ (i / 256) (by omega) (i % 256) (Nat.mod_lt _ (by decide))
  rw [hsplit] at hchunk
  exact hchunk hi

theorem sineTable_strictMonoOn : StrictMonoOn (fun i => (sineTable i).toNat) (Set.Iic 4095) :=
  strictMonoOn_Iic_of_lt_succ fun _ => sineTable_lt_succ

@[simp] theorem sineTable_zero : sineTable 0 = 0#32 := by decide +kernel

/-- The entry of the diagonal, `sin(pi/4)` (R119). -/
@[simp] theorem sineTable_diagonal : sineTable 2048 = 0x3F3504F3#32 := by decide +kernel

/-- The smallest non-zero entry is normal (R111). -/
theorem normal_sineTable_one : 0x00800000 ≤ (sineTable 1).toNat := by decide +kernel

/-- The largest entry is below 1.0 (R111). -/
theorem sineTable_last_lt_one : (sineTable 4095).toNat < 0x3F800000 := by decide +kernel

/-! ### The scaled read -/

/-- The entry one past the table is the constant 1.0 (R113). -/
@[simp] theorem sin_quarter (b : Build) (n : Nat) : sin b (n / 4) n = 0x3F800000#32 := if_pos rfl

theorem sin_of_lt (b : Build) {j n : Nat} (h : j < n / 4) : sin b j n = sineRom b (j * (b.maxn / n)) :=
  if_neg h.ne

/-- The sine of angle 0 is the table's first entry, `+0.0` (R119). -/
theorem sin_zero (b : Build) {n : Nat} (hn : 4 ≤ n) : sin b 0 n = 0#32 := by
  rw [sin_of_lt b (by omega), sineRom, Nat.zero_mul, Nat.zero_mul, sineTable_zero]

/-- The scaled index of an entry below the quarter is inside the ROM (R112). -/
theorem mul_stride_lt_quarter {b : Build} {lg j : Nat} (hlg : lg ≤ b.lgmax) (hj : j < 2 ^ lg / 4) :
    j * (b.maxn / 2 ^ lg) < b.maxn / 4 := by
  have hdvd : 2 ^ lg ∣ b.maxn := pow_dvd_pow 2 hlg
  have hpos : 0 < b.maxn / 2 ^ lg := Nat.div_pos (Nat.le_of_dvd (by simp [Build.maxn]) hdvd) (by simp)
  calc j * (b.maxn / 2 ^ lg)
      < 2 ^ lg / 4 * (b.maxn / 2 ^ lg) := Nat.mul_lt_mul_of_pos_right hj hpos
    _ = b.maxn / 2 ^ lg * (2 ^ lg / 4) := Nat.mul_comm ..
    _ ≤ b.maxn / 2 ^ lg * 2 ^ lg / 4 := Nat.mul_div_le_mul_div_assoc ..
    _ = b.maxn / 4 := by rw [Nat.div_mul_cancel hdvd]

/-- At `N/8` every size reads the entry of the diagonal (R119). -/
theorem sin_eighth (b : Build) {l : Nat} (hlg : l + 3 ≤ b.lgmax) :
    sin b (2 ^ l) (2 ^ (l + 3)) = 0x3F3504F3#32 := by
  have hquarter : 2 ^ l ≠ 2 ^ (l + 3) / 4 := by
    have := Nat.two_pow_pos l
    rw [pow_add]
    omega
  have hindex : 2 ^ l * 2 ^ (14 - (l + 3)) = 2048 := by
    have hle := b.lgmax_le
    rw [← pow_add, show l + (14 - (l + 3)) = 11 by omega]
    rfl
  rw [sin_two_pow b _ hlg, if_neg hquarter, hindex, sineTable_diagonal]

/-! ### The quadrants of a twiddle -/

/-- The quarter, the half and three quarters of a size, counted in quarters (R115). -/
theorem four_mul_quarters (m : Nat) :
    4 * m / 4 = m ∧ 4 * m / 2 = 2 * m ∧ 3 * (4 * m) / 4 = 3 * m := by
  omega

/-- A size of at least 4 is four times its quarter, which is not zero (R9). -/
theorem exists_four_mul_eq_two_pow {lg : Nat} (h2 : 2 ≤ lg) : ∃ m, 0 < m ∧ 2 ^ lg = 4 * m := by
  obtain ⟨l, rfl⟩ := Nat.exists_eq_add_of_le h2
  exact ⟨2 ^ l, Nat.two_pow_pos l, pow_add 2 2 l⟩

/-- The twiddle of size 2 (R117). -/
theorem twiddle_two (b : Build) (k : Nat) : twiddle b k 2 = (0x3F800000#32, 0#32) := rfl

theorem fneg_fneg (w : Word) : fneg (fneg w) = w := by
  rw [fneg, fneg, BitVec.xor_assoc, BitVec.xor_self, BitVec.xor_zero]

/-- In the first quadrant the twiddle is two plain reads (R115). -/
theorem twiddle_of_lt_quarter (b : Build) {m q : Nat} (hq : q < m) :
    twiddle b q (4 * m) = (sin b (m - q) (4 * m), sin b q (4 * m)) := by
  have hsize : 4 * m ≠ 2 := by omega
  simp only [twiddle, if_neg hsize, four_mul_quarters, Nat.div_eq_of_lt hq, Nat.mod_eq_of_lt hq]

/-- A quarter turn multiplies by the imaginary unit: `(c, s)` becomes `(-s, c)` (R115). -/
theorem twiddle_quarter_add (b : Build) {m k : Nat} (hk : k < 3 * m) :
    twiddle b (m + k) (4 * m) = (fneg (twiddle b k (4 * m)).2, (twiddle b k (4 * m)).1) := by
  have hsize : 4 * m ≠ 2 := by omega
  have hquad : (m + k) / m = k / m + 1 := Nat.add_div_left k (by omega)
  have hlast : k / m < 3 := Nat.div_lt_of_lt_mul (by omega)
  simp only [twiddle, if_neg hsize, four_mul_quarters, hquad, Nat.add_mod_left]
  interval_cases k / m
  · rfl
  · rfl
  · simp only [fneg_fneg]

/-- The four quadrants are the first and its three quarter turns (R115). -/
theorem twiddle_quadrants (b : Build) {m q : Nat} (hq : q < m) :
    let x := sin b (m - q) (4 * m)
    let y := sin b q (4 * m)
    twiddle b q (4 * m) = (x, y) ∧ twiddle b (m + q) (4 * m) = (fneg y, x) ∧
      twiddle b (2 * m + q) (4 * m) = (fneg x, fneg y) ∧
        twiddle b (3 * m + q) (4 * m) = (y, fneg x) := by
  intro x y
  have h0 : twiddle b q (4 * m) = (x, y) := twiddle_of_lt_quarter b hq
  have h1 : twiddle b (m + q) (4 * m) = (fneg y, x) := by
    rw [twiddle_quarter_add b (by omega), h0]
  have h2 : twiddle b (2 * m + q) (4 * m) = (fneg x, fneg y) := by
    rw [show 2 * m + q = m + (m + q) by omega, twiddle_quarter_add b (by omega), h1]
  have h3 : twiddle b (3 * m + q) (4 * m) = (y, fneg x) := by
    rw [show 3 * m + q = m + (2 * m + q) by omega, twiddle_quarter_add b (by omega), h2, fneg_fneg]
  exact ⟨h0, h1, h2, h3⟩

/-- The four points on the axes, from the two reads at the ends of the first quadrant (R119). -/
theorem twiddle_axes (b : Build) {m : Nat} (hm : 0 < m) :
    twiddle b 0 (4 * m) = (0x3F800000#32, 0#32) ∧
      twiddle b m (4 * m) = (0x80000000#32, 0x3F800000#32) ∧
      twiddle b (2 * m) (4 * m) = (0xBF800000#32, 0x80000000#32) ∧
      twiddle b (3 * m) (4 * m) = (0#32, 0xBF800000#32) := by
  have hone : sin b m (4 * m) = 0x3F800000#32 := by
    simpa only [four_mul_quarters] using sin_quarter b (4 * m)
  have hzero : sin b 0 (4 * m) = 0#32 := sin_zero b (by omega)
  have hnegZero : fneg 0#32 = 0x80000000#32 := by decide
  have hnegOne : fneg 0x3F800000#32 = 0xBF800000#32 := by decide
  simpa only [Nat.sub_zero, Nat.add_zero, hone, hzero, hnegZero, hnegOne] using twiddle_quadrants b hm

/-- The diagonal: both components are the entry of `pi/4` (R119). -/
theorem twiddle_eighth (b : Build) {lg : Nat} (h3 : 3 ≤ lg) (hlg : lg ≤ b.lgmax) :
    twiddle b (2 ^ lg / 8) (2 ^ lg) = (0x3F3504F3#32, 0x3F3504F3#32) := by
  obtain ⟨l, rfl⟩ := Nat.exists_eq_add_of_le' h3
  have hpos : 0 < 2 ^ l := Nat.two_pow_pos l
  have hsize : 2 ^ (l + 3) = 4 * (2 * 2 ^ l) := by rw [pow_add]; omega
  have heighth : 2 ^ (l + 3) / 8 = 2 ^ l := by omega
  have hother : 2 * 2 ^ l - 2 ^ l = 2 ^ l := by omega
  rw [heighth, hsize, twiddle_of_lt_quarter b (by omega), hother, ← hsize, sin_eighth b hlg]

/-- The cosine at `k` is the sine at `N/4 - k`: the same word of the table, or at `k = 0` the constant 1.0
as the cosine of angle 0 and as the sine of the quarter turn (R119). -/
theorem twiddle_cos_eq_sin (b : Build) {m k : Nat} (hk : k < m) :
    (twiddle b k (4 * m)).1 = (twiddle b (m - k) (4 * m)).2 := by
  rcases Nat.eq_zero_or_pos k with rfl | hpos
  · obtain ⟨hzero, hquarter, -⟩ := twiddle_axes b hk
    rw [Nat.sub_zero, hzero, hquarter]
  · rw [twiddle_of_lt_quarter b hk, twiddle_of_lt_quarter b (by omega : m - k < m)]

end Sys2Proof.Machine

namespace Sys2Proof.Proofs

open Sys2Proof.Machine

/-- Settles O27: the order of the printed words, and the bounds from its two ends. -/
theorem sineTableIncreases : Obligations.SineTableIncreases := by
  refine ⟨sineTable_zero, fun i => sineTable_lt_succ, fun i h1 hi => ⟨?_, ?_⟩⟩
  · calc 0x00800000
        ≤ (sineTable 1).toNat := normal_sineTable_one
      _ ≤ (sineTable i).toNat :=
        sineTable_strictMonoOn.monotoneOn (Set.mem_Iic.2 (by decide)) (Set.mem_Iic.2 (by omega)) h1
  · calc (sineTable i).toNat
        ≤ (sineTable 4095).toNat :=
        sineTable_strictMonoOn.monotoneOn (Set.mem_Iic.2 (by omega)) (Set.mem_Iic.2 le_rfl) (by omega)
      _ < 0x3F800000 := sineTable_last_lt_one

/-- Settles O28: the constant past the table, and the scaled index inside it. -/
theorem sineReadsInsideTable : Obligations.SineReadsInsideTable := by
  intro b lg j _ hlg _
  refine ⟨?_, fun hj => ⟨sin_of_lt b hj, mul_stride_lt_quarter hlg hj⟩⟩
  rintro rfl
  exact sin_quarter b (2 ^ lg)

/-- Settles O29: a read is an entry of the printed table that `MAXN` does not enter. -/
theorem sineIndependentOfMaxn : Obligations.SineIndependentOfMaxn := by
  intro b c lg j _ hb hc _
  rw [sin_two_pow b j hb, sin_two_pow c j hc]

/-- Settles O30: the quarter turns of the first quadrant. -/
theorem twiddleFollowsQuadrants : Obligations.TwiddleFollowsQuadrants := by
  intro b
  refine ⟨twiddle_two b 0, fun lg q h2 _ hq => ?_⟩
  obtain ⟨m, -, hsize⟩ := exists_four_mul_eq_two_pow h2
  simp only [hsize, four_mul_quarters] at hq ⊢
  exact twiddle_quadrants b hq

/-- Settles O31: the quarter turns of angle 0, the diagonal, and the same word read twice. -/
theorem twiddleAxesAreExact : Obligations.TwiddleAxesAreExact := by
  intro b lg h2 hlg
  obtain ⟨m, hm, hsize⟩ := exists_four_mul_eq_two_pow h2
  have heighth : 3 ≤ lg → twiddle b (4 * m / 8) (4 * m) = (0x3F3504F3#32, 0x3F3504F3#32) := by
    rw [← hsize]
    exact fun h3 => twiddle_eighth b h3 hlg
  obtain ⟨hzero, hturn, htwice, hthrice⟩ := twiddle_axes b hm
  simp only [hsize, four_mul_quarters]
  exact ⟨hzero, hturn, htwice, hthrice, heighth, fun k => twiddle_cos_eq_sin b⟩

end Sys2Proof.Proofs
end

section
/-! SUPPORT. Bit reversal of the defining sum: its halving law, its fixed ends, and that it is its own
inverse (R142). -/

namespace Sys2Proof.Machine

/-! ### The reversed index -/

/-- The halving law (R142 (e)): the low bit of the index becomes the high bit of the reversed one. -/
theorem bitrevSum_bit (lg i : Nat) {b : Nat} (hb : b < 2) :
    bitrevSum (lg + 1) (2 * i + b) = bitrevSum lg i + b * 2 ^ lg := by
  induction lg with
  | zero => simp [bitrevSum, Nat.mod_eq_of_lt hb]
  | succ lg ih =>
    have htop : (2 * i + b) / 2 ^ (lg + 1) = i / 2 ^ lg := by
      rw [pow_succ', ← Nat.div_div_eq_div_mul, Nat.mul_add_div two_pos, Nat.div_eq_of_lt hb, Nat.add_zero]
    calc bitrevSum (lg + 2) (2 * i + b)
        = 2 * bitrevSum (lg + 1) (2 * i + b) + (2 * i + b) / 2 ^ (lg + 1) % 2 := bitrevSum_succ _ _
      _ = 2 * bitrevSum lg i + i / 2 ^ lg % 2 + b * 2 ^ (lg + 1) := by rw [ih, htop]; ring
      _ = bitrevSum (lg + 1) i + b * 2 ^ (lg + 1) := by rw [bitrevSum_succ]

/-- Reversing twice gives back the low `lg` bits (R142 (a)). -/
theorem bitrevSum_bitrevSum (lg i : Nat) : bitrevSum lg (bitrevSum lg i) = i % 2 ^ lg := by
  induction lg with
  | zero => simp [bitrevSum, Nat.mod_one]
  | succ lg ih =>
    calc bitrevSum (lg + 1) (bitrevSum (lg + 1) i)
        = bitrevSum (lg + 1) (2 * bitrevSum lg i + i / 2 ^ lg % 2) := by rw [bitrevSum_succ lg i]
      _ = i % 2 ^ lg + i / 2 ^ lg % 2 * 2 ^ lg := by rw [bitrevSum_bit _ _ (Nat.mod_lt _ two_pos), ih]
      _ = i % 2 ^ (lg + 1) := by rw [Nat.mod_pow_succ, Nat.mul_comm]

/-- Index 0 is fixed (R142 (c)). -/
@[simp] theorem bitrevSum_zero (lg : Nat) : bitrevSum lg 0 = 0 := by simp [bitrevSum]

/-- The last index is fixed (R142 (c)): all its bits are 1. -/
theorem bitrevSum_last (lg : Nat) : bitrevSum lg (2 ^ lg - 1) = 2 ^ lg - 1 := by
  induction lg with
  | zero => rfl
  | succ lg ih =>
    have hpos : 0 < 2 ^ lg := by positivity
    have hlast : 2 ^ (lg + 1) - 1 = 2 * (2 ^ lg - 1) + 1 := by omega
    rw [hlast, bitrevSum_bit _ _ one_lt_two, ih]
    omega

/-- Index 1 reverses to half the size (R142 (c)). -/
theorem bitrevSum_one (lg : Nat) : bitrevSum (lg + 1) 1 = 2 ^ lg := by
  simpa using bitrevSum_bit lg 0 one_lt_two

/-- Half the size reverses to index 1 (R142 (c)). -/
theorem bitrevSum_half (lg : Nat) : bitrevSum (lg + 1) (2 ^ lg) = 1 := by
  rw [← bitrevSum_one, bitrevSum_bitrevSum, Nat.mod_eq_of_lt (Nat.one_lt_two_pow lg.succ_ne_zero)]

/-- Under both strategies reversing twice gives back the index (R142 (a)). -/
theorem bitrev_bitrev (st : Strategy) {lg i : Nat} (hlg : lg ≤ 14) (hi : i < 2 ^ lg) :
    bitrev st lg (bitrev st lg i) = i := by
  rw [bitrev_eq_sum st hlg (bitrev_lt st hi), bitrev_eq_sum st hlg hi, bitrevSum_bitrevSum,
    Nat.mod_eq_of_lt hi]

end Sys2Proof.Machine
end

section
/-! SUPPORT. `PERMUTE` (R145): its loop over any store whose swaps exchange two places, and the pass on
`BUF`. -/

namespace Sys2Proof.Machine

/-! ### The loop of swaps -/

/-- The place whose old content stands at `k` after the rounds below `v`: the pairs with a member below `v`
are exchanged, the others still stand. -/
def permutedFrom (rev : Nat → Nat) (v k : Nat) : Nat := if k < v ∨ rev k < v then rev k else k

/-- Round `v` exchanges the pair of `v` if `v` is its lower member. If not, the pair is done, or `v` is
fixed. -/
theorem permutedFrom_succ {rev : Nat → Nat} {v k : Nat} (hv : rev (rev v) = v) (hk : rev (rev k) = k) :
    permutedFrom rev (v + 1) k =
      permutedFrom rev v (if v < rev v then Equiv.swap v (rev v) k else k) := by
  split
  case isTrue hlow =>
    rcases eq_or_ne k v with rfl | hkv
    · simp [permutedFrom, hk, hlow.not_gt]
    rcases eq_or_ne k (rev v) with rfl | hkr
    · simp [permutedFrom, hv, hlow.not_gt]
    · have hrk : rev k ≠ v := fun h => hkr (h ▸ hk.symm)
      simp only [permutedFrom, Equiv.swap_apply_of_ne_of_ne hkv hkr, Nat.lt_succ_iff_lt_or_eq, hkv, hrk,
        or_false]
  case isFalse hhigh =>
    obtain hfixed | hdone : rev v = v ∨ rev v < v := by omega
    · grind [permutedFrom]
    · grind [permutedFrom]

/-- A loop of swaps over an involution `rev` of the indices below `m` moves what stood at `rev k` to `k`. -/
theorem read_permuteWith {σ α : Type} {rev : Nat → Nat} {swap : Nat → Nat → σ → σ} {read : σ → Nat → α}
    {m : Nat} (hswap : ∀ i j t k, read (swap i j t) k = read t (Equiv.swap i j k))
    (hlt : ∀ k, k < m → rev k < m) (hinv : ∀ k, k < m → rev (rev k) = k) (s : σ) {k : Nat} (hk : k < m) :
    read (permuteWith rev swap m s) k = read s (rev k) := by
  have hloop : ∀ k, k < m → read (permuteWith rev swap m s) k = read s (permutedFrom rev m k) := by
    refine forUpTo_induct (P := fun v t => ∀ k, k < m → read t k = read s (permutedFrom rev v k))
      (fun k _ => by simp [permutedFrom]) fun v t hv ht k hk => ?_
    rw [permutedFrom_succ (hinv v hv) (hinv k hk), permuteAt]
    split
    · have hto : Equiv.swap v (rev v) k < m := by
        rw [Equiv.swap_apply_def]
        split_ifs
        exacts [hlt v hv, hv, hk]
      rw [hswap, ht _ hto]
    · exact ht k hk
  rw [hloop k hk, permutedFrom, if_pos (.inl hk)]

/-! ### The pass on `BUF` -/

/-- A swap exchanges two samples (R145). -/
theorem sampleRead_swapSamples (i j : Nat) (s : State) (k : Nat) :
    sampleRead (swapSamples i j s) k = sampleRead s (Equiv.swap i j k) := by
  rw [swapSamples, sampleRead_sampleWrite, sampleRead_sampleWrite, Equiv.swap_apply_def]
  grind

/-- Equal samples hold equal words: word `a` is a part of sample `a / 2` (R22). -/
theorem bufRead_eq_of_sampleRead_eq {s t : State} {a : Nat}
    (h : sampleRead t (a / 2) = sampleRead s (a / 2)) : bufRead t a = bufRead s a := by
  obtain ⟨hre, him⟩ := Prod.ext_iff.1 h
  rcases Nat.even_or_odd' a with ⟨j, rfl | rfl⟩
  · simpa [sampleRead] using hre
  · have : (2 * j + 1) / 2 = j := by omega
    simpa [sampleRead, this] using him

/-- Each sample comes from its reversed index (R145). -/
theorem sampleRead_permute (s : State) {lg i : Nat} (hlg : lg ≤ 14) (hi : i < 2 ^ lg) :
    sampleRead (permute lg s) i = sampleRead s (bitrev s.build.strategy lg i) :=
  read_permuteWith sampleRead_swapSamples (fun _ => bitrev_lt _) (fun _ => bitrev_bitrev _ hlg) s hi

/-- The words past the operand stay (R145). -/
theorem bufRead_permute_of_le (s : State) {lg a : Nat} (ha : 2 * 2 ^ lg ≤ a) :
    bufRead (permute lg s) a = bufRead s a :=
  (permute_touches s le_rfl).outside a ha

/-- The pass moves bit patterns: beside `BUF` it changes nothing, and it draws no free word (R145). -/
theorem permute_rest (lg : Nat) (s : State) : permute lg s = { s with buf := (permute lg s).buf } := by
  have hbuf : ∃ b, permute lg s = { s with buf := b } := by
    refine forUpTo_induct (P := fun _ t => ∃ b, t = { s with buf := b }) ⟨s.buf, rfl⟩ fun v t _ ht => ?_
    obtain ⟨b, rfl⟩ := ht
    unfold permuteAt
    split
    · exact ⟨_, rfl⟩
    · exact ⟨b, rfl⟩
  obtain ⟨b, hb⟩ := hbuf
  rw [hb]

/-- Two passes give every sample back (R146 (d)). -/
theorem sampleRead_permute_permute (s : State) {lg i : Nat} (hlg : lg ≤ 14) (hi : i < 2 ^ lg) :
    sampleRead (permute lg (permute lg s)) i = sampleRead s i := by
  have hbuild : (permute lg s).build = s.build := (permute_touches s le_rfl).build
  rw [sampleRead_permute _ hlg hi, sampleRead_permute _ hlg (bitrev_lt _ hi), hbuild,
    bitrev_bitrev _ hlg hi]

end Sys2Proof.Machine

namespace Sys2Proof.Proofs

open Sys2Proof.Machine

/-- Settles O32: both strategies give the defining sum, which is an index again. -/
theorem bitReversalFormsAgree : Obligations.BitReversalFormsAgree := fun lg i hlg hi =>
  ⟨bitrev_eq_sum .computed hlg hi, bitrev_eq_sum .tabled hlg hi, bitrevSum_lt lg i⟩

/-- Settles O33: the laws of the defining sum, carried over to both strategies. -/
theorem bitReversalLaws : Obligations.BitReversalLaws := by
  intro st lg hlg
  have hpos : 0 < 2 ^ lg := by positivity
  refine ⟨fun i => bitrev_bitrev st hlg, ?_, ?_, fun h1 => ?_⟩
  · rw [bitrev_eq_sum st hlg hpos, bitrevSum_zero]
  · rw [bitrev_eq_sum st hlg (by omega), bitrevSum_last]
  · obtain ⟨l, rfl⟩ := Nat.exists_eq_add_of_le' h1
    have hl : l ≤ 14 := by omega
    have hhalf : 2 ^ (l + 1) / 2 = 2 ^ l := by omega
    have hlpos : 0 < 2 ^ l := by positivity
    rw [hhalf, Nat.add_sub_cancel]
    refine ⟨?_, ?_, fun i hi => ⟨?_, ?_⟩⟩
    · rw [bitrev_eq_sum st hlg (by omega), bitrevSum_one]
    · rw [bitrev_eq_sum st hlg (by omega), bitrevSum_half]
    · rw [bitrev_eq_sum st hlg (by omega), bitrev_eq_sum st hl hi]
      simpa using bitrevSum_bit l i two_pos
    · rw [bitrev_eq_sum st hlg (by omega), bitrev_eq_sum st hl hi]
      simpa using bitrevSum_bit l i one_lt_two

/-- Settles O34: each pair of samples is exchanged once, and the pass stays inside its operand. -/
theorem permuteReordersSamples : Obligations.PermuteReordersSamples := fun s lg hlg =>
  ⟨fun _ => sampleRead_permute s (hlg.trans s.build.lgmax_le), fun _ => bufRead_permute_of_le s,
    permute_rest lg s⟩

/-- Settles O35: inside the pass sample by sample, outside it word by word. -/
theorem permuteTwiceRestores : Obligations.PermuteTwiceRestores := by
  intro s lg a hlg
  rcases Nat.lt_or_ge a (2 * 2 ^ lg) with ha | ha
  · exact bufRead_eq_of_sampleRead_eq
      (sampleRead_permute_permute s (hlg.trans s.build.lgmax_le) (by omega))
  · rw [bufRead_permute_of_le _ ha, bufRead_permute_of_le _ ha]

end Sys2Proof.Proofs
end

section
/-! SUPPORT. A loop whose rounds write disjoint cells: what one of its rounds leaves is what the loop leaves
(R73). -/

-- One theorem after the other: side by side, their threads need more memory than the check allows.
set_option Elab.async false

namespace Sys2Proof.Machine

/-- When only round `w` of a loop changes what `read` sees, the loop leaves what that round leaves, and the
rounds before it leave what stood there. -/
theorem read_forUpTo_of_round {σ α : Type} {read : σ → α} {n w : Nat} {body : Nat → σ → σ} (hw : w < n)
    (hkeep : ∀ v t, v < n → v ≠ w → read (body v t) = read t) (s : σ) :
    read (forUpTo n body s) = read (body w (forUpTo w body s)) ∧ read (forUpTo w body s) = read s := by
  obtain ⟨d, rfl⟩ := Nat.exists_eq_add_of_le hw
  constructor
  · rw [forUpTo_add (w + 1) d]
    exact forUpTo_induct (P := fun _ t => read t = read (body w (forUpTo w body s))) rfl
      fun v t hv ht => (hkeep _ t (by omega) (by omega)).trans ht
  · exact forUpTo_induct (P := fun _ t => read t = read s) rfl
      fun v t hv ht => (hkeep v t (by omega) (by omega)).trans ht

end Sys2Proof.Machine
end

section
/-! SUPPORT. `RECOMBINE` (R203), bin by bin, from the samples before it. -/

-- One theorem after the other: side by side, their threads need more memory than the check allows.
set_option Elab.async false

namespace Sys2Proof.Machine

/-! ### The three parts of the pass -/

theorem sampleRead_recombineBin0 (s : State) :
    sampleRead (recombineBin0 s) 0 = (fadd (nanAt s.draws) (sampleRead s 0).1 (sampleRead s 0).2,
      fsub (nanAt (s.draws + 1)) (sampleRead s 0).1 (sampleRead s 0).2) := by
  rw [recombineBin0, sampleRead_draw, sampleRead_sampleWrite_same]

theorem sampleRead_recombineBin0_of_ne {j : Nat} (s : State) (hj : j ≠ 0) :
    sampleRead (recombineBin0 s) j = sampleRead s j := by
  rw [recombineBin0, sampleRead_draw, sampleRead_sampleWrite_of_ne _ _ hj]

/-- The two samples of the loop step of `RECOMBINE(n)` at `k` (R203). -/
def mirrorPair (n k : Nat) (s : State) : Sample × Sample := (sampleRead s k, sampleRead s (n / 2 - k))

/-- The special bins are in no pair (R203). -/
theorem special_ne_mirror {n k j : Nat} (hj : j = 0 ∨ j = n / 4) (h1 : 1 ≤ k) (hk : k < n / 4) :
    j ≠ k ∧ j ≠ n / 2 - k := by omega

/-- Below the quarter no bin is its own mirror (R205 (d)). -/
theorem ne_mirror {n k : Nat} (hk : k < n / 4) : k ≠ n / 2 - k := by omega

/-- Two pairs have no bin in common (R73, R203). -/
theorem mirror_ne_of_ne {n k v : Nat} (hk : k < n / 4) (hv : v < n / 4) (hne : v ≠ k) :
    (k ≠ v ∧ k ≠ n / 2 - v) ∧ n / 2 - k ≠ v ∧ n / 2 - k ≠ n / 2 - v := by omega

theorem mirrorPair_recombinePair {n k : Nat} (s : State) (hk : k < n / 4) :
    mirrorPair n k (recombinePair n k s) = recombinePairOf s.draws (mirrorPair n k s).1
      (mirrorPair n k s).2 (twiddle s.build k n) := by
  have hne := ne_mirror hk
  simp only [mirrorPair, recombinePair, sampleRead_draw, sampleRead_sampleWrite_same,
    sampleRead_sampleWrite_of_ne _ _ hne]

theorem sampleRead_recombinePair_of_ne {n k j : Nat} (s : State) (hj : j ≠ k) (hmirror : j ≠ n / 2 - k) :
    sampleRead (recombinePair n k s) j = sampleRead s j := by
  rw [recombinePair, sampleRead_draw, sampleRead_sampleWrite_of_ne _ _ hmirror,
    sampleRead_sampleWrite_of_ne _ _ hj]

theorem sampleRead_recombineMid (n : Nat) (s : State) :
    sampleRead (recombineMid n s) (n / 4) =
      ((sampleRead s (n / 4)).1, fneg (sampleRead s (n / 4)).2) := by
  rw [recombineMid, sampleRead_sampleWrite_same]

theorem sampleRead_recombineMid_of_ne {n j : Nat} (s : State) (hj : j ≠ n / 4) :
    sampleRead (recombineMid n s) j = sampleRead s j := by
  rw [recombineMid, sampleRead_sampleWrite_of_ne _ _ hj]

/-! ### The pass -/

/-- The store after bin 0 and the first `v` pairs of `RECOMBINE(n)` (R203). -/
def recombinedPairs (n v : Nat) (s : State) : State :=
  forUpTo v (fun j => recombinePair n (j + 1)) (recombineBin0 s)

theorem recombine_eq (n : Nat) (s : State) :
    recombine n s = recombineMid n (recombinedPairs n (n / 4 - 1) s) := rfl

/-- Bin 0 draws two free words and each pair eighteen, and the build stays (R203; log 3). -/
theorem recombinedPairs_counters (n v : Nat) (s : State) :
    (recombinedPairs n v s).draws = s.draws + 2 + 18 * v ∧
      (recombinedPairs n v s).build = s.build := by
  induction v with
  | zero => exact ⟨rfl, rfl⟩
  | succ v ih => exact ⟨by rw [recombinedPairs, forUpTo_succ]; exact congrArg (· + 18) ih.1, ih.2⟩

/-- The pairs leave the samples 0 and `n / 4` as they were: neither belongs to a pair (R203). -/
theorem sampleRead_recombinedPairs_of_special {n j : Nat} (s : State) (hj : j = 0 ∨ j = n / 4) :
    sampleRead (recombinedPairs n (n / 4 - 1) s) j = sampleRead (recombineBin0 s) j :=
  forUpTo_induct (P := fun _ t => sampleRead t j = sampleRead (recombineBin0 s) j) rfl
    fun v t hv ht => by
      obtain ⟨hleft, hright⟩ := special_ne_mirror hj (Nat.le_add_left 1 v) (Nat.add_lt_of_lt_sub hv)
      rw [sampleRead_recombinePair_of_ne t hleft hright, ht]

/-- Bin 0 becomes the sum and the difference of its parts (R203). -/
theorem sampleRead_recombine_zero {n : Nat} (s : State) (h4 : 4 ≤ n) :
    sampleRead (recombine n s) 0 = (fadd (nanAt s.draws) (sampleRead s 0).1 (sampleRead s 0).2,
      fsub (nanAt (s.draws + 1)) (sampleRead s 0).1 (sampleRead s 0).2) := by
  rw [recombine_eq, sampleRead_recombineMid_of_ne _ (Nat.div_pos h4 four_pos).ne,
    sampleRead_recombinedPairs_of_special s (.inl rfl), sampleRead_recombineBin0]

/-- The self-mirrored bin is conjugated (R203). -/
theorem sampleRead_recombine_quarter {n : Nat} (s : State) (h4 : 4 ≤ n) :
    sampleRead (recombine n s) (n / 4) =
      ((sampleRead s (n / 4)).1, fneg (sampleRead s (n / 4)).2) := by
  rw [recombine_eq, sampleRead_recombineMid, sampleRead_recombinedPairs_of_special s (.inr rfl),
    sampleRead_recombineBin0_of_ne s (Nat.div_pos h4 four_pos).ne']

/-- The bins of a pair come from the pair of samples before the pass (R203). -/
theorem mirrorPair_recombine {n k : Nat} (s : State) (h1 : 1 ≤ k) (hk : k < n / 4) :
    mirrorPair n k (recombine n s) = recombinePairOf (s.draws + 2 + 18 * (k - 1))
      (mirrorPair n k s).1 (mirrorPair n k s).2 (twiddle s.build k n) := by
  obtain ⟨hzero, hzero'⟩ := special_ne_mirror (.inl rfl) h1 hk
  obtain ⟨hquarter, hquarter'⟩ := special_ne_mirror (.inr rfl) h1 hk
  have hmid : ∀ t, mirrorPair n k (recombineMid n t) = mirrorPair n k t := fun t =>
    Prod.ext (sampleRead_recombineMid_of_ne t hquarter.symm)
      (sampleRead_recombineMid_of_ne t hquarter'.symm)
  have hbin0 : mirrorPair n k (recombineBin0 s) = mirrorPair n k s :=
    Prod.ext (sampleRead_recombineBin0_of_ne s hzero.symm)
      (sampleRead_recombineBin0_of_ne s hzero'.symm)
  have hother : ∀ v t, v < n / 4 - 1 → v ≠ k - 1 →
      mirrorPair n k (recombinePair n (v + 1) t) = mirrorPair n k t := fun v t hv hne => by
    obtain ⟨⟨hkv, hkv'⟩, hmv, hmv'⟩ := mirror_ne_of_ne hk (Nat.add_lt_of_lt_sub hv)
      (fun h => hne (Nat.eq_sub_of_add_eq h))
    exact Prod.ext (sampleRead_recombinePair_of_ne t hkv hkv')
      (sampleRead_recombinePair_of_ne t hmv hmv')
  obtain ⟨hafter, hbefore⟩ := read_forUpTo_of_round (Nat.sub_lt_sub_right h1 hk) hother (recombineBin0 s)
  obtain ⟨hdraws, hbuild⟩ := recombinedPairs_counters n (k - 1) s
  rw [← hbin0, ← hbefore, ← hdraws, ← hbuild, recombine_eq, hmid]
  rw [Nat.sub_add_cancel h1] at hafter
  exact hafter.trans (mirrorPair_recombinePair _ hk)

end Sys2Proof.Machine

namespace Sys2Proof.Proofs

open Sys2Proof.Machine

/-- Settles O38: bin 0, each pair and the self-mirrored bin are disjoint, so each is as before the pass until
its turn. -/
theorem recombineActsPairwise : Obligations.RecombineActsPairwise := by
  intro s lg h2
  have h4 : 4 ≤ 2 ^ lg := Nat.pow_le_pow_right (n := 2) two_pos h2
  refine ⟨sampleRead_recombine_zero s h4, fun k => mirrorPair_recombine s, fun k h1 hk => ?_,
    sampleRead_recombine_quarter s h4, (recombine_touches s h4 le_rfl).outside⟩
  have hpair := mirrorPair_recombine s h1 hk
  exact ⟨fun j => nanAt (s.draws + 2 + 18 * (k - 1) + j), fun _ => isNaN_nanOf _,
    congrArg Prod.fst hpair, congrArg Prod.snd hpair⟩

end Sys2Proof.Proofs
end

section
/-! SUPPORT. Sums and products that need no rounding: zeros, units and values that a word has (R16). -/

-- One theorem after the other: side by side, their threads need more memory than the check allows.
set_option Elab.async false

namespace Sys2Proof.Machine

open Sys2Proof.Slice0 (finite powerWord)

/-! ### Zeros -/

@[simp] theorem isZero_pack_zero (sign : Bool) : isZero (pack sign 0) = true := by cases sign <;> rfl

theorem valueOf_of_isZero {w : Word} (h : isZero w = true) : valueOf w = 0 := by
  rw [← Int.natAbs_eq_zero, natAbs_valueOf, magOf_eq_gridMag, (isZero_iff w).1 h, gridMag_zero]

theorem isZero_fneg (w : Word) : isZero (fneg w) = isZero w := by
  rw [Bool.eq_iff_iff, isZero_iff, isZero_iff, bitsOf_fneg]

theorem fadd_of_isZero (nan : Word) {a b : Word} (ha : isZero a = true) (hb : isZero b = true) :
    fadd nan a b = pack (signOf a && signOf b) 0 := by
  rw [fadd_of_finite nan (finite_of_isZero ha) (finite_of_isZero hb), valueOf_of_isZero ha,
    valueOf_of_isZero hb]
  rfl

theorem fsub_of_isZero (nan : Word) {a b : Word} (ha : isZero a = true) (hb : isZero b = true) :
    fsub nan a b = pack (signOf a && !signOf b) 0 := by
  rw [fsub, fadd_of_isZero nan ha ((isZero_fneg b).trans hb), signOf_fneg]

theorem fmul_of_isZero (nan : Word) {a b : Word} (ha : isZero a = true) (hb : finite b) :
    fmul nan a b = pack (signOf a != signOf b) 0 :=
  fmul_of_zero nan (finite_of_isZero ha) hb (by rw [valueOf_of_isZero ha, zero_mul])

/-- A difference of equal finite words is `+0` (R16). -/
theorem fsub_self (nan : Word) {a : Word} (ha : finite a) : fsub nan a a = 0#32 := by
  have hneg : finite (fneg a) := by rw [finite_iff, bitsOf_fneg]; exact (finite_iff a).1 ha
  have hvalue : valueOf a + valueOf (fneg a) = 0 := by
    rw [valueOf, valueOf, magOf_eq_gridMag, magOf_eq_gridMag, bitsOf_fneg, signOf_fneg]
    cases signOf a <;> simp
  rw [fsub, fadd_of_finite nan ha hneg, if_pos hvalue, signOf_fneg, Bool.and_not_self]
  rfl

/-! ### Values that a word has -/

/-- Two words of one non-zero value are one word (R15). -/
theorem eq_of_valueOf_eq {a b : Word} (h : valueOf a = valueOf b) (h0 : valueOf a ≠ 0) : a = b := by
  have hsign : signOf a = signOf b := by
    rw [Bool.eq_iff_iff, ← valueOf_neg_iff h0, ← valueOf_neg_iff (h ▸ h0), h]
  have hmag : gridMag (bitsOf a) = gridMag (bitsOf b) := by
    rw [← magOf_eq_gridMag, ← magOf_eq_gridMag, ← natAbs_valueOf, ← natAbs_valueOf, h]
  rw [← pack_signOf_bitsOf a, ← pack_signOf_bitsOf b, hsign, gridMag_strictMono.injective hmag]

/-- A non-zero sum that a finite word has is that word (R16). -/
theorem fadd_eq_of_valueOf (nan : Word) {a b w : Word} (ha : finite a) (hb : finite b) (hw : finite w)
    (h : valueOf w = valueOf a + valueOf b) (h0 : valueOf w ≠ 0) : fadd nan a b = w := by
  have hround := Proofs.sumRoundsToNearestEven nan a b ha hb (h ▸ h0)
  have hexact := roundsTo_exact hround hw (by rw [pow_zero, mul_one, h])
  rw [pow_zero, mul_one, ← h] at hexact
  exact eq_of_valueOf_eq hexact (hexact ▸ h0)

/-- Adding a zero of either sign changes no finite word without a sign (R16). -/
theorem fadd_isZero_right (nan : Word) {a z : Word} (ha : finite a) (hsign : signOf a = false)
    (hz : isZero z = true) : fadd nan a z = a := by
  by_cases h0 : isZero a = true
  · rw [fadd_of_isZero nan h0 hz, hsign, ← (isZero_iff a).1 h0, Bool.false_and, ← hsign,
      pack_signOf_bitsOf]
  · have hvalue : valueOf a ≠ 0 := by
      rw [← Int.natAbs_ne_zero, natAbs_valueOf, magOf_eq_gridMag]
      rw [isZero_iff] at h0
      exact fun h => h0 (gridMag_strictMono.injective h)
    exact fadd_eq_of_valueOf nan ha (finite_of_isZero hz) ha
      (by rw [valueOf_of_isZero hz, add_zero]) hvalue

theorem fsub_isZero_right (nan : Word) {a z : Word} (ha : finite a) (hsign : signOf a = false)
    (hz : isZero z = true) : fsub nan a z = a :=
  fadd_isZero_right nan ha hsign ((isZero_fneg z).trans hz)

/-- One is the unit of the product (R16). -/
theorem fmul_one (nan : Word) {a : Word} (ha : finite a) : fmul nan a 0x3F800000#32 = a := by
  have hone : finite 0x3F800000#32 := by unfold finite; decide
  have hvalue : valueOf 0x3F800000#32 = 2 ^ 149 := by decide
  by_cases h0 : valueOf a = 0
  · have hbits : bitsOf a = 0 := by
      rw [← Int.natAbs_eq_zero, natAbs_valueOf, magOf_eq_gridMag] at h0
      exact gridMag_strictMono.injective h0
    rw [fmul_of_isZero nan ((isZero_iff a).2 hbits) hone, ← hbits]
    exact (congrArg (pack · _) (Bool.bne_false _)).trans (pack_signOf_bitsOf a)
  · have hprod : valueOf a * valueOf 0x3F800000#32 ≠ 0 := by rw [hvalue]; positivity
    have hround := Proofs.productRoundsToNearestEven nan a _ ha hone hprod
    rw [hvalue] at hround
    have hexact := mul_right_cancel₀ (by positivity) (roundsTo_exact hround ha rfl)
    exact eq_of_valueOf_eq hexact (hexact ▸ h0)

/-! ### The words of the powers of two -/

theorem powerWord_eq_pack (l : Nat) : powerWord l = pack false ((127 + l) * 2 ^ 23) := by
  rw [powerWord, pack, if_neg Bool.false_ne_true, Nat.zero_add]

section
variable {l : Nat} (hl : l ≤ 127)
include hl

theorem signOf_powerWord : signOf (powerWord l) = false := by
  rw [powerWord_eq_pack, signOf_pack _ (by omega)]

theorem finite_powerWord : finite (powerWord l) := by
  rw [finite_iff, powerWord_eq_pack, bitsOf_pack _ (by omega), infBits]
  omega

theorem valueOf_powerWord : valueOf (powerWord l) = 2 ^ (149 + l) := by
  have hbits : (127 + l) * 2 ^ 23 = (126 + l) * 2 ^ 23 + 2 ^ 23 := by ring
  rw [valueOf, signOf_powerWord hl, powerWord_eq_pack, magOf_eq_gridMag,
    bitsOf_pack _ (by omega), hbits, gridMag_scaled (.inr le_rfl) (by omega)]
  push_cast
  ring

end

/-- A power of two doubles to the next one (R16). -/
theorem fadd_powerWord (nan : Word) {l : Nat} (hl : l + 1 ≤ 127) :
    fadd nan (powerWord l) (powerWord l) = powerWord (l + 1) := by
  have hl' : l ≤ 127 := by omega
  refine fadd_eq_of_valueOf nan (finite_powerWord hl') (finite_powerWord hl') (finite_powerWord hl) ?_ ?_
  · rw [valueOf_powerWord hl, valueOf_powerWord hl']; ring
  · rw [valueOf_powerWord hl]; positivity

end Sys2Proof.Machine
end

section
/-! SUPPORT. Every twiddle is finite, and in the first quadrant it has no signs (R111, R115). -/

-- One theorem after the other: side by side, their threads need more memory than the check allows.
set_option Elab.async false

namespace Sys2Proof.Machine

open Sys2Proof.Slice0 (finite)

/-- No entry of the table reaches 1.0 (R111); an index past the table reads 0. -/
theorem sineTable_lt_one (i : Nat) : (sineTable i).toNat < 0x3F800000 := by
  rcases Nat.lt_or_ge i 4096 with hi | hi
  · calc (sineTable i).toNat
        ≤ (sineTable 4095).toNat :=
        sineTable_strictMonoOn.monotoneOn (Set.mem_Iic.2 (by omega)) (Set.mem_Iic.2 le_rfl) (by omega)
      _ < 0x3F800000 := sineTable_last_lt_one
  · have hpast : sineChunks[i / 256]? = none :=
      List.getElem?_eq_none (show 16 ≤ i / 256 by omega)
    simp [sineTable, hpast]

/-- A sine is at most 1.0 and has no sign, on every build (R111, R113). -/
theorem toNat_sin_le_one (b : Build) (j n : Nat) : (sin b j n).toNat ≤ 0x3F800000 := by
  unfold sin
  split
  · exact le_rfl
  · exact (sineTable_lt_one _).le

theorem bitsOf_sin_le_one (b : Build) (j n : Nat) : bitsOf (sin b j n) ≤ 0x3F800000 :=
  (Nat.mod_le _ _).trans (toNat_sin_le_one b j n)

theorem signOf_sin (b : Build) (j n : Nat) : signOf (sin b j n) = false :=
  decide_eq_false (by have := toNat_sin_le_one b j n; omega)

theorem finite_of_bitsOf_le_one {w : Word} (h : bitsOf w ≤ 0x3F800000) : finite w :=
  (finite_iff w).2 (h.trans_lt (by decide))

/-- Both components of a twiddle are sines up to their sign (R115). -/
theorem finite_twiddle (b : Build) (k n : Nat) :
    finite (twiddle b k n).1 ∧ finite (twiddle b k n).2 := by
  have hsin : ∀ j, finite (sin b j n) := fun j => finite_of_bitsOf_le_one (bitsOf_sin_le_one b j n)
  have hneg : ∀ j, finite (fneg (sin b j n)) := fun j =>
    finite_of_bitsOf_le_one ((bitsOf_fneg _).trans_le (bitsOf_sin_le_one b j n))
  unfold twiddle
  split
  · unfold finite; decide
  · dsimp only
    split
    exacts [⟨hsin _, hsin _⟩, ⟨hneg _, hsin _⟩, ⟨hneg _, hneg _⟩, ⟨hsin _, hneg _⟩]

theorem signOf_twiddle_of_lt_quarter (b : Build) {m k : Nat} (hk : k < m) :
    signOf (twiddle b k (4 * m)).1 = false ∧ signOf (twiddle b k (4 * m)).2 = false := by
  rw [twiddle_of_lt_quarter b hk]
  exact ⟨signOf_sin b _ _, signOf_sin b _ _⟩

/-- The twiddle of angle 0 is `(1.0, +0.0)` at every span (R117, R119). -/
theorem twiddle_zero (b : Build) {stage : Nat} (h1 : 1 ≤ stage) :
    twiddle b 0 (2 ^ stage) = (0x3F800000#32, 0#32) := by
  rcases Nat.eq_or_lt_of_le h1 with rfl | h2
  · exact twiddle_two b 0
  · obtain ⟨m, hm, hsize⟩ := exists_four_mul_eq_two_pow h2
    rw [hsize]
    exact (twiddle_axes b hm).1

end Sys2Proof.Machine
end

section
/-! SUPPORT. The kernel by its passes (R166), and what a completed command leaves in `BUF` (R168, R206). -/

-- One theorem after the other: side by side, their threads need more memory than the check allows.
set_option Elab.async false

namespace Sys2Proof.Machine

/-- The kernel permutes and takes its stages in order (R166). -/
theorem cfftCore_eq (lg : Nat) (s : State) :
    cfftCore lg s = forUpTo lg (fun j => stagePass lg (j + 1)) (permute lg s) := rfl

theorem permute_draws (lg : Nat) (s : State) : (permute lg s).draws = s.draws := by rw [permute_rest]

/-- A stage leaves each of its pairs as its butterfly does (R165). -/
theorem stagePair_stagePass (s : State) {lg stage g k : Nat} (h1 : 1 ≤ stage) (hlg : stage ≤ lg)
    (hg : g < 2 ^ lg / 2 ^ stage) (hk : k < 2 ^ stage / 2) :
    stagePair (stagePass lg stage s) (2 ^ stage / 2) g k =
      butterflyPair (s.draws + 10 * (g * (2 ^ stage / 2) + k)) (stagePair s (2 ^ stage / 2) g k).1
        (stagePair s (2 ^ stage / 2) g k).2 (twiddle s.build k (2 ^ stage)) := by
  simpa only [stagePair, two_mul_half h1] using
    (Proofs.stageActsPairwise s lg stage h1 hlg).1 g k hg hk

/-- A command that can run leaves in `BUF` what its passes make of it (R168, R206). -/
theorem exec_leaves_core {i : Instr} {s : State} (h : CanRun i s) :
    ∃ t, exec i s = .next t ∧ ∀ a, bufRead t a = bufRead (commandCore i s) a := by
  refine ⟨_, exec_completes h, fun a => bufRead_congr ?_ ?_ a⟩
  · rfl
  · exact (commandCore_touches i s).era.symm

/-- The same, sample by sample. -/
theorem exec_leaves_core_samples {i : Instr} {s : State} (h : CanRun i s) :
    ∃ t, exec i s = .next t ∧ ∀ j, sampleRead t j = sampleRead (commandCore i s) j := by
  obtain ⟨t, hexec, hbuf⟩ := exec_leaves_core h
  exact ⟨t, hexec, fun j => by simp only [sampleRead, hbuf]⟩

/-- The kernel of size 2 is one butterfly (R166, R204). -/
theorem cfftCore_one (s : State) :
    (sampleRead (cfftCore 1 s) 0, sampleRead (cfftCore 1 s) 1) =
        butterflyPair s.draws (sampleRead s 0) (sampleRead s 1) (0x3F800000#32, 0#32) ∧
      (cfftCore 1 s).draws = s.draws + 10 := by
  have hzero : sampleRead (permute 1 s) 0 = sampleRead s 0 := by
    rw [sampleRead_permute s (by decide) (by decide), bitrev_eq_sum _ (by decide) (by decide),
      bitrevSum_zero]
  have hone : sampleRead (permute 1 s) 1 = sampleRead s 1 := by
    rw [sampleRead_permute s (by decide) (by decide), bitrev_eq_sum _ (by decide) (by decide)]
    rfl
  have hcore : cfftCore 1 s = butterfly 0 1 (0x3F800000#32, 0#32) (permute 1 s) := rfl
  rw [hcore, sampleRead_butterfly_left _ _ zero_ne_one, sampleRead_butterfly_right, hzero, hone,
    permute_draws]
  exact ⟨rfl, congrArg (· + 10) (permute_draws 1 s)⟩

end Sys2Proof.Machine

namespace Sys2Proof.Proofs

open Sys2Proof.Machine

/-- Settles O44: the kernel of size 2, then bin 0 and the self-mirrored bin of a recombination without
pairs. -/
theorem rfft4IsOneButterfly : Obligations.Rfft4IsOneButterfly := by
  intro s hready
  obtain ⟨t, hexec, ht⟩ := exec_leaves_core_samples (i := .rfft4) ⟨hready, s.build.lgmax_ge⟩
  have hcore : commandCore .rfft4 s = recombine 4 (cfftCore 1 s) := rfl
  obtain ⟨hpair, hdraws⟩ := cfftCore_one s
  obtain ⟨hzero, hone⟩ := Prod.ext_iff.1 hpair
  refine ⟨t, hexec, ?_, ?_⟩
  · rw [ht, hcore, sampleRead_recombine_zero _ le_rfl, hdraws, ← hzero]
  · rw [ht, hcore, sampleRead_recombine_quarter _ le_rfl, ← hone]

end Sys2Proof.Proofs
end

section
/-! SUPPORT. The transforms of a constant input: what the kernel leaves of it (R184), and what the
recombination leaves of that (R205). -/

-- One theorem after the other: side by side, their threads need more memory than the check allows.
set_option Elab.async false

namespace Sys2Proof.Machine

open Sys2Proof.Slice0 (finite powerWord)

/-- A sample of two positive zeros. -/
def zeroSample : Sample := (0#32, 0#32)

theorem powerWord_zero : powerWord 0 = 0x3F800000#32 := by decide

/-- A sample of two equal powers of two. -/
def powerSample (l : Nat) : Sample := (powerWord l, powerWord l)

/-! ### The operations on zeros and on powers of two -/

theorem isZero_zero : isZero 0#32 = true := by decide

theorem finite_zero : finite 0#32 := finite_of_isZero isZero_zero

theorem fadd_zero_isZero (nan : Word) {z : Word} (hz : isZero z = true) : fadd nan 0#32 z = 0#32 :=
  fadd_isZero_right nan finite_zero (by decide) hz

theorem fsub_zero_isZero (nan : Word) {z : Word} (hz : isZero z = true) : fsub nan 0#32 z = 0#32 :=
  fsub_isZero_right nan finite_zero (by decide) hz

/-- A rotated zero is zero, of either sign (R161). -/
theorem isZero_rotate_zero (d : Nat) {cs : Word × Word} (h : finite cs.1 ∧ finite cs.2) :
    isZero (rotate d zeroSample cs).1 = true ∧ isZero (rotate d zeroSample cs).2 = true := by
  simp only [rotate, zeroSample, fmul_of_isZero _ isZero_zero h.1, fmul_of_isZero _ isZero_zero h.2,
    fadd_of_isZero _ (isZero_pack_zero _) (isZero_pack_zero _),
    fsub_of_isZero _ (isZero_pack_zero _) (isZero_pack_zero _), isZero_pack_zero, and_self]

/-- A butterfly of positive zeros gives positive zeros, whatever the signs of its twiddle (R168). -/
theorem butterflyPair_zero (d : Nat) {cs : Word × Word} (h : finite cs.1 ∧ finite cs.2) :
    butterflyPair d zeroSample zeroSample cs = (zeroSample, zeroSample) := by
  obtain ⟨hre, him⟩ := isZero_rotate_zero d h
  unfold butterflyPair
  simp only [zeroSample] at hre him ⊢
  simp only [fadd_zero_isZero _ hre, fadd_zero_isZero _ him, fsub_zero_isZero _ hre,
    fsub_zero_isZero _ him]

/-- Angle 0 rotates nothing (R161). -/
theorem rotate_one (d : Nat) {b : Sample} (hre : finite b.1 ∧ signOf b.1 = false)
    (him : finite b.2 ∧ signOf b.2 = false) : rotate d b (0x3F800000#32, 0#32) = b := by
  have hzero : ∀ nan {w : Word}, finite w → isZero (fmul nan w 0#32) = true := fun nan w hw => by
    rw [fmul_of_zero nan hw finite_zero (by rw [valueOf_of_isZero isZero_zero, mul_zero])]
    exact isZero_pack_zero _
  simp only [rotate, fmul_one _ hre.1, fmul_one _ him.1,
    fadd_isZero_right _ hre.1 hre.2 (hzero _ him.1), fsub_isZero_right _ him.1 him.2 (hzero _ hre.1)]

/-- The butterfly of angle 0 on equal powers of two gives the next power and zero (R184). -/
theorem butterflyPair_powerSample (d : Nat) {l : Nat} (hl : l + 1 ≤ 127) :
    butterflyPair d (powerSample l) (powerSample l) (0x3F800000#32, 0#32) =
      (powerSample (l + 1), zeroSample) := by
  have hfinite : finite (powerWord l) := finite_powerWord (Nat.le_of_succ_le hl)
  have hsign : signOf (powerWord l) = false := signOf_powerWord (Nat.le_of_succ_le hl)
  have hrotate : rotate d (powerSample l) (0x3F800000#32, 0#32) = powerSample l :=
    rotate_one d ⟨hfinite, hsign⟩ ⟨hfinite, hsign⟩
  unfold butterflyPair
  rw [hrotate]
  simp only [powerSample, zeroSample, fadd_powerWord _ hl, fsub_self _ hfinite]

/-- The recombination of two zero bins in the first quadrant gives positive zeros (R205). -/
theorem recombinePairOf_zero (d : Nat) {cs : Word × Word} (h : finite cs.1 ∧ finite cs.2)
    (hsign : signOf cs.1 = false ∧ signOf cs.2 = false) :
    recombinePairOf d zeroSample zeroSample cs = (zeroSample, zeroSample) := by
  have hadd : ∀ nan, fadd nan 0#32 0#32 = 0#32 := fun nan => fadd_zero_isZero nan isZero_zero
  have hsub : ∀ nan, fsub nan 0#32 0#32 = 0#32 := fun nan => fsub_zero_isZero nan isZero_zero
  have hhalf : ∀ nan, fhalf nan 0#32 = 0#32 := fun _ => rfl
  have hmul : ∀ nan {c : Word}, finite c → signOf c = false → fmul nan 0#32 c = 0#32 :=
    fun nan c hc hs => by rw [fmul_of_isZero nan isZero_zero hc, hs]; rfl
  simp only [recombinePairOf, rotate, zeroSample, hadd, hsub, hhalf, hmul _ h.1 hsign.1,
    hmul _ h.2 hsign.2]

/-! ### The kernel -/

/-- After `j` stages on the constant input, each group of `2^j` samples holds `p` in its first sample and
zeros in the others. -/
def Peaks (lg j : Nat) (p : Sample) (t : State) : Prop :=
  ∀ i, i < 2 ^ lg → sampleRead t i = if i % 2 ^ j = 0 then p else zeroSample

/-- Every index is a member of a pair of a stage (R164). -/
theorem exists_pair_of_index {half : Nat} (h : 0 < half) (i : Nat) :
    ∃ g k, k < half ∧ (i = g * (2 * half) + k ∨ i = g * (2 * half) + k + half) := by
  have hsplit : i = i / (2 * half) * (2 * half) + i % (2 * half) := (Nat.div_add_mod' i _).symm
  have hrest : i % (2 * half) < 2 * half := Nat.mod_lt _ (Nat.mul_pos two_pos h)
  rcases Nat.lt_or_ge (i % (2 * half)) half with hk | hk
  · exact ⟨i / (2 * half), i % (2 * half), hk, .inl hsplit⟩
  · exact ⟨i / (2 * half), i % (2 * half) - half, by omega, .inr (by omega)⟩

/-- The groups of a stage are those with indices below the size (R164). -/
theorem lt_groups_iff {lg j g : Nat} :
    g < 2 ^ lg / 2 ^ (j + 1) ↔ g * (2 * 2 ^ j) + 2 * 2 ^ j ≤ 2 ^ lg := by
  rw [← pow_succ', ← Nat.succ_mul, ← Nat.le_div_iff_mul_le (by positivity)]
  exact Iff.rfl

/-- The two halves of a group have their peaks at the same place. -/
theorem Peaks.stagePair_eq {lg j g k : Nat} {p : Sample} {t : State} (h : Peaks lg j p t)
    (hg : g < 2 ^ lg / 2 ^ (j + 1)) (hk : k < 2 ^ j) :
    stagePair t (2 ^ j) g k = (if k = 0 then p else zeroSample, if k = 0 then p else zeroSample) := by
  have hleft : (g * (2 * 2 ^ j) + k) % 2 ^ j = k := (pair_of_index hk (.inl rfl)).2
  have hright : (g * (2 * 2 ^ j) + k + 2 ^ j) % 2 ^ j = k := (pair_of_index hk (.inr rfl)).2
  rw [lt_groups_iff] at hg
  rw [stagePair, h _ (by omega), h _ (by omega), hleft, hright]

/-- Peaks at the first samples of the groups, pair by pair. -/
theorem Peaks.of_pairs {lg j : Nat} {q : Sample} {t : State} (hj : j < lg)
    (h : ∀ g k, g < 2 ^ lg / 2 ^ (j + 1) → k < 2 ^ j →
      stagePair t (2 ^ j) g k = (if k = 0 then q else zeroSample, zeroSample)) :
    Peaks lg (j + 1) q t := by
  intro i hi
  have hpos : 0 < 2 ^ j := by positivity
  obtain ⟨g, k, hk, hik⟩ := exists_pair_of_index hpos i
  have hg : g < 2 ^ lg / 2 ^ (j + 1) := by
    rw [Nat.lt_div_iff_mul_lt_of_dvd (by positivity) (pow_dvd_pow 2 hj), pow_succ']
    omega
  obtain ⟨hleft, hright⟩ := Prod.ext_iff.1 (h g k hg hk)
  rw [pow_succ']
  rcases hik with rfl | rfl
  · rw [Nat.mul_add_mod_self_right, Nat.mod_eq_of_lt (by omega)]
    exact hleft
  · rw [Nat.add_assoc, Nat.mul_add_mod_self_right, Nat.mod_eq_of_lt (by omega), if_neg (by omega),
      ← Nat.add_assoc]
    exact hright

/-- A stage takes two groups to one of twice the size (R165, R184). -/
theorem Peaks.stagePass {lg j : Nat} {p q : Sample} {t : State} (hj : j < lg)
    (hp : ∀ d, butterflyPair d p p (0x3F800000#32, 0#32) = (q, zeroSample)) (h : Peaks lg j p t) :
    Peaks lg (j + 1) q (stagePass lg (j + 1) t) := by
  have h1 : 1 ≤ j + 1 := Nat.le_add_left 1 j
  have hhalf : 2 ^ (j + 1) / 2 = 2 ^ j := Nat.mul_div_cancel _ two_pos
  refine Peaks.of_pairs hj fun g k hg hk => ?_
  have hafter := stagePair_stagePass t h1 hj hg (hhalf.symm ▸ hk)
  rw [hhalf, h.stagePair_eq hg hk] at hafter
  rcases Nat.eq_zero_or_pos k with rfl | hpos
  · simpa only [if_pos, twiddle_zero _ h1, hp] using hafter
  · simpa only [hpos.ne', if_false, butterflyPair_zero _ (finite_twiddle _ _ _)] using hafter

/-- The kernel gathers a constant input in sample 0 (R184). `p j` is what `j` stages make of the constant. -/
theorem sampleRead_cfftCore_of_constant {lg : Nat} {p : Nat → Sample} {s : State} (hlg : lg ≤ 14)
    (hp : ∀ d j, j < lg → butterflyPair d (p j) (p j) (0x3F800000#32, 0#32) = (p (j + 1), zeroSample))
    (h : ∀ i, i < 2 ^ lg → sampleRead s i = p 0) {i : Nat} (hi : i < 2 ^ lg) :
    sampleRead (cfftCore lg s) i = if i = 0 then p lg else zeroSample := by
  have hpermute : Peaks lg 0 (p 0) (permute lg s) := fun i hi => by
    rw [sampleRead_permute s hlg hi, h _ (bitrev_lt _ hi), pow_zero, Nat.mod_one, if_pos rfl]
  have hstages : Peaks lg lg (p lg) (cfftCore lg s) := by
    rw [cfftCore_eq]
    exact forUpTo_induct (P := fun j t => Peaks lg j (p j) t) hpermute
      fun j t hj ht => ht.stagePass hj fun d => hp d j hj
  rw [hstages i hi, Nat.mod_eq_of_lt hi]

/-! ### The recombination -/

/-- A recombination of zeros in all samples but 0 leaves zeros in all bins but 0 and the self-mirrored one
(R205). -/
theorem sampleRead_recombine_of_zero {m j : Nat} {s : State}
    (h : ∀ i, 1 ≤ i → i < 2 * m → sampleRead s i = zeroSample) (h1 : 1 ≤ j) (hj : j < 2 * m)
    (hmid : j ≠ m) : sampleRead (recombine (4 * m) s) j = zeroSample := by
  obtain ⟨hquarter, hhalf, -⟩ := four_mul_quarters m
  have hpair : ∀ k, 1 ≤ k → k < m →
      mirrorPair (4 * m) k (recombine (4 * m) s) = (zeroSample, zeroSample) := fun k h1 hk => by
    rw [mirrorPair_recombine s h1 (hquarter.symm ▸ hk), mirrorPair, hhalf, h k h1 (by omega),
      h (2 * m - k) (by omega) (by omega)]
    exact recombinePairOf_zero _ (finite_twiddle _ _ _) (signOf_twiddle_of_lt_quarter _ hk)
  rcases Nat.lt_or_ge j m with hlow | hhigh
  · exact congrArg Prod.fst (hpair j h1 hlow)
  · have hmirror := congrArg Prod.snd (hpair (2 * m - j) (by omega) (by omega))
    rwa [mirrorPair, hhalf, Nat.sub_sub_self hj.le] at hmirror

/-- The bins of `N` ones: `N` and `+0` in bin 0, and a zero with the sign flipped in the self-mirrored bin
(R205, R219). -/
theorem sampleRead_rfftCore_of_ones {l m : Nat} {s : State} (hl : l ≤ 13) (hm : 0 < m)
    (hsize : 2 ^ l = 2 * m) (h : ∀ a, a < 4 * m → bufRead s a = 0x3F800000#32) :
    sampleRead (rfftCore (l + 1) s) 0 = (powerWord (l + 1), 0#32) ∧
      sampleRead (rfftCore (l + 1) s) m = (0#32, 0x80000000#32) ∧
      ∀ j, 1 ≤ j → j < 2 * m → j ≠ m → sampleRead (rfftCore (l + 1) s) j = zeroSample := by
  have hones : ∀ i, i < 2 ^ l → sampleRead s i = powerSample 0 := fun i hi => by
    rw [sampleRead, h _ (by omega), h _ (by omega), powerSample, powerWord_zero]
  have hkernel : ∀ i, i < 2 * m →
      sampleRead (cfftCore l s) i = if i = 0 then powerSample l else zeroSample := fun i hi =>
    sampleRead_cfftCore_of_constant (p := powerSample) (hl.trans (by decide))
      (fun d j hj => butterflyPair_powerSample d (by omega)) hones (hsize ▸ hi)
  have hcore : rfftCore (l + 1) s = recombine (4 * m) (cfftCore l s) := by
    rw [rfftCore, Nat.add_sub_cancel, show 2 ^ (l + 1) = 4 * m by omega]
  have h4 : 4 ≤ 4 * m := Nat.le_mul_of_pos_right 4 hm
  obtain ⟨hdiv, -, -⟩ := four_mul_quarters m
  have hquarter := sampleRead_recombine_quarter (cfftCore l s) h4
  rw [hdiv, hkernel m (by omega), if_neg hm.ne'] at hquarter
  rw [hcore]
  refine ⟨?_, hquarter, fun j => sampleRead_recombine_of_zero fun i h1 hi => ?_⟩
  · rw [sampleRead_recombine_zero _ h4, hkernel 0 (Nat.mul_pos two_pos hm), if_pos rfl]
    exact Prod.ext (fadd_powerWord _ (by omega)) (fsub_self _ (finite_powerWord (by omega)))
  · rw [hkernel i hi, if_neg (Nat.ne_of_gt h1)]

end Sys2Proof.Machine

namespace Sys2Proof.Proofs

open Sys2Proof.Machine Sys2Proof.Slice0

/-- Settles O48: the kernel at half the size gathers the input in sample 0, and the recombination splits that
into `N` and `+0` and flips the sign of the zero in the self-mirrored bin. -/
theorem realConstantInputSpectrum : Obligations.RealConstantInputSpectrum := by
  intro i s hkind hrun hinput
  obtain ⟨t, hexec, ht⟩ := exec_leaves_core_samples hrun
  obtain ⟨l, hl⟩ : ∃ l, i.lg = l + 1 := ⟨i.lg - 1, by have := two_le_lg i; omega⟩
  obtain ⟨m, hm, hsize⟩ := exists_four_mul_eq_two_pow (two_le_lg i)
  have hlg : i.lg ≤ 14 := hrun.2.trans s.build.lgmax_le
  rw [commandCore_of_real hkind] at ht
  rw [Instr.size, hsize] at hinput ⊢
  rw [hl] at ht hsize hlg ⊢
  obtain ⟨hzero, hquarter, hother⟩ :=
    sampleRead_rfftCore_of_ones (by omega) hm (by omega : 2 ^ l = 2 * m) hinput
  rw [← ht] at hzero hquarter
  obtain ⟨hdc, hnyquist⟩ := Prod.ext_iff.1 hzero
  obtain ⟨hre, him⟩ := Prod.ext_iff.1 hquarter
  obtain ⟨-, hhalf, -⟩ := four_mul_quarters m
  refine ⟨t, hexec, hdc, ?_, fun a h1 ha hne => ?_⟩
  · rwa [hhalf]
  · have hbin : ∀ j, 1 ≤ j → j < 2 * m → j ≠ m →
        bufRead t (2 * j) = 0#32 ∧ bufRead t (2 * j + 1) = 0#32 := fun j h1 hj hmid =>
      Prod.ext_iff.1 ((ht j).trans (hother j h1 hj hmid))
    rcases Nat.even_or_odd' a with ⟨j, rfl | rfl⟩
    · rcases eq_or_ne j m with rfl | hmid
      · exact hre
      · exact (hbin j (by omega) (by omega) hmid).1
    · rcases Nat.eq_zero_or_pos j with rfl | hpos
      · exact hnyquist
      · exact (hbin j hpos (by omega) (by omega)).2

end Sys2Proof.Proofs
end

section
/-! SUPPORT. Rotations and the DFT in exact arithmetic (R19, R160). -/

-- One theorem after the other: side by side, their threads need more memory than the check allows.
set_option Elab.async false

namespace Sys2Proof.Exact

open Complex (I)
open scoped ComplexConjugate

/-! ### Rotations -/

theorem rot_zero (n : Nat) : rot 0 n = 1 := by simp [rot]

/-- Angles add. -/
theorem rot_add (a b n : Nat) : rot (a + b) n = rot a n * rot b n := by
  rw [rot, rot, rot, ← Complex.exp_add]
  push_cast
  ring_nf

/-- The angle is the quotient of the two indices. -/
theorem rot_mul_mul {c : Nat} (hc : c ≠ 0) (k n : Nat) : rot (c * k) (c * n) = rot k n := by
  have hc' : (c : ℂ) ≠ 0 := Nat.cast_ne_zero.2 hc
  have hquot : (2 * Real.pi * (c * k) / (c * n) : ℂ) = 2 * Real.pi * k / n := by
    rw [mul_left_comm, mul_div_mul_left _ _ hc']
  rw [rot, rot, Nat.cast_mul, Nat.cast_mul, hquot]

/-- A half turn. -/
theorem rot_half {h : Nat} (hh : h ≠ 0) : rot h (2 * h) = -1 := by
  have hangle : (-(2 * Real.pi * (1 : Nat) / (2 : Nat)) * I : ℂ) = -(Real.pi * I) := by
    push_cast; ring
  have hturn : rot 1 2 = -1 := by rw [rot, hangle, Complex.exp_neg, Complex.exp_pi_mul_I]; norm_num
  rw [← hturn, ← rot_mul_mul hh 1 2, mul_one, mul_comm]

/-- A quarter turn. -/
theorem rot_quarter {m : Nat} (hm : m ≠ 0) : rot m (4 * m) = -I := by
  have hangle : (-(2 * Real.pi * (1 : Nat) / (4 : Nat)) * I : ℂ) = -(Real.pi / 2 * I) := by
    push_cast; ring
  have hturn : rot 1 4 = -I := by
    rw [rot, hangle, Complex.exp_neg, Complex.exp_pi_div_two_mul_I, Complex.inv_I]
  rw [← hturn, ← rot_mul_mul hm 1 4, mul_one, mul_comm]

/-- Whole turns rotate nothing. -/
theorem rot_of_dvd {k n : Nat} (hn : n ≠ 0) (h : n ∣ k) : rot k n = 1 := by
  obtain ⟨c, rfl⟩ := h
  have hn' : (n : ℂ) ≠ 0 := Nat.cast_ne_zero.2 hn
  have hangle : (-(2 * Real.pi * (n * c : Nat) / n) * I : ℂ) = -(c * (2 * Real.pi * I)) := by
    push_cast
    field_simp
  rw [rot, hangle, Complex.exp_neg, Complex.exp_nat_mul_two_pi_mul_I, inv_one]

/-- Two angles that make up whole turns are conjugate. -/
theorem conj_rot {k k' n : Nat} (hn : n ≠ 0) (h : n ∣ k + k') : conj (rot k n) = rot k' n := by
  have hnorm : rot k n * conj (rot k n) = 1 := by
    rw [rot, ← Complex.exp_conj, ← Complex.exp_add]
    simp [Complex.conj_ofNat]
  have hturn : rot k n * rot k' n = 1 := by rw [← rot_add, rot_of_dvd hn h]
  exact mul_left_cancel₀ (left_ne_zero_of_mul_eq_one hnorm) (hnorm.trans hturn.symm)

/-! ### The DFT -/

theorem sum_range_two_mul (f : Nat → ℂ) (n : Nat) :
    ∑ j ∈ Finset.range (2 * n), f j = ∑ j ∈ Finset.range n, (f (2 * j) + f (2 * j + 1)) := by
  induction n with
  | zero => rfl
  | succ n ih => rw [Nat.mul_succ, Finset.sum_range_succ, Finset.sum_range_succ, ih,
      Finset.sum_range_succ, add_assoc]

/-- The even and the odd samples of twice the size (R167). -/
theorem dft_two_mul {h : Nat} (z : Nat → ℂ) (k : Nat) :
    dft (2 * h) z k =
      dft h (fun j => z (2 * j)) k + rot k (2 * h) * dft h (fun j => z (2 * j + 1)) k := by
  have heven : ∀ j, rot (k * (2 * j)) (2 * h) = rot (k * j) h := fun j => by
    rw [mul_left_comm, rot_mul_mul two_ne_zero]
  simp only [dft]
  rw [sum_range_two_mul, Finset.sum_add_distrib, Finset.mul_sum]
  simp only [mul_add, mul_one, rot_add, heven]
  congr 1
  exact Finset.sum_congr rfl fun j _ => by ring

/-- The DFT of size `n` has period `n`. -/
theorem dft_add_self {n : Nat} (hn : n ≠ 0) (z : Nat → ℂ) (k : Nat) : dft n z (k + n) = dft n z k :=
  Finset.sum_congr rfl fun j _ => by
    rw [add_mul, rot_add, rot_of_dvd hn (dvd_mul_right n j), mul_one]

/-- The same in the second half of the bins, where the rotation has the opposite sign (R160). -/
theorem dft_two_mul_add {h : Nat} (hh : h ≠ 0) (z : Nat → ℂ) (k : Nat) :
    dft (2 * h) z (k + h) =
      dft h (fun j => z (2 * j)) k - rot k (2 * h) * dft h (fun j => z (2 * j + 1)) k := by
  rw [dft_two_mul, dft_add_self hh, dft_add_self hh, rot_add, rot_half hh]
  ring

/-- Two bins of a real input whose indices make up a multiple of the size are conjugate (R201). -/
theorem conj_dft_real {n k k' : Nat} (hn : n ≠ 0) (h : n ∣ k + k') (a : Nat → ℝ) :
    conj (dft n (fun j => (a j : ℂ)) k) = dft n (fun j => (a j : ℂ)) k' := by
  rw [dft, dft, map_sum]
  refine Finset.sum_congr rfl fun j _ => ?_
  rw [map_mul, Complex.conj_ofReal, conj_rot hn (k' := k' * j) (add_mul k k' j ▸ h.mul_right j)]

/-- The DFT of two real inputs packed into one complex input (R202). -/
theorem dft_packed (n : Nat) (a b : Nat → ℝ) (k : Nat) :
    dft n (fun j => ⟨a j, b j⟩) k =
      dft n (fun j => (a j : ℂ)) k + I * dft n (fun j => (b j : ℂ)) k := by
  rw [dft, dft, dft, Finset.mul_sum, ← Finset.sum_add_distrib]
  refine Finset.sum_congr rfl fun j _ => ?_
  rw [Complex.mk_eq_add_mul_I]
  ring

end Sys2Proof.Exact
end

section
/-! SUPPORT. The kernel in exact arithmetic, stage by stage: each group of samples is the DFT of the inputs that
are gathered in it (R160, R164, R167). -/

-- One theorem after the other: side by side, their threads need more memory than the check allows.
set_option Elab.async false

namespace Sys2Proof.Exact

open Sys2Proof.Machine

/-! ### One stage -/

/-- The samples of the butterfly `k` of group `g` in the stage with span `2 * half` (R164). -/
def cells (half g k : Nat) (y : Nat → ℂ) : ℂ × ℂ :=
  (y (g * (2 * half) + k), y (g * (2 * half) + k + half))

theorem cells_bfly_self {half g k : Nat} (hk : k < half) (span : Nat) (y : Nat → ℂ) :
    cells half g k (bfly (g * (2 * half) + k) (g * (2 * half) + k + half) k span y) =
      ((cells half g k y).1 + (cells half g k y).2 * rot k span,
        (cells half g k y).1 - (cells half g k y).2 * rot k span) := by
  have hne : g * (2 * half) + k + half ≠ g * (2 * half) + k := by omega
  simp only [cells, bfly, if_true, if_neg hne]

/-- The pairs of a stage are disjoint (R73). -/
theorem cells_bfly_of_ne {half g k g' k' : Nat} (hk : k < half) (hk' : k' < half)
    (h : ¬ (g' = g ∧ k' = k)) (span : Nat) (y : Nat → ℂ) :
    cells half g k (bfly (g' * (2 * half) + k') (g' * (2 * half) + k' + half) k' span y) =
      cells half g k y := by
  have hkeep : ∀ j, (j = g * (2 * half) + k ∨ j = g * (2 * half) + k + half) →
      bfly (g' * (2 * half) + k') (g' * (2 * half) + k' + half) k' span y j = y j := fun j hj => by
    have hother : ¬ (j = g' * (2 * half) + k' ∨ j = g' * (2 * half) + k' + half) := fun hj' => by
      obtain ⟨hg, hkk⟩ := pair_of_index hk hj
      obtain ⟨hg', hkk'⟩ := pair_of_index hk' hj'
      exact h ⟨hg'.symm.trans hg, hkk'.symm.trans hkk⟩
    rw [not_or] at hother
    rw [bfly, if_neg hother.1, if_neg hother.2]
  exact Prod.ext (hkeep _ (.inl rfl)) (hkeep _ (.inr rfl))

/-- The group `g` of the stage with span `2 ^ (v + 1)` (R164, R165). -/
noncomputable def group (v g : Nat) (y : Nat → ℂ) : Nat → ℂ :=
  forUpTo (2 ^ v)
    (fun k => bfly (g * (2 * 2 ^ v) + k) (g * (2 * 2 ^ v) + k + 2 ^ v) k (2 ^ (v + 1))) y

theorem stageWith_eq_groups (m v : Nat) (y : Nat → ℂ) :
    stageWith bfly m (v + 1) y = forUpTo (m / 2 ^ (v + 1)) (group v) y := by
  have hhalf : 2 ^ (v + 1) / 2 = 2 ^ v := Nat.mul_div_cancel _ two_pos
  unfold stageWith group stageAt
  rw [hhalf, pow_succ']

theorem cells_group_of_ne {v g k g' : Nat} (hk : k < 2 ^ v) (hne : g' ≠ g) (y : Nat → ℂ) :
    cells (2 ^ v) g k (group v g' y) = cells (2 ^ v) g k y :=
  forUpTo_induct (P := fun _ t => cells (2 ^ v) g k t = cells (2 ^ v) g k y) rfl
    fun _ t hk' ht => (cells_bfly_of_ne hk hk' (fun h => hne h.1) _ t).trans ht

theorem cells_group_self {v g k : Nat} (hk : k < 2 ^ v) (y : Nat → ℂ) :
    cells (2 ^ v) g k (group v g y) =
      ((cells (2 ^ v) g k y).1 + (cells (2 ^ v) g k y).2 * rot k (2 ^ (v + 1)),
        (cells (2 ^ v) g k y).1 - (cells (2 ^ v) g k y).2 * rot k (2 ^ (v + 1))) := by
  obtain ⟨hround, hbefore⟩ := read_forUpTo_of_round (read := cells (2 ^ v) g k) hk
    (fun _ t hk' hne => cells_bfly_of_ne hk hk' (fun h => hne h.2) (2 ^ (v + 1)) t) y
  rw [group, hround, cells_bfly_self hk, hbefore]

/-- A stage leaves each of its pairs as its butterfly does (R165). -/
theorem cells_stageWith {m v g k : Nat} (y : Nat → ℂ) (hg : g < m / 2 ^ (v + 1)) (hk : k < 2 ^ v) :
    cells (2 ^ v) g k (stageWith bfly m (v + 1) y) =
      ((cells (2 ^ v) g k y).1 + (cells (2 ^ v) g k y).2 * rot k (2 ^ (v + 1)),
        (cells (2 ^ v) g k y).1 - (cells (2 ^ v) g k y).2 * rot k (2 ^ (v + 1))) := by
  obtain ⟨hround, hbefore⟩ := read_forUpTo_of_round (read := cells (2 ^ v) g k) hg
    (fun _ t _ hne => cells_group_of_ne hk hne t) y
  rw [stageWith_eq_groups, hround, cells_group_self hk, hbefore]

/-! ### All stages -/

/-- After `v` of `v + r` stages, each of the `2^r` groups holds the DFT of the inputs gathered in it: those
whose index leaves the reversed number of the group when divided by `2^r` (R142, R164). -/
def GroupsDft (x : Nat → ℂ) (v r : Nat) (y : Nat → ℂ) : Prop :=
  ∀ g k, g < 2 ^ r → k < 2 ^ v →
    y (g * 2 ^ v + k) = dft (2 ^ v) (fun j => x (j * 2 ^ r + bitrevSum r g)) k

/-- `PERMUTE` brings each input to its group of one sample (R145). -/
theorem groupsDft_permute (x : Nat → ℂ) (lg : Nat) :
    GroupsDft x 0 lg (permuteWith (bitrevComputed lg) swap (2 ^ lg) x) := by
  intro g k hg hk
  obtain rfl : k = 0 := Nat.lt_one_iff.1 hk
  have hswap : ∀ i j (t : Nat → ℂ) k, swap i j t k = t (Equiv.swap i j k) := fun i j t k => by
    rw [swap, Equiv.swap_apply_def]
    split_ifs <;> rfl
  have hinv : ∀ i, i < 2 ^ lg → bitrevComputed lg (bitrevComputed lg i) = i := fun i hi => by
    rw [bitrevComputed_eq_sum, bitrevComputed_eq_sum, bitrevSum_bitrevSum, Nat.mod_eq_of_lt hi]
  have hread := read_permuteWith (read := fun t k => t k) hswap (fun i _ => bitrevComputed_lt lg i) hinv x hg
  rw [bitrevComputed_eq_sum] at hread
  simpa [dft, rot_zero] using hread

/-- The two samples of a pair before its stage: the even and the odd inputs of the group that the stage
makes (R142 (e), R164). -/
theorem GroupsDft.cells_eq {x y : Nat → ℂ} {v r g k : Nat} (h : GroupsDft x v (r + 1) y) (hg : g < 2 ^ r)
    (hk : k < 2 ^ v) :
    cells (2 ^ v) g k y = (dft (2 ^ v) (fun j => x (2 * j * 2 ^ r + bitrevSum r g)) k,
      dft (2 ^ v) (fun j => x ((2 * j + 1) * 2 ^ r + bitrevSum r g)) k) := by
  have hblock : ∀ b, b < 2 → y ((2 * g + b) * 2 ^ v + k) =
      dft (2 ^ v) (fun j => x ((2 * j + b) * 2 ^ r + bitrevSum r g)) k := fun b hb => by
    have hindex : ∀ j, j * 2 ^ (r + 1) + (bitrevSum r g + b * 2 ^ r) =
        (2 * j + b) * 2 ^ r + bitrevSum r g := fun j => by ring
    rw [h _ k (by omega) hk, bitrevSum_bit r g hb]
    simp only [hindex]
  have hleft : g * (2 * 2 ^ v) + k = (2 * g + 0) * 2 ^ v + k := by ring
  have hright : g * (2 * 2 ^ v) + k + 2 ^ v = (2 * g + 1) * 2 ^ v + k := by ring
  rw [cells, hright, hleft, hblock 0 two_pos, hblock 1 one_lt_two]
  rfl

/-- A stage joins the groups `2 * g` and `2 * g + 1` to the group `g` (R160, R164). -/
theorem GroupsDft.stageWith {x y : Nat → ℂ} {v r : Nat} (h : GroupsDft x v (r + 1) y) :
    GroupsDft x (v + 1) r (stageWith bfly (2 ^ (v + 1 + r)) (v + 1) y) := by
  have hpos : 2 ^ v ≠ 0 := by positivity
  have hgroups : 2 ^ (v + 1 + r) / 2 ^ (v + 1) = 2 ^ r := by
    rw [pow_add, Nat.mul_div_cancel_left _ (by positivity)]
  have hpair : ∀ g k, g < 2 ^ r → k < 2 ^ v →
      cells (2 ^ v) g k (Machine.stageWith bfly (2 ^ (v + 1 + r)) (v + 1) y) =
        (dft (2 * 2 ^ v) (fun j => x (j * 2 ^ r + bitrevSum r g)) k,
          dft (2 * 2 ^ v) (fun j => x (j * 2 ^ r + bitrevSum r g)) (k + 2 ^ v)) := fun g k hg hk => by
    rw [cells_stageWith y (hgroups.symm ▸ hg) hk, h.cells_eq hg hk, dft_two_mul, dft_two_mul_add hpos,
      pow_succ', mul_comm (rot _ _)]
  intro g k hg hk
  rw [pow_succ'] at hk ⊢
  rcases Nat.lt_or_ge k (2 ^ v) with hlow | hhigh
  · exact congrArg Prod.fst (hpair g k hg hlow)
  · obtain ⟨d, rfl⟩ := Nat.exists_eq_add_of_le' hhigh
    rw [← Nat.add_assoc]
    exact congrArg Prod.snd (hpair g d hg (by omega))

/-- In exact arithmetic the kernel computes the DFT in natural order (R167). -/
theorem kernel_eq_dft (lg : Nat) (x : Nat → ℂ) {k : Nat} (hk : k < 2 ^ lg) :
    kernel lg x k = dft (2 ^ lg) x k := by
  have hstages : ∀ r, lg + r = lg → GroupsDft x lg r (kernel lg x) := by
    refine forUpTo_induct (P := fun v y => ∀ r, v + r = lg → GroupsDft x v r y) (fun r hr => ?_)
      fun v y _ hy r hr => ?_
    · rw [← hr, Nat.zero_add]
      exact groupsDft_permute x r
    · rw [← hr]
      exact (hy (r + 1) (by omega)).stageWith
  simpa [bitrevSum] using hstages 0 rfl 0 k (by simp) hk

end Sys2Proof.Exact
end

section
/-! SUPPORT. The recombination in exact arithmetic (R203), and the spectrum of a real input from that of its
packed samples (R205). -/

-- One theorem after the other: side by side, their threads need more memory than the check allows.
set_option Elab.async false

namespace Sys2Proof.Exact

open Sys2Proof.Machine
open Complex (I)
open scoped ComplexConjugate

/-! ### The three parts of the pass -/

/-- The two samples of the loop step at `k`, from their even and odd parts `e` and `o` (R203, R205 (a), (b)):
`x k` is `e + I * o`, and the mirror sample is the conjugate of `e - I * o`. -/
theorem pair_of_parts {n k : Nat} {x : Nat → ℂ} {e o : ℂ} (hne : n / 2 - k ≠ k) (hk : x k = e + I * o)
    (hmirror : x (n / 2 - k) = conj (e - I * o)) :
    pair n k x k = e + rot k n * o ∧ pair n k x (n / 2 - k) = conj (e - rot k n * o) := by
  have heven : (⟨((x k).re + (x (n / 2 - k)).re) / 2, ((x k).im - (x (n / 2 - k)).im) / 2⟩ : ℂ) = e := by
    rw [hk, hmirror]
    exact Complex.ext (by simp; ring) (by simp)
  have hodd : (⟨((x k).im + (x (n / 2 - k)).im) / 2, ((x (n / 2 - k)).re - (x k).re) / 2⟩ : ℂ) = o := by
    rw [hk, hmirror]
    exact Complex.ext (by simp; ring) (by simp)
  obtain ⟨hre, him⟩ := Complex.ext_iff.1 heven
  dsimp only at hre him
  constructor
  · simp only [pair, if_true, hodd, hre, him]
    rw [mul_comm]
    rfl
  · simp only [pair, if_neg hne, if_true, hodd, hre, him]
    rw [mul_comm]
    refine Complex.ext (by simp) ?_
    simp
    ring

theorem pair_of_ne {n k j : Nat} (x : Nat → ℂ) (hj : j ≠ k) (hmirror : j ≠ n / 2 - k) :
    pair n k x j = x j := by
  simp only [pair, if_neg hj, if_neg hmirror]

theorem bin0_of_ne {j : Nat} (x : Nat → ℂ) (hj : j ≠ 0) : bin0 x j = x j := if_neg hj

theorem mid_of_ne {n j : Nat} (x : Nat → ℂ) (hj : j ≠ n / 4) : mid n x j = x j := if_neg hj

theorem mid_quarter (n : Nat) (x : Nat → ℂ) : mid n x (n / 4) = conj (x (n / 4)) := if_pos rfl

/-! ### The pass -/

/-- `RECOMBINE(n)` on the sequence `x` (R203). -/
noncomputable def recombined (n : Nat) (x : Nat → ℂ) : Nat → ℂ :=
  recombineWith bin0 (pair n) (mid n) n x

theorem recombined_eq (n : Nat) (x : Nat → ℂ) :
    recombined n x = mid n (forUpTo (n / 4 - 1) (fun j => pair n (j + 1)) (bin0 x)) := rfl

/-- The pairs leave the samples 0 and `n / 4` as they were (R203). -/
theorem pairs_of_special {n j : Nat} (x : Nat → ℂ) (hj : j = 0 ∨ j = n / 4) :
    forUpTo (n / 4 - 1) (fun j => pair n (j + 1)) x j = x j :=
  forUpTo_induct (P := fun _ (y : Nat → ℂ) => y j = x j) rfl
    fun v y hv hy => by
      obtain ⟨hleft, hright⟩ := special_ne_mirror hj (Nat.le_add_left 1 v) (Nat.add_lt_of_lt_sub hv)
      rw [pair_of_ne y hleft hright, hy]

theorem recombined_zero {n : Nat} (x : Nat → ℂ) (h4 : 4 ≤ n) :
    recombined n x 0 = ⟨(x 0).re + (x 0).im, (x 0).re - (x 0).im⟩ := by
  rw [recombined_eq, mid_of_ne _ (Nat.div_pos h4 four_pos).ne, pairs_of_special _ (.inl rfl)]
  rfl

theorem recombined_quarter {n : Nat} (x : Nat → ℂ) (h4 : 4 ≤ n) :
    recombined n x (n / 4) = conj (x (n / 4)) := by
  rw [recombined_eq, mid_quarter, pairs_of_special _ (.inr rfl), bin0_of_ne _ (Nat.div_pos h4 four_pos).ne']

/-- The bins of a pair, from the even and odd parts before the pass (R205). -/
theorem recombined_pair {n k : Nat} {x : Nat → ℂ} {e o : ℂ} (h1 : 1 ≤ k) (hk : k < n / 4)
    (hx : x k = e + I * o) (hmirror : x (n / 2 - k) = conj (e - I * o)) :
    recombined n x k = e + rot k n * o ∧ recombined n x (n / 2 - k) = conj (e - rot k n * o) := by
  obtain ⟨hzero, hzero'⟩ := special_ne_mirror (.inl rfl) h1 hk
  obtain ⟨hquarter, hquarter'⟩ := special_ne_mirror (.inr rfl) h1 hk
  have hkeep : ∀ v (y : Nat → ℂ), v < n / 4 - 1 → v ≠ k - 1 →
      (pair n (v + 1) y k, pair n (v + 1) y (n / 2 - k)) = (y k, y (n / 2 - k)) := fun v y hv hne => by
    obtain ⟨⟨hkv, hkv'⟩, hmv, hmv'⟩ := mirror_ne_of_ne hk (Nat.add_lt_of_lt_sub hv)
      (fun h => hne (Nat.eq_sub_of_add_eq h))
    exact Prod.ext (pair_of_ne y hkv hkv') (pair_of_ne y hmv hmv')
  obtain ⟨hround, hbefore⟩ := read_forUpTo_of_round
    (read := fun y : Nat → ℂ => (y k, y (n / 2 - k))) (Nat.sub_lt_sub_right h1 hk) hkeep (bin0 x)
  rw [Nat.sub_add_cancel h1] at hround
  obtain ⟨hleft, hright⟩ := Prod.ext_iff.1 hround
  obtain ⟨hleft', hright'⟩ := Prod.ext_iff.1 hbefore
  dsimp only at hleft hright hleft' hright'
  rw [recombined_eq, mid_of_ne _ hquarter.symm, mid_of_ne _ hquarter'.symm, hleft, hright]
  exact pair_of_parts (ne_mirror hk).symm (by rw [hleft', bin0_of_ne x hzero.symm, hx])
    (by rw [hright', bin0_of_ne x hzero'.symm, hmirror])

/-! ### The spectrum of a real input -/

/-- The DFT of the even samples of a real input (R205). -/
noncomputable def evenDft (h : Nat) (x : Nat → ℝ) : Nat → ℂ := dft h fun j => (x (2 * j) : ℂ)

/-- The DFT of the odd samples of a real input (R205). -/
noncomputable def oddDft (h : Nat) (x : Nat → ℝ) : Nat → ℂ := dft h fun j => (x (2 * j + 1) : ℂ)

/-- The DFT of a real input (R201). -/
noncomputable def realDft (n : Nat) (x : Nat → ℝ) : Nat → ℂ := dft n fun j => (x j : ℂ)

section
variable {h k k' : Nat} (hh : h ≠ 0) (x : Nat → ℝ)
include hh

theorem conj_evenDft (hk : h ∣ k + k') : conj (evenDft h x k) = evenDft h x k' :=
  conj_dft_real hh hk _

theorem conj_oddDft (hk : h ∣ k + k') : conj (oddDft h x k) = oddDft h x k' :=
  conj_dft_real hh hk _

omit hh in
/-- A bin of the real input by its even and odd part (R205 (a)). -/
theorem realDft_eq_parts (k : Nat) :
    realDft (2 * h) x k = evenDft h x k + rot k (2 * h) * oddDft h x k := dft_two_mul _ k

/-- Half the bins further on, the rotated odd part has the opposite sign (R205 (c)). -/
theorem realDft_add_half (k : Nat) :
    realDft (2 * h) x (k + h) = evenDft h x k - rot k (2 * h) * oddDft h x k := dft_two_mul_add hh _ k

/-- The mirror of a bin (R205 (b)). -/
theorem realDft_mirror (hk : k ≤ h) :
    realDft (2 * h) x (h - k) = conj (evenDft h x k - rot k (2 * h) * oddDft h x k) := by
  rw [← realDft_add_half hh]
  exact (conj_dft_real (Nat.mul_ne_zero two_ne_zero hh) ⟨1, by omega⟩ x).symm

end

/-- The kernel's bins of the packed input (R202, R205). -/
noncomputable def packedKernel (l : Nat) (x : Nat → ℝ) : Nat → ℂ :=
  kernel l fun j => ⟨x (2 * j), x (2 * j + 1)⟩

/-- A bin of the packed input by the even and the odd part of the real input (R205). -/
theorem packedKernel_eq_parts {l k : Nat} (x : Nat → ℝ) (hk : k < 2 ^ l) :
    packedKernel l x k = evenDft (2 ^ l) x k + I * oddDft (2 ^ l) x k := by
  rw [packedKernel, kernel_eq_dft l _ hk, dft_packed]
  rfl

/-- The mirror of a bin of the packed input (R205). -/
theorem packedKernel_mirror {l k : Nat} (x : Nat → ℝ) (h1 : 1 ≤ k) (hk : k < 2 ^ l) :
    packedKernel l x (2 ^ l - k) = conj (evenDft (2 ^ l) x k - I * oddDft (2 ^ l) x k) := by
  have hpos : 2 ^ l ≠ 0 := by positivity
  have hsum : 2 ^ l ∣ k + (2 ^ l - k) := by rw [Nat.add_sub_cancel' hk.le]
  rw [packedKernel_eq_parts x (Nat.sub_lt (Nat.two_pow_pos l) h1), map_sub, map_mul, conj_evenDft hpos x hsum,
    conj_oddDft hpos x hsum, Complex.conj_I]
  ring

/-- The parts are real where a bin is its own mirror (R205 (c), (d)). -/
theorem im_eq_zero_of_self_mirrored {h k : Nat} (hh : h ≠ 0) (x : Nat → ℝ) (hk : h ∣ k + k) :
    (evenDft h x k).im = 0 ∧ (oddDft h x k).im = 0 :=
  ⟨Complex.conj_eq_iff_im.1 (conj_evenDft hh x hk), Complex.conj_eq_iff_im.1 (conj_oddDft hh x hk)⟩

/-! ### The bins of the real transform -/

section
variable {l m : Nat} (hm : 0 < m) (hsize : 2 ^ l = 2 * m) (x : Nat → ℝ)
include hm hsize

/-- Bin 0 holds the first and the Nyquist coefficient (R205 (c)). -/
theorem recombined_packedKernel_zero :
    recombined (2 * (2 * m)) (packedKernel l x) 0 =
      ⟨(realDft (2 * (2 * m)) x 0).re, (realDft (2 * (2 * m)) x (2 * m)).re⟩ := by
  have hh : 2 * m ≠ 0 := (Nat.mul_pos two_pos hm).ne'
  obtain ⟨heven, hodd⟩ := im_eq_zero_of_self_mirrored (k := 0) hh x (dvd_zero _)
  have hnyquist := realDft_add_half hh x 0
  rw [Nat.zero_add] at hnyquist
  rw [recombined_zero _ (by omega), packedKernel_eq_parts x (by positivity), hnyquist,
    realDft_eq_parts, rot_zero, hsize]
  simp [heven, hodd]

/-- The bins of a pair (R205 (a), (b)). -/
theorem recombined_packedKernel_pair {k : Nat} (h1 : 1 ≤ k) (hk : k < m) :
    recombined (2 * (2 * m)) (packedKernel l x) k = realDft (2 * (2 * m)) x k ∧
      recombined (2 * (2 * m)) (packedKernel l x) (2 * m - k) = realDft (2 * (2 * m)) x (2 * m - k) := by
  have hhalf : 2 * (2 * m) / 2 = 2 * m := Nat.mul_div_cancel_left _ two_pos
  have hlt : k < 2 ^ l := by omega
  have hpair := recombined_pair (n := 2 * (2 * m)) h1 (by omega)
    (packedKernel_eq_parts x hlt)
    (by rw [hhalf, ← hsize]; exact packedKernel_mirror x h1 hlt)
  rw [hhalf, hsize] at hpair
  rw [realDft_eq_parts, realDft_mirror (by omega) x (hlt.le.trans_eq hsize)]
  exact hpair

/-- The self-mirrored bin (R205 (d)). -/
theorem recombined_packedKernel_quarter :
    recombined (2 * (2 * m)) (packedKernel l x) m = realDft (2 * (2 * m)) x m := by
  have hquarter : 2 * (2 * m) / 4 = m := by omega
  have hself : 2 * m ∣ m + m := ⟨1, by omega⟩
  have hh : 2 * m ≠ 0 := (Nat.mul_pos two_pos hm).ne'
  have hrot : rot m (2 * (2 * m)) = -I := by rw [← Nat.mul_assoc, rot_quarter hm.ne']
  have hconj := recombined_quarter (n := 2 * (2 * m)) (packedKernel l x) (by omega)
  rw [hquarter, packedKernel_eq_parts x (by omega), hsize, map_add, map_mul, Complex.conj_I,
    conj_evenDft hh x hself, conj_oddDft hh x hself] at hconj
  rw [realDft_eq_parts, hrot, hconj]

end

end Sys2Proof.Exact

namespace Sys2Proof.Proofs

open Sys2Proof.Machine Sys2Proof.Exact

/-- Settles O57: the even and odd parts of the packed bins, recombined bin by bin as in R205. -/
theorem realTransformLayout : Obligations.RealTransformLayout := by
  intro lg x h2
  obtain ⟨l, rfl⟩ := Nat.exists_eq_add_of_le' h2
  have hm : 0 < 2 ^ l := Nat.two_pow_pos l
  have hhalf : 2 ^ (l + 1) = 2 * 2 ^ l := pow_succ' 2 l
  have htransform : realTransform (l + 2) x = recombined (2 ^ (l + 2)) (packedKernel (l + 1) x) := rfl
  rw [htransform, pow_succ' 2 (l + 1), Nat.mul_div_cancel_left _ two_pos, hhalf]
  refine ⟨recombined_packedKernel_zero hm hhalf x, fun k h1 hk => ?_⟩
  obtain hlow | rfl | hhigh := Nat.lt_trichotomy k (2 ^ l)
  · exact (recombined_packedKernel_pair hm hhalf x h1 hlow).1
  · exact recombined_packedKernel_quarter hm hhalf x
  · have hmirror := (recombined_packedKernel_pair hm hhalf x (k := 2 * 2 ^ l - k)
      (Nat.sub_pos_of_lt hk) (by omega)).2
    rwa [Nat.sub_sub_self hk.le] at hmirror

end Sys2Proof.Proofs
end
